-- ==== Sys2Proof/Word.lean ====
section
/-! DEFINITION. The word, byte and register-index types (spec/00_scope.md R6, R8, spec/10_state.md R20). -/

namespace Sys2Proof

/-- A 16-bit word: register contents, addresses and instruction words (R6, R8). -/
abbrev Word := BitVec 16

/-- One byte of an image or of a memory cell. -/
abbrev Byte := BitVec 8

/-- "Register Index: enumerated value 0–7" (R20, R103). -/
abbrev RegIdx := Fin 8

/-- The first address of the device window (R6, R61): words below it are backed by the array. -/
abbrev windowBase : Word := 0xFE00

end Sys2Proof
end

