-- ==== Sys2Proof/Syntax.lean ====
section
/-! DEFINITION. The instructions: one constructor per row of spec/opcode_table.json (spec/30_encoding.md R101, R102).

Immediates and offsets are the signed numbers of R104 to R107 and the trap vector is the number of R108, so a term can
be out of range, as an encoder's operand can (R122); `WellFormed` says when it is not. -/

namespace Sys2Proof

inductive Instr where
  /-- ADD, register form (R140): DR, SR1, SR2. -/
  | addReg (dr sr1 sr2 : RegIdx)
  /-- ADD, immediate form (R141): DR, SR1, imm5. -/
  | addImm (dr sr1 : RegIdx) (imm : Int)
  /-- AND, register form (R142). -/
  | andReg (dr sr1 sr2 : RegIdx)
  /-- AND, immediate form (R143). -/
  | andImm (dr sr1 : RegIdx) (imm : Int)
  /-- NOT (R144): DR, SR. -/
  | notReg (dr sr : RegIdx)
  /-- BR (R161): the nzp mask, n in bit 2, z in bit 1, p in bit 0 (R109), and PCoffset9. -/
  | br (nzp : BitVec 3) (off : Int)
  /-- NOP (R162): any word of family 0 with nzp = 000; its PCoffset9 has no effect. -/
  | nop (off : Int)
  /-- JMP (R163): BaseR. -/
  | jmp (base : RegIdx)
  /-- RET (R164): the JMP word with BaseR = 7. -/
  | ret
  /-- JMPT (R166): the JMP family with its table bit set. -/
  | jmpt (base : RegIdx)
  /-- JSR (R167): PCoffset11. -/
  | jsr (off : Int)
  /-- JSRR (R168): BaseR. -/
  | jsrr (base : RegIdx)
  /-- LD (R192). -/
  | ld (dr : RegIdx) (off : Int)
  /-- LDI (R193). -/
  | ldi (dr : RegIdx) (off : Int)
  /-- LDR (R194). -/
  | ldr (dr base : RegIdx) (off : Int)
  /-- LEA (R196). -/
  | lea (dr : RegIdx) (off : Int)
  /-- ST (R197). -/
  | st (sr : RegIdx) (off : Int)
  /-- STI (R198). -/
  | sti (sr : RegIdx) (off : Int)
  /-- STR (R199). -/
  | str (sr base : RegIdx) (off : Int)
  /-- TRAP (R220): trapvect8. -/
  | trap (vect : Nat)
  /-- RTI (R222, R223). -/
  | rti
  /-- The reserved family 1101 (R224): its 12 low bits, which the fault record keeps. -/
  | reserved (low : BitVec 12)
deriving DecidableEq, Repr

end Sys2Proof
end

