-- ==== Sys2Proof/WellFormed.lean ====
section
/-! DEFINITION. Which instruction terms have every operand within its field's declared width: the range in which
the round-trip law is claimed (spec/30_encoding.md R104 to R108, R124, R125). -/

namespace Sys2Proof

/-- `-2^(n-1) <= v < 2^(n-1)`: a signed field of `n` bits holds `v` (R125). -/
def fitsSigned (n : Nat) (v : Int) : Bool :=
  decide (-(2 ^ (n - 1) : Int) ≤ v) && decide (v < (2 ^ (n - 1) : Int))

/-- A vector of 8 bits holds `v` (R108). -/
def fitsVector (v : Nat) : Bool := decide (v < 256)

/-- Every operand lies within its field. -/
def Instr.wellFormed : Instr → Bool
  | .addReg _ _ _ => true
  | .addImm _ _ imm => fitsSigned 5 imm
  | .andReg _ _ _ => true
  | .andImm _ _ imm => fitsSigned 5 imm
  | .notReg _ _ => true
  | .br _ off => fitsSigned 9 off
  | .nop off => fitsSigned 9 off
  | .jmp _ => true
  | .ret => true
  | .jmpt _ => true
  | .jsr off => fitsSigned 11 off
  | .jsrr _ => true
  | .ld _ off => fitsSigned 9 off
  | .ldi _ off => fitsSigned 9 off
  | .ldr _ _ off => fitsSigned 6 off
  | .lea _ off => fitsSigned 9 off
  | .st _ off => fitsSigned 9 off
  | .sti _ off => fitsSigned 9 off
  | .str _ _ off => fitsSigned 6 off
  | .trap v => fitsVector v
  | .rti => true
  | .reserved _ => true

end Sys2Proof
end

