-- ==== Sys2Proof/Decode.lean ====
section
/-! DEFINITION. The codec: the decoder, total on every 16-bit word, and after it the encoder (spec/30_encoding.md).

Every opcode number and every field position below is the public LC-3 encoding, which the spec takes by its decision D1
(log entry 8: PRESUMED). -/

namespace Sys2Proof

/-- Why a word fails its family's validity check (R113 to R116). The reserved family is a row of the opcode table of
its own: it decodes to `Instr.reserved`, whose meaning raises the decode fault (R117, R224). -/
inductive DecodeError where
  /-- ADD or AND in register form with w[4:3] other than 00 (R113). -/
  | operateReservedBits
  /-- NOT with w[5:0] other than 111111 (R114). -/
  | notLowBits
  /-- The JMP family with w[11:9] other than 000 or w[5:1] other than 00000 (R115). -/
  | jumpReservedBits
  /-- RTI with w[11:0] other than 0 (R116). -/
  | rtiReservedBits
deriving DecidableEq, Repr

/-! ## Fields (R103 to R108) -/

/-- The family, w[15:12] (R101). -/
def familyOf (w : Word) : Fin 16 := (w.extractLsb' 12 4).toFin

/-- DR, or SR of a store: w[11:9] (R103). -/
def drField (w : Word) : RegIdx := (w.extractLsb' 9 3).toFin

/-- SR1, SR or BaseR: w[8:6] (R103). -/
def baseField (w : Word) : RegIdx := (w.extractLsb' 6 3).toFin

/-- SR2: w[2:0] (R103). -/
def sr2Field (w : Word) : RegIdx := (w.extractLsb' 0 3).toFin

/-- imm5, signed (R104). -/
def imm5Field (w : Word) : Int := (w.extractLsb' 0 5).toInt

/-- offset6, signed (R105). -/
def off6Field (w : Word) : Int := (w.extractLsb' 0 6).toInt

/-- PCoffset9, signed (R106). -/
def off9Field (w : Word) : Int := (w.extractLsb' 0 9).toInt

/-- PCoffset11, signed (R107). -/
def off11Field (w : Word) : Int := (w.extractLsb' 0 11).toInt

/-- trapvect8, unsigned (R108). -/
def vectField (w : Word) : Nat := (w.extractLsb' 0 8).toNat

/-! ## The decoder (R120): one function per entry of the dispatch table -/

/-- Family 0: nzp = 000 is the NOP (R161, R162). -/
def decodeBr (w : Word) : Except DecodeError Instr :=
  if w.extractLsb' 9 3 = 0#3 then .ok (.nop (off9Field w))
  else .ok (.br (w.extractLsb' 9 3) (off9Field w))

/-- ADD (R110, R113). -/
def decodeAdd (w : Word) : Except DecodeError Instr :=
  if w.extractLsb' 5 1 = 1#1 then .ok (.addImm (drField w) (baseField w) (imm5Field w))
  else if w.extractLsb' 3 2 = 0#2 then .ok (.addReg (drField w) (baseField w) (sr2Field w))
  else .error .operateReservedBits

/-- AND (R110, R113). -/
def decodeAnd (w : Word) : Except DecodeError Instr :=
  if w.extractLsb' 5 1 = 1#1 then .ok (.andImm (drField w) (baseField w) (imm5Field w))
  else if w.extractLsb' 3 2 = 0#2 then .ok (.andReg (drField w) (baseField w) (sr2Field w))
  else .error .operateReservedBits

/-- NOT (R114). -/
def decodeNot (w : Word) : Except DecodeError Instr :=
  if w.extractLsb' 0 6 = 0b111111#6 then .ok (.notReg (drField w) (baseField w))
  else .error .notLowBits

/-- The JMP family: JMP, RET and JMPT (R112, R115). -/
def decodeJmp (w : Word) : Except DecodeError Instr :=
  if w.extractLsb' 9 3 = 0#3 ∧ w.extractLsb' 1 5 = 0#5 then
    if w.extractLsb' 0 1 = 1#1 then .ok (.jmpt (baseField w))
    else if baseField w = 7 then .ok .ret
    else .ok (.jmp (baseField w))
  else .error .jumpReservedBits

/-- The JSR family; JSRR ignores w[10:9] and w[5:0] (R111, R118). -/
def decodeJsr (w : Word) : Except DecodeError Instr :=
  if w.extractLsb' 11 1 = 1#1 then .ok (.jsr (off11Field w)) else .ok (.jsrr (baseField w))

def decodeLd (w : Word) : Except DecodeError Instr := .ok (.ld (drField w) (off9Field w))
def decodeLdi (w : Word) : Except DecodeError Instr := .ok (.ldi (drField w) (off9Field w))
def decodeLea (w : Word) : Except DecodeError Instr := .ok (.lea (drField w) (off9Field w))
def decodeSt (w : Word) : Except DecodeError Instr := .ok (.st (drField w) (off9Field w))
def decodeSti (w : Word) : Except DecodeError Instr := .ok (.sti (drField w) (off9Field w))
def decodeLdr (w : Word) : Except DecodeError Instr := .ok (.ldr (drField w) (baseField w) (off6Field w))
def decodeStr (w : Word) : Except DecodeError Instr := .ok (.str (drField w) (baseField w) (off6Field w))

/-- TRAP ignores w[11:8] (R118). -/
def decodeTrap (w : Word) : Except DecodeError Instr := .ok (.trap (vectField w))

/-- RTI (R116). -/
def decodeRti (w : Word) : Except DecodeError Instr :=
  if w.extractLsb' 0 12 = 0#12 then .ok .rti else .error .rtiReservedBits

/-- The reserved family (R117, R224). -/
def decodeReserved (w : Word) : Except DecodeError Instr := .ok (.reserved (w.extractLsb' 0 12))

/-- The dispatch table: "16 entries indexed by w[15:12]" (R101, R121). -/
def dispatchTable : Vector (Word → Except DecodeError Instr) 16 :=
  #v[decodeBr, decodeAdd, decodeLd, decodeSt, decodeJsr, decodeAnd, decodeLdr, decodeStr,
     decodeRti, decodeNot, decodeLdi, decodeSti, decodeJmp, decodeReserved, decodeLea, decodeTrap]

/-- The decoder, "a total function from 16-bit words to an instruction or a decode fault" (R120). -/
def decode (w : Word) : Except DecodeError Instr := dispatchTable.get (familyOf w) w

/-- The term is the reserved row, whose meaning is the decode fault itself: no operation is invoked for it (R117, R224). -/
def Instr.isReserved : Instr → Bool
  | .reserved _ => true
  | _ => false

/-- The word raises a decode fault: it fails a validity check or is of the reserved family (R280). -/
def decodeFaults (w : Word) : Bool :=
  match decode w with
  | .error _ => true
  | .ok i => i.isReserved

/-! ## The encoder (R102, R122): each layout written with bit 15 on the left, operands masked to their fields -/

def regBits (r : RegIdx) : BitVec 3 := BitVec.ofFin r

/-- The word of an instruction (R102, R123). -/
def encode : Instr → Word
  | .addReg d s t => 0b0001#4 ++ regBits d ++ regBits s ++ 0b000#3 ++ regBits t
  | .addImm d s v => 0b0001#4 ++ regBits d ++ regBits s ++ 1#1 ++ BitVec.ofInt 5 v
  | .andReg d s t => 0b0101#4 ++ regBits d ++ regBits s ++ 0b000#3 ++ regBits t
  | .andImm d s v => 0b0101#4 ++ regBits d ++ regBits s ++ 1#1 ++ BitVec.ofInt 5 v
  | .notReg d s => 0b1001#4 ++ regBits d ++ regBits s ++ 0b111111#6
  | .br nzp off => 0b0000#4 ++ nzp ++ BitVec.ofInt 9 off
  | .nop off => 0b0000#4 ++ 0b000#3 ++ BitVec.ofInt 9 off
  | .jmp s => 0b1100#4 ++ 0b000#3 ++ regBits s ++ 0b000000#6
  | .ret => 0b1100#4 ++ 0b000#3 ++ 0b111#3 ++ 0b000000#6
  | .jmpt s => 0b1100#4 ++ 0b000#3 ++ regBits s ++ 0b000001#6
  | .jsr off => 0b0100#4 ++ 1#1 ++ BitVec.ofInt 11 off
  | .jsrr s => 0b0100#4 ++ 0b000#3 ++ regBits s ++ 0b000000#6
  | .ld d off => 0b0010#4 ++ regBits d ++ BitVec.ofInt 9 off
  | .ldi d off => 0b1010#4 ++ regBits d ++ BitVec.ofInt 9 off
  | .ldr d s off => 0b0110#4 ++ regBits d ++ regBits s ++ BitVec.ofInt 6 off
  | .lea d off => 0b1110#4 ++ regBits d ++ BitVec.ofInt 9 off
  | .st d off => 0b0011#4 ++ regBits d ++ BitVec.ofInt 9 off
  | .sti d off => 0b1011#4 ++ regBits d ++ BitVec.ofInt 9 off
  | .str d s off => 0b0111#4 ++ regBits d ++ regBits s ++ BitVec.ofInt 6 off
  | .trap v => 0b1111#4 ++ 0b0000#4 ++ BitVec.ofNat 8 v
  | .rti => 0b1000#4 ++ 0b000000000000#12
  | .reserved low => 0b1101#4 ++ low

/-- The spelling the decoder gives: BR with an empty mask is the NOP and JMP R7 is RET. This is the identification up
to which the round-trip law holds (R124). -/
def Instr.spelling : Instr → Instr
  | .br nzp off => if nzp = 0#3 then .nop off else .br nzp off
  | .jmp s => if s = 7 then .ret else .jmp s
  | i => i

/-- `match` and `mask` of the instruction's row of spec/opcode_table.json. -/
def Instr.tableRow : Instr → Word × Word
  | .addReg _ _ _ => (0x1000, 0xF038)
  | .addImm _ _ _ => (0x1020, 0xF020)
  | .andReg _ _ _ => (0x5000, 0xF038)
  | .andImm _ _ _ => (0x5020, 0xF020)
  | .notReg _ _ => (0x903F, 0xF03F)
  | .br _ _ => (0x0000, 0xF000)
  | .nop _ => (0x0000, 0xFE00)
  | .jmp _ => (0xC000, 0xFE3F)
  | .ret => (0xC1C0, 0xFFFF)
  | .jmpt _ => (0xC001, 0xFE3F)
  | .jsr _ => (0x4800, 0xF800)
  | .jsrr _ => (0x4000, 0xF800)
  | .ld _ _ => (0x2000, 0xF000)
  | .ldi _ _ => (0xA000, 0xF000)
  | .ldr _ _ _ => (0x6000, 0xF000)
  | .lea _ _ => (0xE000, 0xF000)
  | .st _ _ => (0x3000, 0xF000)
  | .sti _ _ => (0xB000, 0xF000)
  | .str _ _ _ => (0x7000, 0xF000)
  | .trap _ => (0xF000, 0xF000)
  | .rti => (0x8000, 0xFFFF)
  | .reserved _ => (0xD000, 0xF000)

/-- The instruction the decoder reads from a row's word: one 16-bit word, bit 0 its least significant bit (R8, R100). -/
def decodeTableWord (nbits w : Nat) : Option Instr :=
  match decode (BitVec.ofNat 16 (w % 2 ^ nbits)) with
  | .ok i => some i
  | .error _ => none

end Sys2Proof
end

