-- ==== Sys2Proof/Config.lean ====
section
/-! DEFINITION. The implementation parameters of spec/00_scope.md R7 and R40, and the free values.

The spec leaves these points open and says that "the model takes each one as an argument". `exec` and `step`
have a fixed type, so the argument is a record that `State` carries and that no step changes: a statement about
every state is a statement about every value of every parameter. -/

namespace Sys2Proof

/-- What JMPT does: the three values of the parameter `jmptSemantics` (R166, decision D5). -/
inductive JmptSemantics where
  | refuse | jump | jumpToUser
deriving DecidableEq, Repr, Inhabited

/-- The two admissible readings of "the top of the user stack" (R322, decision D8). -/
inductive StackTop where
  /-- 0xFDFF, the last user word. -/
  | lastUserWord
  /-- 0xFE00, one past it, for a push that decrements first. -/
  | onePast
deriving DecidableEq, Repr, Inhabited

/-- The word that a reading of the parameter puts into R6 (R322). -/
def StackTop.toWord : StackTop → Word
  | .lastUserWord => 0xFDFF
  | .onePast => 0xFE00

/-- The parameters of R7 and the executor choice of R40. The two oracles of R7 are the free values below and
the answer lists of `State`. -/
structure Config where
  /-- `userStackTop`, OPEN (D8). -/
  userStackTop : StackTop
  /-- `jmptSemantics`, default `refuse` (D5). -/
  jmptSemantics : JmptSemantics
  /-- `jsrrLinkFirst`, default `true` (D6). -/
  jsrrLinkFirst : Bool
  /-- `trapFirmware`: the (address, word) pairs that initialisation writes (R298, D9). DESIGN CHOICE: a list, of which the
  later pair stands where two name one address (log entry 34). -/
  trapFirmware : List (Word × Word)
  /-- `loaderBase`, default 0x0000 (R82, D24). -/
  loaderBase : Word
  /-- The traced executor (`true`) or the plain one (R40, R254). -/
  traced : Bool
deriving DecidableEq, Repr

/-- FREE VALUE (log entry 3). The host's answer to a KBSR or KBDR read (R68, R69): "any 16-bit value, under no law".
The arguments are how many host answers were taken before it, and the address. -/
opaque Config.kbdOracle : Nat → Word → Word

/-- FREE VALUE (log entry 3). The host's answer to a read of DDR or of an unnamed device address (R72, R75). -/
opaque Config.devReadOracle : Nat → Word → Word

/-- FREE VALUE (log entry 5). Which of the two readings of `userStackTop` the reset machine is built with (R322: OPEN). -/
opaque Config.openStackTop : StackTop

end Sys2Proof
end

