-- ==== Sys2Proof/Machine/Firmware.lean ====
section
/-! DEFINITION. The reference trap firmware, the default of the parameter `trapFirmware`
(spec/60_exceptions.md R298 to R306, decision D9; log entry 6). -/

namespace Sys2Proof.Machine

/-- The words of a routine, paired with consecutive addresses. -/
def placedAt (start : Word) : List Word → List (Word × Word)
  | [] => []
  | w :: ws => (start, w) :: placedAt (start + 1) ws

/-- The six vector words (R299, R306). -/
def vectorWords : List (Word × Word) :=
  [(0x0020, 0x0200), (0x0021, 0x0206), (0x0022, 0x020F), (0x0023, 0x0228), (0x0024, 0x0236), (0x0025, 0x0264)]

/-- GETC (R300): the words 0x0200 to 0x0205. -/
def getcRoutine : List Word :=
  [0xA003, 0x07FE, 0xA002, 0xC1C0, 0xFE00, 0xFE02]

/-- OUT (R301): the words 0x0206 to 0x020E. -/
def outRoutine : List Word :=
  [0x3207, 0xA204, 0x07FE, 0xB003, 0x2203, 0xC1C0, 0xFE04, 0xFE06] ++
  [0x0000]

/-- PUTS (R302): the words 0x020F to 0x0227. -/
def putsRoutine : List Word :=
  [0x3014, 0x3214, 0x3414, 0x3614, 0x260F, 0x6200, 0x0406, 0xA40A] ++
  [0x07FE, 0x5243, 0xB208, 0x1021, 0x0FF8, 0x2007, 0x2207, 0x2407] ++
  [0x2607, 0xC1C0, 0xFE04, 0xFE06, 0x00FF, 0x0000, 0x0000, 0x0000] ++
  [0x0000]

/-- IN (R303): the words 0x0228 to 0x0235. -/
def inRoutine : List Word :=
  [0x320C, 0xA007, 0x07FE, 0xA006, 0xA206, 0x07FE, 0xB005, 0x2205] ++
  [0xC1C0, 0xFE00, 0xFE02, 0xFE04, 0xFE06, 0x0000]

/-- PUTSP (R304): the words 0x0236 to 0x0263. -/
def putspRoutine : List Word :=
  [0x3027, 0x3227, 0x3427, 0x3627, 0x3827, 0x3A27, 0x2620, 0x6200] ++
  [0x5443, 0x0414, 0xA81A, 0x07FE, 0xB419, 0x54A0, 0x5B60, 0x1B68] ++
  [0x1482, 0x1260, 0x0601, 0x14A1, 0x1241, 0x1B7F, 0x03F9, 0x14A0] ++
  [0x0405, 0xA80B, 0x07FE, 0xB40A, 0x1021, 0x0FE9, 0x2009, 0x2209] ++
  [0x2409, 0x2609, 0x2809, 0x2A09, 0xC1C0, 0xFE04, 0xFE06, 0x00FF] ++
  [0x0000, 0x0000, 0x0000, 0x0000, 0x0000, 0x0000]

/-- HALT (R305): the words 0x0264 to 0x0267. -/
def haltRoutine : List Word :=
  [0x5020, 0xB001, 0x0FFD, 0xFFFE]

/-- The reference image: the vectors and the 104 routine words, in address order (R306). -/
def referenceFirmware : List (Word × Word) :=
  vectorWords ++ placedAt 0x0200 getcRoutine ++ placedAt 0x0206 outRoutine ++ placedAt 0x020F putsRoutine ++
    placedAt 0x0228 inRoutine ++ placedAt 0x0236 putspRoutine ++ placedAt 0x0264 haltRoutine

/-- Conditions (a) and (b) of R298: only addresses in 0x0000 to 0x2FFF are written, and each of the six vectors is
written with an address in 0x0200 to 0x2FFF. Condition (c), what each routine does, is about runs: it is `meetsContracts`, and all
three together are `conformingFirmware` (Contracts.lean). -/
def firmwareConforms (fw : List (Word × Word)) : Bool :=
  fw.all (fun p => decide (p.1 ≤ 0x2FFF)) &&
    ([0x0020, 0x0021, 0x0022, 0x0023, 0x0024, 0x0025] : List Word).all (fun v =>
      fw.any (fun p => p.1 == v) && fw.all (fun p => p.1 != v || (decide (0x0200 ≤ p.2) && decide (p.2 ≤ 0x2FFF))))

/-- The parameters at the defaults of R7; `userStackTop` has no default and stays open. -/
def defaultConfig : Config where
  userStackTop := Config.openStackTop
  jmptSemantics := .refuse
  jsrrLinkFirst := true
  trapFirmware := referenceFirmware
  loaderBase := 0x0000
  traced := true

end Sys2Proof.Machine
end

