-- ==== Sys2Proof/Machine/Memory.lean ====
section
/-! DEFINITION. The backed word array `mem` (spec/20_memory.md R60, R61) as a list of byte cells in one canonical form.

The word at address `a` is held as two cells, its low byte at key `2 * a` and its high byte at `2 * a + 1`: the order of
the image loader's byte stream (R77, R80). No program sees these keys (log entry 1). -/

namespace Sys2Proof.Machine

abbrev Memory := List Host.Cell

/-- How many byte cells the array has: two for each of the words 0x0000 to 0xFDFF (R6, R61). -/
def memoryBytes : Nat := 0x1FC00

/-- What an unlisted cell reads as: memory is "reset to zero" (R43, R320). -/
def unlistedByte : Byte := 0

/-- Read one byte cell. -/
def Memory.readByte : Memory → Nat → Byte
  | [], _ => unlistedByte
  | (b, u) :: rest, k => if b = k then u else Memory.readByte rest k

/-- Put a byte in front of a list whose keys are greater, listing it only if it differs from an unlisted cell. -/
def Memory.consByte (k : Nat) (v : Byte) (m : Memory) : Memory :=
  if v = unlistedByte then m else (k, v) :: m

/-- Write one byte cell, keeping the canonical form. -/
def Memory.writeByte : Memory → Nat → Byte → Memory
  | [], k, v => Memory.consByte k v []
  | (b, u) :: rest, k, v =>
    if k < b then Memory.consByte k v ((b, u) :: rest)
    else if k = b then Memory.consByte k v rest
    else (b, u) :: Memory.writeByte rest k v

/-- The keys rise strictly from `lo`, lie in the array, and no byte equals an unlisted one. -/
def Memory.wfFrom (lo : Nat) : Memory → Bool
  | [] => true
  | (b, u) :: rest =>
    decide (lo ≤ b) && decide (b < memoryBytes) && decide (u ≠ unlistedByte) && Memory.wfFrom (b + 1) rest

/-- The canonical form: equal memories are equal lists. -/
def Memory.wf (m : Memory) : Bool := Memory.wfFrom 0 m

/-- Read the word at word address `a`: `{high byte, low byte}` (R60). -/
def Memory.readWord (m : Memory) (a : Nat) : Word := Memory.readByte m (2 * a + 1) ++ Memory.readByte m (2 * a)

/-- Write the word `v` at word address `a` (R60). -/
def Memory.writeWord (m : Memory) (a : Nat) (v : Word) : Memory :=
  Memory.writeByte (Memory.writeByte m (2 * a) (v.extractLsb' 0 8)) (2 * a + 1) (v.extractLsb' 8 8)

/-- Write a contiguous segment of words from word address `start`: the bulk write (R84). -/
def Memory.writeSegment (m : Memory) (start : Nat) : List Word → Memory
  | [] => m
  | w :: ws => Memory.writeSegment (Memory.writeWord m start w) (start + 1) ws

/-- Write (address, word) pairs in order: how initialisation installs the firmware (R321). DESIGN CHOICE: the parameter is a list
where R298 says a set, and where two pairs name one address the later one stands (log entry 34). -/
def Memory.writePairs (m : Memory) : List (Word × Word) → Memory
  | [] => m
  | (a, v) :: ps => Memory.writePairs (Memory.writeWord m a.toNat v) ps

end Sys2Proof.Machine
end

