-- ==== Sys2Proof/Machine/State.lean ====
section
/-! DEFINITION. The machine's state as plain data, its reset, and the reasons a step can stop
(spec/10_state.md, spec/50_execution_cycle.md R246, spec/70_reset_and_hazards.md R320). -/

namespace Sys2Proof.Machine

/-- The engine's run states (R35, R246). -/
inductive RunState where
  | uninitialized | running | halted | faulted | refused
deriving DecidableEq, Repr

/-- The fault record: the address of the faulting word, and the word (R39, R281). -/
structure FaultRecord where
  addr : Word
  word : Word
deriving DecidableEq, Repr

/-- One event of the trace port: the trace counter and the decoded instruction (R251). -/
structure TraceEvent where
  tc : Nat
  instr : Instr
deriving DecidableEq, Repr

/-- One transaction of the block with the host's device hooks, `DevRead(a) -> v` or `DevWrite(a, v)` (R240). -/
inductive PortEvent where
  | read (a v : Word)
  | write (a v : Word)
deriving DecidableEq, Repr

/-- The state. The first nine fields are the spec's own state record (spec/10_state.md); the others hold the parameters
the spec passes as arguments and the two output ports and two input ports of R240 (log entries 3, 6 and 10). -/
structure State where
  /-- R0 to R7 (R20). -/
  regs : Vector Word 8
  /-- The program counter, a word address (R23). -/
  pc : Word
  /-- The processor status word: PRIV [15], PL [10:8], N, Z, P [2:0]; bits 14:11 and 7:3 are stored as written (R24, R28). -/
  psr : Word
  /-- The backed words 0x0000 to 0xFDFF (R61). -/
  mem : Memory
  /-- The machine control register; bit 15 is the clock bit (R33, R34). -/
  mcr : Word
  /-- The engine's run state (R35). -/
  run : RunState
  /-- The display output log, oldest word first (R36). -/
  out : List Word
  /-- The trace counter (R37, R253). -/
  tc : Nat
  /-- The fault record, empty until a decode fault (R39). -/
  fault : Option FaultRecord
  /-- The parameters of R7 and R40; no step changes them. -/
  cfg : Config
  /-- Every event the trace port has emitted, oldest first (R251). -/
  trace : List TraceEvent
  /-- Every device transaction with the host, oldest first (R240). -/
  portLog : List PortEvent
  /-- Answers the host has ready for KBSR and KBDR reads, next first; when empty, an answer is a free value (R68, R69). -/
  kbdIn : List Word
  /-- The same for reads of DDR and of unnamed device addresses (R72, R75). -/
  devIn : List Word
  /-- How many host answers have been taken: what makes each free answer a fresh one. -/
  draws : Nat
deriving DecidableEq, Repr

/-- Why a transaction stops with a fault. No instruction raises one: the block's only exception, the decode fault, is a
next state whose run state is Faulted (R281). -/
inductive Fault where
  /-- A transaction asked of an engine that a decode fault has terminated: "Faulted | anything | Faulted (terminal)" (R246).
  Raised by `step` and the host's `run`, `run_with_observer`, `initialize` and `load`. Safe: the spec gives no transition. -/
  | terminated
deriving DecidableEq, Repr

/-- Why a transaction is refused. No instruction's meaning ends in one: JMPT under `refuse` is a next state whose run state
is Refused (R241). -/
inductive Refusal where
  /-- An instruction that has no meaning yet; raised by `exec`'s arms only. Safe. -/
  | notModelled (mnemonic : String)
  /-- `step`, `run`, `run_with_observer` or `stop` before `initialize` (R246, D16). Safe: the spec refuses it. -/
  | notInitialized
  /-- A transaction asked of an engine in the terminal state Refused (R246). Raised like `Fault.terminated`. Safe. -/
  | engineRefused
  /-- `load` of an image with an odd number of bytes (R83, D24). Safe: the spec refuses it. -/
  | oddImage
  /-- A bulk write, the firmware's included, that would reach 0xFE00 or beyond (R84, D24). Safe: the spec refuses it. -/
  | bulkWriteReachesWindow
  /-- `stop` when no loop is running (R246 gives that event from Running only). Raised by the host's `stop`. Safe. -/
  | notRunning
deriving DecidableEq, Repr

/-- The machine at creation (R43, R320): every register and memory word zero, the engine Uninitialized, the parameters at
their defaults, and nothing yet said on any port. -/
def State.reset : State where
  regs := Vector.replicate 8 0
  pc := 0
  psr := 0
  mem := []
  mcr := 0
  run := .uninitialized
  out := []
  tc := 0
  fault := none
  cfg := defaultConfig
  trace := []
  portLog := []
  kbdIn := []
  devIn := []
  draws := 0

end Sys2Proof.Machine
end

