-- ==== Sys2Proof/Machine/Flags.lean ====
section
/-! DEFINITION. The processor status word: its fields, the mutators that preserve the others, the flag computation and the
branch-condition resolver (spec/10_state.md R24 to R32, spec/41_control.md R160). -/

namespace Sys2Proof.Machine

/-! ## Field accessors (R24, R32) -/

/-- PSR[15]: `false` is supervisor, `true` is user (R25). -/
def psrPriv (psr : Word) : Bool := psr.getLsbD 15

/-- PSR[10:8], the priority level (R26). -/
def psrPl (psr : Word) : BitVec 3 := psr.extractLsb' 8 3

/-- PSR[2:0]: N in bit 2, Z in bit 1, P in bit 0 (R27). -/
def psrNzp (psr : Word) : BitVec 3 := psr.extractLsb' 0 3

def psrN (psr : Word) : Bool := psr.getLsbD 2
def psrZ (psr : Word) : Bool := psr.getLsbD 1
def psrP (psr : Word) : Bool := psr.getLsbD 0

/-! ## Field mutators: "preserve all other PSR bits" (R32) -/

def withPriv (psr : Word) (user : Bool) : Word := BitVec.ofBool user ++ psr.extractLsb' 0 15

def withPl (psr : Word) (pl : BitVec 3) : Word := psr.extractLsb' 11 5 ++ pl ++ psr.extractLsb' 0 8

def withNzp (psr : Word) (nzp : BitVec 3) : Word := psr.extractLsb' 3 13 ++ nzp

/-! ## Flags from a result word (R29) -/

/-- "negative → N, zero → Z, positive → P" (R29). -/
def flagsOf (v : Word) : BitVec 3 :=
  if v.getLsbD 15 then 0b100#3 else if v = 0 then 0b010#3 else 0b001#3

/-- `setcc(v)`: PSR[2:0] from the result, PSR[15:3] unchanged (R29). -/
def State.setcc (s : State) (v : Word) : State := { s with psr := withNzp s.psr (flagsOf v) }

/-- The machine is in user mode (R25, R290). -/
def State.userMode (s : State) : Bool := psrPriv s.psr

/-- `taken(nzp)`: any requested condition matches a set flag (R160). -/
def branchTaken (nzp : BitVec 3) (psr : Word) : Bool :=
  (nzp.getLsbD 2 && psrN psr) || (nzp.getLsbD 1 && psrZ psr) || (nzp.getLsbD 0 && psrP psr)

end Sys2Proof.Machine
end

