-- ==== Sys2Proof/Machine/Ops.lean ====
section
/-! DEFINITION. The named operations over registers, memory and devices, taking the decode fault, trap entry, and the
return from interrupt (spec/20_memory.md, spec/50_execution_cycle.md, spec/60_exceptions.md). -/

namespace Sys2Proof.Machine

/-! ## General registers (R20): "read and written as unsigned or signed 16-bit" -/

def State.reg (s : State) (r : RegIdx) : Word := s.regs[r.val]

def State.setReg (s : State) (r : RegIdx) (v : Word) : State := { s with regs := s.regs.set r.val v }

/-- The signed view of the same 16 bits. -/
def State.regSigned (s : State) (r : RegIdx) : Int := (s.reg r).toInt

/-- Write a signed number, as its two's-complement word. -/
def State.setRegSigned (s : State) (r : RegIdx) (v : Int) : State := s.setReg r (BitVec.ofInt 16 v)

/-- Write a result to DR and set the flags from it (R30). -/
def State.writeResult (s : State) (dr : RegIdx) (v : Word) : State := (s.setReg dr v).setcc v

/-- `pc <- target` (R10). -/
def State.jumpTo (s : State) (target : Word) : State := { s with pc := target }

/-! ## Device registers (R67) -/

def kbsrAddr : Word := 0xFE00
def kbdrAddr : Word := 0xFE02
def dsrAddr : Word := 0xFE04
def ddrAddr : Word := 0xFE06
def mcrAddr : Word := 0xFFFE

/-- The word DSR always reads: "ready" (R70, D12). -/
def dsrReady : Word := 0x8000

/-- The address is in the device window 0xFE00 to 0xFFFF (R61). -/
def inWindow (a : Word) : Bool := !decide (a < windowBase)

/-- The host answers `DevRead(a)` with `v`: the transaction is recorded and counted (R240). -/
def State.answered (s : State) (a v : Word) : State :=
  { s with portLog := s.portLog ++ [.read a v], draws := s.draws + 1 }

/-- A keyboard read: the host's next answer, or a free value (R68, R69, D13). -/
def readKeyboard (a : Word) (s : State) : Word × State :=
  match s.kbdIn with
  | v :: rest => (v, State.answered { s with kbdIn := rest } a v)
  | [] => (Config.kbdOracle s.draws a, s.answered a (Config.kbdOracle s.draws a))

/-- A read of DDR or of an unnamed device address: the host's next answer, or a free value (R72, R75, D14, D15). -/
def readOtherDevice (a : Word) (s : State) : Word × State :=
  match s.devIn with
  | v :: rest => (v, State.answered { s with devIn := rest } a v)
  | [] => (Config.devReadOracle s.draws a, s.answered a (Config.devReadOracle s.draws a))

/-- `DevRead(a)` (R67 to R75). -/
def devRead (a : Word) (s : State) : Word × State :=
  if a = kbsrAddr ∨ a = kbdrAddr then readKeyboard a s
  else if a = dsrAddr then (dsrReady, s)
  else if a = mcrAddr then (s.mcr, s)
  else readOtherDevice a s

/-- `DevWrite(a, v)`: MCR is stored, DDR is appended to `out`, and every write but MCR's goes to the host's write hook
(R71, R73, R74, R75, R240). -/
def devWrite (a v : Word) (s : State) : State :=
  if a = mcrAddr then { s with mcr := v }
  else if a = ddrAddr then { s with out := s.out ++ [v], portLog := s.portLog ++ [.write a v] }
  else { s with portLog := s.portLog ++ [.write a v] }

/-! ## The dispatch multiplexer (R64, R65) -/

/-- `MemRead(a, 1)` (R64): the word, and the state after the read. -/
def memRead (a : Word) (s : State) : Word × State :=
  if a < windowBase then (Memory.readWord s.mem a.toNat, s) else devRead a s

/-- `MemWrite(a, 1, v)` (R65). -/
def memWrite (a v : Word) (s : State) : State :=
  if a < windowBase then { s with mem := Memory.writeWord s.mem a.toNat v } else devWrite a v s

/-! ## The decode fault, a refusal, trap entry and the return from interrupt -/

/-- Taking the decode fault of the word `w` at address `a`: the record and the terminal run state; the fetch's pc increment
stands and nothing else changes (R281). -/
def takeDecodeFault (a w : Word) (s : State) : State :=
  { s with fault := some ⟨a, w⟩, run := .faulted }

/-- `refuse(reason)`: "sets the run state to Refused and leaves every other piece of state as the fetch left it" (R12, R241). -/
def refuseStep (s : State) : State := { s with run := .refused }

/-- `x[7] <- pc` (R170). -/
def State.link (s : State) : State := s.setReg 7 s.pc

/-- Trap entry: "x[7] <- pc; pc <- mem[zext_8(trapvect8)]" (R220, R287). -/
def enterTrap (vect : Word) (s : State) : State :=
  let r := memRead vect s.link
  r.2.jumpTo r.1

/-- Pop one word from the stack R6 points to: read it, then advance R6 by one word (R222). -/
def popWord (s : State) : Word × State :=
  let r := memRead (s.reg 6) s
  (r.1, r.2.setReg 6 (s.reg 6 + 1))

/-- The return from interrupt: pop pc, then the whole PSR, from the R6 stack (R222, D21). -/
def returnFromInterrupt (s : State) : State :=
  let p := popWord s
  let q := popWord (p.2.jumpTo p.1)
  { q.2 with psr := q.1 }

/-! ## The parts of a step around the operation (R241) -/

/-- The fetch: `w <- MemRead(pc, 1)`, then `pc <- a + 1`, modulo 2^16 (R241, R242). -/
def fetch (s : State) : Word × State :=
  let r := memRead s.pc s
  (r.1, r.2.jumpTo (s.pc + 1))

/-- `trace(tc, instr)`: under the traced executor each operation first emits its event. The reserved row invokes no
operation and emits none (R251, R281). -/
def emitTrace (i : Instr) (s : State) : State :=
  if s.cfg.traced && !i.isReserved then { s with trace := s.trace ++ [⟨s.tc, i⟩] } else s

/-- The clock bit, MCR[15] (R33). -/
def State.clockOn (s : State) : Bool := s.mcr.getLsbD 15

/-- "if MCR[15] = 0 and run = Running then run <- Halted" (R241). -/
def checkClock (s : State) : State :=
  if s.run = .running ∧ s.clockOn = false then { s with run := .halted } else s

/-- The end of a step: `tc <- tc + 1` and the clock check, unless the step ended in a fault or a refusal, after which
neither happens (R241, R253, R286). -/
def retire (s : State) : State :=
  match s.run with
  | .faulted => s
  | .refused => s
  | .uninitialized => checkClock { s with tc := s.tc + 1 }
  | .running => checkClock { s with tc := s.tc + 1 }
  | .halted => checkClock { s with tc := s.tc + 1 }

/-- A step is enabled in Running and in Halted (R248). -/
def State.enabled (s : State) : Bool := decide (s.run = .running) || decide (s.run = .halted)

end Sys2Proof.Machine
end

