-- ==== Sys2Proof/Machine/Operands.lean ====
section
/-! DEFINITION. The operand forms: sign- and zero-extended fields and the effective addresses
(spec/00_scope.md R9, spec/30_encoding.md R104 to R108, spec/42_load_store.md R190). Every sum wraps modulo 2^16 (R90). -/

namespace Sys2Proof.Machine

/-- `sext_N(v)`: the low N bits of `v`, widened to 16 bits by copying bit N-1 (R9). -/
def sext (n : Nat) (v : Int) : Word := (BitVec.ofInt n v).signExtend 16

/-- imm5 (R104). -/
def imm5 (v : Int) : Word := sext 5 v

/-- offset6 (R105). -/
def offset6 (v : Int) : Word := sext 6 v

/-- PCoffset9 (R106). -/
def pcOffset9 (v : Int) : Word := sext 9 v

/-- PCoffset11 (R107). -/
def pcOffset11 (v : Int) : Word := sext 11 v

/-- trapvect8: zero-extended (R108). -/
def trapVector (v : Nat) : Word := (BitVec.ofNat 8 v).setWidth 16

/-- PC-relative: `pc + sext_9(w[8:0])`, `pc` being the address of the instruction plus one (R13, R190). -/
def eaPcRelative (off : Int) (s : State) : Word := s.pc + pcOffset9 off

/-- Indirect: the word read at the PC-relative address, and the state after that read (R190). -/
def eaIndirect (off : Int) (s : State) : Word × State := memRead (eaPcRelative off s) s

/-- Base+offset: `x[BaseR] + sext_6(w[5:0])` (R190). -/
def eaBaseOffset (base : RegIdx) (off : Int) (s : State) : Word := s.reg base + offset6 off

end Sys2Proof.Machine
end

