-- ==== Sys2Proof/Machine/Control.lean ====
section
/-! DEFINITION. Control transfer (spec/41_control.md). `pc` already holds the address of the instruction plus one (R13). -/

namespace Sys2Proof.Machine

/-- BR (R161). -/
def execBr (nzp : BitVec 3) (off : Int) (s : State) : Host.Outcome State Fault Refusal :=
  .next (if branchTaken nzp s.psr then s.jumpTo (s.pc + pcOffset9 off) else s)

/-- NOP: "The step's pc increment is the only effect", whatever its offset (R162). -/
def execNop (_off : Int) (s : State) : Host.Outcome State Fault Refusal := .next s

/-- JMP (R163). -/
def execJmp (base : RegIdx) (s : State) : Host.Outcome State Fault Refusal :=
  .next (s.jumpTo (s.reg base))

/-- RET (R164). -/
def execRet (s : State) : Host.Outcome State Fault Refusal :=
  .next (s.jumpTo (s.reg 7))

/-- JMPT under each value of `jmptSemantics` (R166). -/
def execJmpt (base : RegIdx) (s : State) : Host.Outcome State Fault Refusal :=
  match s.cfg.jmptSemantics with
  | .refuse => .next (refuseStep s)
  | .jump => .next (s.jumpTo (s.reg base))
  | .jumpToUser =>
    .next (if s.userMode then s else { s.jumpTo (s.reg base) with psr := withPriv s.psr true })

/-- JSR (R167). -/
def execJsr (off : Int) (s : State) : Host.Outcome State Fault Refusal :=
  .next (s.link.jumpTo (s.pc + pcOffset11 off))

/-- JSRR under each value of `jsrrLinkFirst` (R168). -/
def execJsrr (base : RegIdx) (s : State) : Host.Outcome State Fault Refusal :=
  .next (if s.cfg.jsrrLinkFirst then s.link.jumpTo (s.link.reg base) else s.link.jumpTo (s.reg base))

end Sys2Proof.Machine
end

