-- ==== Sys2Proof/Machine/LoadStore.lean ====
section
/-! DEFINITION. Loads, stores and LEA (spec/42_load_store.md). Every access goes through the multiplexer. -/

namespace Sys2Proof.Machine

/-- Load the word at `a` into DR and set the flags from it. -/
def loadInto (dr : RegIdx) (a : Word) (s : State) : State :=
  let r := memRead a s
  r.2.writeResult dr r.1

/-- LD (R192). -/
def execLd (dr : RegIdx) (off : Int) (s : State) : Host.Outcome State Fault Refusal :=
  .next (loadInto dr (eaPcRelative off s) s)

/-- LDI: the pointer is read first, then the data (R193). -/
def execLdi (dr : RegIdx) (off : Int) (s : State) : Host.Outcome State Fault Refusal :=
  let p := eaIndirect off s
  .next (loadInto dr p.1 p.2)

/-- LDR (R194). -/
def execLdr (dr base : RegIdx) (off : Int) (s : State) : Host.Outcome State Fault Refusal :=
  .next (loadInto dr (eaBaseOffset base off s) s)

/-- LEA: the address itself, with no memory access (R196). -/
def execLea (dr : RegIdx) (off : Int) (s : State) : Host.Outcome State Fault Refusal :=
  .next (s.writeResult dr (eaPcRelative off s))

/-- ST (R197). -/
def execSt (sr : RegIdx) (off : Int) (s : State) : Host.Outcome State Fault Refusal :=
  .next (memWrite (eaPcRelative off s) (s.reg sr) s)

/-- STI: the pointer is read first (R198). -/
def execSti (sr : RegIdx) (off : Int) (s : State) : Host.Outcome State Fault Refusal :=
  let p := eaIndirect off s
  .next (memWrite p.1 (s.reg sr) p.2)

/-- STR (R199). -/
def execStr (sr base : RegIdx) (off : Int) (s : State) : Host.Outcome State Fault Refusal :=
  .next (memWrite (eaBaseOffset base off s) (s.reg sr) s)

end Sys2Proof.Machine
end

