-- ==== Sys2Proof/Machine/System.lean ====
section
/-! DEFINITION. TRAP, RTI and the reserved opcode (spec/43_system.md). -/

namespace Sys2Proof.Machine

/-- TRAP (R220). -/
def execTrap (vect : Nat) (s : State) : Host.Outcome State Fault Refusal :=
  .next (enterTrap (trapVector vect) s)

/-- RTI: the pops in supervisor mode (R222), nothing in user mode (R223). -/
def execRti (s : State) : Host.Outcome State Fault Refusal :=
  .next (if s.userMode then s else returnFromInterrupt s)

/-- The reserved family: `raise DecodeFault(address of the word, w)`, the address being `pc - 1` after the fetch (R224). -/
def execReserved (low : BitVec 12) (s : State) : Host.Outcome State Fault Refusal :=
  .next (takeDecodeFault (s.pc - 1) (encode (.reserved low)) s)

end Sys2Proof.Machine
end

