-- ==== Sys2Proof/Machine/Cycle.lean ====
section
/-! DEFINITION. The fetch-decode-execute cycle (spec/50_execution_cycle.md R241), and where an instruction word is placed
so that the next step runs it. -/

namespace Sys2Proof.Machine

/-- What follows the operation: the end of the step, when the operation gave a next state. -/
def retireOutcome : Host.Outcome State Fault Refusal → Host.Outcome State Fault Refusal
  | .next s => .next (retire s)
  | .fault f => .fault f
  | .refused r => .refused r

/-- One cycle: fetch, increment, decode, then the decode fault or the trace event, the operation and the end of the step. -/
def cycle (s : State) : Host.Outcome State Fault Refusal :=
  let f := fetch s
  match decode f.1 with
  | .error _ => .next (takeDecodeFault s.pc f.1 f.2)
  | .ok i => retireOutcome (exec i (emitTrace i f.2))

/-- The engine as it stands where a step is enabled: unchanged if one is, else with the two things by which initialisation
starts it, the Running state and the clock bit (R246, R321). -/
def startEngine (s : State) : State :=
  if s.enabled then s else { s with run := .running, mcr := s.mcr ||| 0x8000 }

/-- Store an instruction word where the next fetch reads. A pc in the device window fetches no stored word, so it moves to
the start of the user region (R62, R242). -/
def placeAtPc (w : Word) (s : State) : State :=
  if s.pc < windowBase then { s with mem := Memory.writeWord s.mem s.pc.toNat w }
  else { s with pc := 0x3000, mem := Memory.writeWord s.mem 0x3000 w }

end Sys2Proof.Machine
end

