-- ==== Sys2Proof/Machine/Step.lean ====
section
/-! DEFINITION. One step (spec/50_execution_cycle.md R241, R246, R248). -/

namespace Sys2Proof.Machine

/-- `step()`: enabled in Running and Halted, whatever the clock bit holds; refused in Uninitialized, and with no transition
in the two terminal states (R246, R248). -/
def step (s : State) : Host.Outcome State Fault Refusal :=
  match s.run with
  | .uninitialized => .refused .notInitialized
  | .faulted => .fault .terminated
  | .refused => .refused .engineRefused
  | .running => cycle s
  | .halted => cycle s

/-- `s` with the instruction word `w` where the next fetch reads it, and the engine enabled (log entry 2). -/
def State.withFetchWord (s : State) (nbits w : Nat) : State :=
  placeAtPc (BitVec.ofNat 16 (w % 2 ^ nbits)) (startEngine s)

end Sys2Proof.Machine
end

