-- ==== Sys2Proof/Machine/HostPort.lean ====
section
/-! DEFINITION. The host's transactions with the block: load, initialize, run, run_with_observer and stop
(spec/20_memory.md R80 to R84, spec/50_execution_cycle.md R240, R246 to R252, spec/70_reset_and_hazards.md R321).

`step()` is `step`. Each transaction happens between steps (R245). -/

namespace Sys2Proof.Machine

/-! ## Loading (R80 to R84) -/

/-- "little-endian pairs forming 16-bit words": the first byte of each pair is bits 7:0 (R80). -/
def imageWords : List Byte → List Word
  | lo :: hi :: rest => (hi ++ lo) :: imageWords rest
  | [_] => []
  | [] => []

/-- How many words from `base` up lie below the device window (R81). -/
def roomAbove (base : Word) : Nat := 0xFE00 - base.toNat

/-- The bulk write: a segment of words from `start`, refused if it would reach 0xFE00 (R84). -/
def bulkWrite (start : Word) (ws : List Word) (s : State) : Host.Outcome State Fault Refusal :=
  if ws.length ≤ roomAbove start then .next { s with mem := Memory.writeSegment s.mem start.toNat ws }
  else .refused .bulkWriteReachesWindow

/-- The image loader's write: the words that fit, and whether the write was short (R80, R81, R83). -/
def loadWords (base : Word) (bytes : List Byte) (s : State) : Host.Outcome (State × Bool) Fault Refusal :=
  if bytes.length % 2 = 1 then .refused .oddImage
  else
    .next ({ s with mem := Memory.writeSegment s.mem base.toNat ((imageWords bytes).take (roomAbove base)) },
      decide (roomAbove base < (imageWords bytes).length))

/-- `load(base, bytes)`: before `initialize()` or between steps (R240, R256); not in a terminal state (R246, log entry 24). -/
def load (base : Word) (bytes : List Byte) (s : State) : Host.Outcome (State × Bool) Fault Refusal :=
  match s.run with
  | .uninitialized => loadWords base bytes s
  | .running => loadWords base bytes s
  | .halted => loadWords base bytes s
  | .faulted => .fault .terminated
  | .refused => .refused .engineRefused

/-- `load` at the parameter `loaderBase` (R82). -/
def loadImage (bytes : List Byte) (s : State) : Host.Outcome (State × Bool) Fault Refusal :=
  load s.cfg.loaderBase bytes s

/-! ## Initialisation (R321) -/

/-- The register-file reset: "zeroes every register, PC, and PSR" (R321). -/
def registerFileReset (s : State) : State :=
  { s with regs := Vector.replicate 8 0, pc := 0, psr := 0 }

/-- Every firmware pair lies below the device window, as the bulk write that installs it needs (R84, R321). -/
def firmwareFits (fw : List (Word × Word)) : Bool := fw.all (fun p => decide (p.1 < windowBase))

/-- The state that `initialize()` leaves (R321, R322). -/
def initialized (s : State) : State :=
  let z := registerFileReset s
  { z.setReg 6 s.cfg.userStackTop.toWord with
    mem := Memory.writePairs s.mem s.cfg.trapFirmware
    pc := 0x3000
    mcr := s.mcr ||| 0x8000
    run := .running }

/-- Initialisation with the parameters' firmware; a firmware that reaches the window is refused as a bulk write (R84). -/
def installAndStart (s : State) : Host.Outcome State Fault Refusal :=
  if firmwareFits s.cfg.trapFirmware then .next (initialized s) else .refused .bulkWriteReachesWindow

/-- `initialize()`: enabled in Uninitialized, Running and Halted (R246, R321). -/
def initializeEngine (s : State) : Host.Outcome State Fault Refusal :=
  match s.run with
  | .uninitialized => installAndStart s
  | .running => installAndStart s
  | .halted => installAndStart s
  | .faulted => .fault .terminated
  | .refused => .refused .engineRefused

/-! ## The run loop (R249, R250) -/

/-- "while run = Running and MCR[15] = 1 and the host has not stopped: step()". The host stops, between steps, after `n`
steps (R249, R250). -/
def stepWhileClocked : Nat → State → Host.Outcome State Fault Refusal
  | 0, s => .next s
  | n + 1, s =>
    if s.run = .running ∧ s.clockOn = true then
      match step s with
      | .next t => stepWhileClocked n t
      | .fault f => .fault f
      | .refused r => .refused r
    else .next s

/-- "if run = Halted and MCR[15] = 1 then run <- Running" (R249, D17). -/
def resumeIfClocked (s : State) : State :=
  if s.run = .halted ∧ s.clockOn = true then { s with run := .running } else s

/-- Running becomes Halted: the host abandons the loop, or the clock was already clear (R249, R250). -/
def haltIfRunning (s : State) : State :=
  if s.run = .running then { s with run := .halted } else s

/-- The loop of `run()` from an enabled engine, with its entry and its exit. -/
def runLoop (n : Nat) (s : State) : Host.Outcome State Fault Refusal :=
  match stepWhileClocked n (resumeIfClocked s) with
  | .next t => .next (haltIfRunning t)
  | .fault f => .fault f
  | .refused r => .refused r

/-- `run()`, the host stopping the loop after at most `n` steps (R246, R249). -/
def hostRun (n : Nat) (s : State) : Host.Outcome State Fault Refusal :=
  match s.run with
  | .uninitialized => .refused .notInitialized
  | .running => runLoop n s
  | .halted => runLoop n s
  | .faulted => .fault .terminated
  | .refused => .refused .engineRefused

/-- `stop`: the host abandons a running loop between steps; only the run state changes (R246, R250). -/
def hostStop (s : State) : Host.Outcome State Fault Refusal :=
  match s.run with
  | .running => .next { s with run := .halted }
  | .uninitialized => .refused .notInitialized
  | .halted => .refused .notRunning
  | .faulted => .fault .terminated
  | .refused => .refused .engineRefused

/-! ## The observer (R252) -/

/-- What an observed run gives: the state, how often the callback was called, and whether the loop ended. -/
structure Observed where
  state : State
  calls : Nat
  ended : Bool
deriving DecidableEq, Repr

/-- The loop of `run_with_observer(cb)`: callback, stop request, continue check, step, in that order (R252, D25). `cb k s`
is the answer of the `k`-th call, `true` asking for a stop; `n` bounds the calls. -/
def observeLoop (cb : Nat → State → Bool) : Nat → Nat → State → Host.Outcome Observed Fault Refusal
  | 0, k, s => .next ⟨s, k, false⟩
  | n + 1, k, s =>
    if cb k s = true then .next ⟨haltIfRunning s, k + 1, true⟩
    else if s.run = .running ∧ s.clockOn = true then
      match step s with
      | .next t => observeLoop cb n (k + 1) t
      | .fault f => .fault f
      | .refused r => .refused r
    else .next ⟨s, k + 1, true⟩

/-- `run_with_observer(cb)`, with at most `n` calls of the callback. R252 speaks of the loop "under tracing". DESIGN CHOICE: it
is enabled under the plain executor too, where the same loop runs and no trace event is emitted (log entry 31). -/
def runWithObserver (cb : Nat → State → Bool) (n : Nat) (s : State) : Host.Outcome Observed Fault Refusal :=
  match s.run with
  | .uninitialized => .refused .notInitialized
  | .running => observeLoop cb n 0 (resumeIfClocked s)
  | .halted => observeLoop cb n 0 (resumeIfClocked s)
  | .faulted => .fault .terminated
  | .refused => .refused .engineRefused

end Sys2Proof.Machine
end

