-- ==== Sys2Proof/Machine/Contracts.lean ====
section
/-! DEFINITION. What the trap routines must do: condition (c) of R298, the contracts of R300 to R305, and what each routine
of the reference firmware leaves (spec/60_exceptions.md R298 to R307). What a contract asks of a firmware other than the
reference one is the model's reading (log entries 33 and 35). -/

namespace Sys2Proof.Machine

/-! ## A call of a routine -/

/-- The word that a firmware puts at an address, if it puts one there. DESIGN CHOICE: R298 speaks of a set of pairs and not of
two pairs with one address; there the later pair of the list stands (log entry 34). -/
def installedWord : List (Word × Word) → Word → Option Word
  | [], _ => none
  | (b, v) :: ps, a =>
    match installedWord ps a with
    | some w => some w
    | none => if b = a then some v else none

/-- The firmware stands in memory as initialisation left it, but for its own scratch words (R306). -/
def intact (fw : List (Word × Word)) (scratch : List Word) (s : State) : Prop :=
  ∀ a w, installedWord fw a = some w → a ∉ scratch → Memory.readWord s.mem a.toNat = w

/-- A running engine that a TRAP has just brought to the routine of the vector: pc is the vector's word (R287). -/
def atService (fw : List (Word × Word)) (scratch : List Word) (vect : Nat) (s : State) : Prop :=
  Memory.wf s.mem = true ∧ s.run = .running ∧ s.clockOn = true ∧ intact fw scratch s ∧ s.pc = Memory.readWord s.mem vect

/-- Every word of memory but the scratch words is as it was. -/
def keepsMemory (scratch : List Word) (s t : State) : Prop :=
  ∀ a : Word, a ∉ scratch → Memory.readWord t.mem a.toNat = Memory.readWord s.mem a.toNat

/-- The run loop brings the running engine `s` to the running engine `t`. DESIGN CHOICE: the contracts of R300 to R305 do not say
what memory a routine may change; here a routine changes its scratch words only, so the program's memory and the firmware's own
words stand (log entry 35). -/
def runsTo (scratch : List Word) (s t : State) : Prop :=
  (∃ n, stepWhileClocked n s = .next t) ∧ t.run = .running ∧ t.clockOn = true ∧ keepsMemory scratch s t

/-- The run loop takes the engine from `s` back to the caller, at the address in R7 (R288). -/
def returnsTo (scratch : List Word) (s t : State) : Prop := runsTo scratch s t ∧ t.pc = s.reg 7

/-! ## What a routine reads and shows -/

/-- Reading the addresses in turn through the multiplexer (R64) gives the words beside them, and leaves `u`. -/
def readsGive : List (Word × Word) → State → State → Prop
  | [], s, u => u = s
  | (a, w) :: ps, s, u => (memRead a s).1 = w ∧ readsGive ps (memRead a s).2 u

/-- The device transaction of a read, if it is one: memory, DSR and MCR are answered inside the block (R64, R70, R73, R240). -/
def readEvents (a w : Word) : List PortEvent :=
  if a < windowBase ∨ a = dsrAddr ∨ a = mcrAddr then [] else [.read a w]

/-- The device transactions of the words that stand from `a` up, each read and then shown as `bytes` says. -/
def stringEvents (bytes : Word → List Word) (a : Word) (ws : List Word) : List PortEvent :=
  (placedAt a ws).flatMap fun p => readEvents p.1 p.2 ++ (bytes p.2).map (.write ddrAddr)

/-- The keyboard's answers: KBSR words with bit 15 clear, one with it set, then the key's word. -/
def keyAnswers (polls : List Word) (ready key : Word) : List (Word × Word) :=
  polls.map (kbsrAddr, ·) ++ [(kbsrAddr, ready), (kbdrAddr, key)]

/-- The reads that take a key: KBSR until bit 15 is set, then KBDR (R300). -/
def keyReads (polls : List Word) (ready key : Word) : List PortEvent :=
  polls.map (.read kbsrAddr) ++ [.read kbsrAddr ready, .read kbdrAddr key]

/-- From `s` on, the keyboard is not ready at the polls, then ready, and gives the key, which leaves `u`. -/
def keyComes (polls : List Word) (ready key : Word) (s u : State) : Prop :=
  (∀ w ∈ polls, w.getLsbD 15 = false) ∧ ready.getLsbD 15 = true ∧ readsGive (keyAnswers polls ready key) s u

/-- A word that is shown as one character: masked to 8 bits, nothing for the terminator (R302). -/
def charBytes (w : Word) : List Word := if w = 0 then [] else [w &&& 0x00FF]

/-- A word that is shown as two: its low byte, then its high byte, up to a zero byte (R304). -/
def packedBytes (w : Word) : List Word :=
  if w &&& 0x00FF = 0 then [] else if w >>> 8 = 0 then [w &&& 0x00FF] else [w &&& 0x00FF, w >>> 8]

/-- The words that end a string of characters (R302). -/
def endsChars (w : Word) : Prop := w = 0

/-- The words that end a packed string: "A zero byte ends the string" (R304). -/
def endsPacked (w : Word) : Prop := w &&& 0x00FF = 0 ∨ w >>> 8 = 0

/-- The string from the address in R0 up, whatever that address is: words that do not end it, then one that does. Each is what
a read of its address gives, addresses wrapping (R90), and reading them all leaves `u` (R302, R304). -/
def stringAtR0 (ends : Word → Prop) (ws : List Word) (last : Word) (s u : State) : Prop :=
  (∀ w ∈ ws, ¬ ends w) ∧ ends last ∧ readsGive (placedAt (s.reg 0) (ws ++ [last])) s u

/-- `emitted` was shown, and `es` are the device transactions that took place. -/
def displayed (es : List PortEvent) (emitted : List Word) (s t : State) : Prop :=
  t.out = s.out ++ emitted ∧ t.portLog = s.portLog ++ es

/-- The host's answers stand as in `u`. -/
def sameAnswers (u t : State) : Prop := t.kbdIn = u.kbdIn ∧ t.devIn = u.devIn ∧ t.draws = u.draws

/-! ## The contracts -/

/-- GETC: "wait until KBSR[15] = 1, then read KBDR into R0" (R300). -/
def getcContract (fw : List (Word × Word)) (scratch : List Word) : Prop :=
  ∀ s u polls ready key, atService fw scratch 0x20 s → keyComes polls ready key s u →
    ∃ t, returnsTo scratch s t ∧ t.reg 0 = key ∧ sameAnswers u t ∧ displayed (keyReads polls ready key) [] s t

/-- OUT: "wait until DSR[15] = 1, then write R0 to DDR" (R301). -/
def outContract (fw : List (Word × Word)) (scratch : List Word) : Prop :=
  ∀ s, atService fw scratch 0x21 s →
    ∃ t, returnsTo scratch s t ∧ sameAnswers s t ∧ displayed [.write ddrAddr (s.reg 0)] [s.reg 0] s t

/-- A routine that shows the string at R0, wherever it is. `reading s ws x` says that the call from `s` has shown the words `ws`
and stands, in the state `x` of its run, before the read of the next word. That word is what a read in `x` gives: in a scratch
word, what the routine has really put there (R306, log entry 33), anywhere else, what stood there at the call. A word that ends
the string is followed by the return, any other by the next read, however long the string is. -/
def stringContract (ends : Word → Prop) (bytes : Word → List Word) (vect : Nat) (fw : List (Word × Word))
    (scratch : List Word) : Prop :=
  ∃ reading : State → List Word → State → Prop,
    (∀ s, atService fw scratch vect s → ∃ x, reading s [] x ∧ sameAnswers s x) ∧
    ∀ s ws x, reading s ws x →
      runsTo scratch s x ∧ displayed (stringEvents bytes (s.reg 0) ws) (ws.flatMap bytes) s x ∧
      let r := memRead (s.reg 0 + BitVec.ofNat 16 ws.length) x
      (ends r.1 → ∃ t, returnsTo scratch s t ∧ sameAnswers r.2 t ∧
        displayed (stringEvents bytes (s.reg 0) (ws ++ [r.1])) ((ws ++ [r.1]).flatMap bytes) s t) ∧
      (¬ ends r.1 → ∃ y, reading s (ws ++ [r.1]) y ∧ sameAnswers r.2 y)

/-- PUTS: every word of the string at R0 up to a zero word, masked to 8 bits (R302). -/
def putsContract : List (Word × Word) → List Word → Prop := stringContract endsChars charBytes 0x22

/-- IN: "wait for a key, read it into R0, and write it to the display (echo)" (R303). -/
def inContract (fw : List (Word × Word)) (scratch : List Word) : Prop :=
  ∀ s u polls ready key, atService fw scratch 0x23 s → keyComes polls ready key s u →
    ∃ t, returnsTo scratch s t ∧ t.reg 0 = key ∧ sameAnswers u t ∧
      displayed (keyReads polls ready key ++ [.write ddrAddr key]) [key] s t

/-- PUTSP: the bytes of the packed string at R0, low byte first, up to a zero byte (R304). -/
def putspContract : List (Word × Word) → List Word → Prop := stringContract endsPacked packedBytes 0x24

/-- The address of a device transaction. -/
def PortEvent.addr : PortEvent → Word
  | .read a _ => a
  | .write a _ => a

/-- HALT: "clear MCR[15], which stops the run loop" (R305), using only the named device registers (R298). -/
def haltContract (fw : List (Word × Word)) (scratch : List Word) : Prop :=
  ∀ s, atService fw scratch 0x25 s →
    ∃ n t es, stepWhileClocked n s = .next t ∧ t.clockOn = false ∧ t.run = .halted ∧ keepsMemory scratch s t ∧
      t.portLog = s.portLog ++ es ∧ ∀ e ∈ es, e.addr ∈ [kbsrAddr, kbdrAddr, dsrAddr, ddrAddr]

/-- Condition (c) of R298: with scratch words in its own image, above the vectors, the firmware meets the six contracts. That the
scratch words are words the firmware installs is R306's "save words inside the firmware region" (log entry 33). -/
def meetsContracts (fw : List (Word × Word)) : Prop :=
  ∃ scratch : List Word, (∀ a ∈ scratch, 0x0200 ≤ a ∧ a ≤ 0x2FFF ∧ (installedWord fw a).isSome = true) ∧
    getcContract fw scratch ∧ outContract fw scratch ∧ putsContract fw scratch ∧
    inContract fw scratch ∧ putspContract fw scratch ∧ haltContract fw scratch

/-- A conforming `trapFirmware`: "must meet three conditions" (R298). -/
def conformingFirmware (fw : List (Word × Word)) : Prop := firmwareConforms fw = true ∧ meetsContracts fw

/-! ## What the reference routines leave (R306, R307) -/

/-- The save words of the reference firmware: OSAV1, PSAV0 to PSAV3, ISAV1, QSAV0 to QSAV5 (R306). -/
def saveWords : List Word :=
  [0x020E, 0x0224, 0x0225, 0x0226, 0x0227, 0x0235, 0x025E, 0x025F, 0x0260, 0x0261, 0x0262, 0x0263]

/-- What OUT saves: R1 in OSAV1 (R301). -/
def outSaves (s : State) : List (Word × Word) := [(0x020E, s.reg 1)]

/-- What PUTS saves: R0 to R3 in PSAV0 to PSAV3 (R302). -/
def putsSaves (s : State) : List (Word × Word) :=
  [(0x0224, s.reg 0), (0x0225, s.reg 1), (0x0226, s.reg 2), (0x0227, s.reg 3)]

/-- What IN saves: R1 in ISAV1 (R303). -/
def inSaves (s : State) : List (Word × Word) := [(0x0235, s.reg 1)]

/-- What PUTSP saves: R0 to R5 in QSAV0 to QSAV5 (R304). -/
def putspSaves (s : State) : List (Word × Word) :=
  [(0x025E, s.reg 0), (0x025F, s.reg 1), (0x0260, s.reg 2), (0x0261, s.reg 3), (0x0262, s.reg 4), (0x0263, s.reg 5)]

/-- The state with the save words written: what a routine reads its string from (R306). -/
def withSaves (saves : List (Word × Word)) (s : State) : State := { s with mem := Memory.writePairs s.mem saves }

/-- R0 is `r0`, every other register is unchanged, the flags are those of `cc` and PSR[15:3] is unchanged, the parameters
are unchanged, memory holds the saved registers, and every word of it but the save words is as before (R306, R307). -/
def leaves (r0 cc : Word) (saves : List (Word × Word)) (s t : State) : Prop :=
  t.reg 0 = r0 ∧ (∀ r, r ≠ 0 → t.reg r = s.reg r) ∧ t.psr = withNzp s.psr (flagsOf cc) ∧ t.cfg = s.cfg ∧
    t.mem = Memory.writePairs s.mem saves ∧
    ∀ a : Word, a ∉ saveWords → Memory.readWord t.mem a.toNat = Memory.readWord s.mem a.toNat

/-- A call of a reference routine: `n` steps after the TRAP it is back at the caller with `r0` in R0, the flags of `cc`, the
registers of `saves` saved, the device transactions done, the host's answers as in `u`, and MCR unchanged. -/
def referenceCall (n : Nat) (r0 cc : Word) (saves : List (Word × Word)) (es : List PortEvent) (emitted : List Word)
    (u s t : State) : Prop :=
  stepWhileClocked n s = .next t ∧ t.pc = s.reg 7 ∧ leaves r0 cc saves s t ∧ displayed es emitted s t ∧ sameAnswers u t ∧
    t.mcr = s.mcr ∧ t.run = .running ∧ t.tc = s.tc + n

end Sys2Proof.Machine
end

