-- ==== Sys2Proof/Safety.lean ====
section
/-! DEFINITION. What claims are stated in: how a run ends, what is observed of it, the machine's invariant, and which
pieces of state two states share (spec/50_execution_cycle.md R255). -/

namespace Sys2Proof.Machine

/-! ## The end of a run (R255) -/

/-- How a run ends: "(a) … a normal end", "(b) … a fault", "(c) … Refused", "(d) … unfinished" (R255). -/
inductive RunEnd where
  | normal | fault | refused | unfinished
deriving DecidableEq, Repr

/-- How the run that reached `s` ended, read from `s` alone. A Halted state with the clock bit set was stopped by the host (R246,
R255). DESIGN CHOICE: a run that the host stopped and then went on with, by `run` or by single steps, until MCR[15] was clear
counts as a normal end (log entry 32). -/
def runEnd (s : State) : RunEnd :=
  match s.run with
  | .halted => if s.clockOn then .unfinished else .normal
  | .faulted => .fault
  | .refused => .refused
  | .running => .unfinished
  | .uninitialized => .unfinished

/-- "The observation of a normally ended run": `out`, the registers, the PSR, `mem` and `MCR` (R255). -/
structure Observation where
  out : List Word
  regs : Vector Word 8
  pc : Word
  psr : Word
  mem : Memory
  mcr : Word
deriving DecidableEq, Repr

def observe (s : State) : Observation := ⟨s.out, s.regs, s.pc, s.psr, s.mem, s.mcr⟩

/-- The engine is alive: a step is enabled, so it is neither stopped by a fault nor by a refusal. -/
abbrev State.alive (s : State) : Prop := s.enabled = true

/-! ## The invariant -/

/-- What holds of every machine the host can reach: the memory keeps its canonical form, a fault record stands exactly in
Faulted (R39, R281), and the clock bit is set while the engine runs (R241, R321). -/
structure State.Inv (s : State) : Prop where
  mem_wf : Memory.wf s.mem = true
  fault_iff : s.fault.isSome = true ↔ s.run = .faulted
  clocked : s.run = .running → s.clockOn = true

/-! ## Frames: which pieces of state are unchanged -/

/-- Every byte of memory reads as before. -/
def sameMemory (s t : State) : Prop := ∀ k, Memory.readByte t.mem k = Memory.readByte s.mem k

/-- Every byte of memory but the two of the word at `a` reads as before. -/
def sameMemoryExcept (a : Word) (s t : State) : Prop :=
  ∀ k, k ≠ 2 * a.toNat → k ≠ 2 * a.toNat + 1 → Memory.readByte t.mem k = Memory.readByte s.mem k

/-- Every general register but those of the list is unchanged. -/
def sameRegsExcept (rs : List RegIdx) (s t : State) : Prop := ∀ r, r ∉ rs → t.reg r = s.reg r

/-- PSR[15:3] is unchanged: the mode, the priority level and the unnamed bits. -/
def samePsrAboveFlags (s t : State) : Prop := ∀ n, 3 ≤ n → t.psr.getLsbD n = s.psr.getLsbD n

/-- The engine's own registers outside the register file are unchanged: MCR, the run state, the fault record, the trace
counter and the parameters. -/
def sameControl (s t : State) : Prop :=
  t.mcr = s.mcr ∧ t.run = s.run ∧ t.fault = s.fault ∧ t.tc = s.tc ∧ t.cfg = s.cfg

/-- Nothing happened at the ports: no output, no trace event, no device transaction, no host answer taken. -/
def samePorts (s t : State) : Prop :=
  t.out = s.out ∧ t.trace = s.trace ∧ t.portLog = s.portLog ∧ t.kbdIn = s.kbdIn ∧ t.devIn = s.devIn ∧ t.draws = s.draws

/-- The instruction touched registers, pc and PSR only. -/
def sameOutside (s t : State) : Prop := sameMemory s t ∧ sameControl s t ∧ samePorts s t

/-- Only pc, if anything, differs. -/
def onlyPcMoves (s t : State) : Prop := (∀ r, t.reg r = s.reg r) ∧ t.psr = s.psr ∧ sameOutside s t

/-- `v` is the result: it is in DR, the flags are those of `v`, and nothing else changed, pc included. -/
def resultWritten (dr : RegIdx) (v : Word) (s t : State) : Prop :=
  t.reg dr = v ∧ psrNzp t.psr = flagsOf v ∧
    sameRegsExcept [dr] s t ∧ samePsrAboveFlags s t ∧ t.pc = s.pc ∧ sameOutside s t

/-- The host's answers and the record of device transactions stand as in `u`. -/
def devicePortsOf (u t : State) : Prop :=
  t.portLog = u.portLog ∧ t.kbdIn = u.kbdIn ∧ t.devIn = u.devIn ∧ t.draws = u.draws

/-- `v` was loaded: it is in DR, the flags are those of `v`, the device ports stand as the reads left them in `u`, and
nothing else changed. -/
def resultLoaded (dr : RegIdx) (v : Word) (u s t : State) : Prop :=
  t.reg dr = v ∧ psrNzp t.psr = flagsOf v ∧
    sameRegsExcept [dr] s t ∧ samePsrAboveFlags s t ∧ t.pc = s.pc ∧
    sameMemory s t ∧ sameControl s t ∧ t.out = s.out ∧ t.trace = s.trace ∧ devicePortsOf u t

/-- `v` was stored at `a`. Below the window the word reads back and no byte outside it changed; in the window no byte of
memory changed, DDR appends to `out`, MCR is stored, and every write but MCR's is handed to the host. Nothing else changed. -/
def wordStored (a v : Word) (s t : State) : Prop :=
  (a < windowBase → Memory.readWord t.mem a.toNat = v ∧ sameMemoryExcept a s t) ∧
    (¬ a < windowBase → sameMemory s t) ∧
    t.mcr = (if a = mcrAddr then v else s.mcr) ∧
    t.out = (if a = ddrAddr then s.out ++ [v] else s.out) ∧
    t.portLog = (if a < windowBase ∨ a = mcrAddr then s.portLog else s.portLog ++ [.write a v]) ∧
    (∀ r, t.reg r = s.reg r) ∧ t.psr = s.psr ∧ t.pc = s.pc ∧ t.run = s.run ∧ t.fault = s.fault ∧ t.tc = s.tc ∧
    t.cfg = s.cfg ∧ t.trace = s.trace ∧ t.kbdIn = s.kbdIn ∧ t.devIn = s.devIn ∧ t.draws = s.draws

/-! ## Classes of instructions -/

/-- The flag-setting operations: "(ADD, AND, NOT, LD, LDI, LDR, LEA)" (R30). -/
def setsFlags : Instr → Bool
  | .addReg _ _ _ => true
  | .addImm _ _ _ => true
  | .andReg _ _ _ => true
  | .andImm _ _ _ => true
  | .notReg _ _ => true
  | .ld _ _ => true
  | .ldi _ _ => true
  | .ldr _ _ _ => true
  | .lea _ _ => true
  | .br _ _ => false
  | .nop _ => false
  | .jmp _ => false
  | .ret => false
  | .jmpt _ => false
  | .jsr _ => false
  | .jsrr _ => false
  | .st _ _ => false
  | .sti _ _ => false
  | .str _ _ _ => false
  | .trap _ => false
  | .rti => false
  | .reserved _ => false

/-- The general registers an instruction may write (R22). -/
def writtenRegs : Instr → List RegIdx
  | .addReg dr _ _ => [dr]
  | .addImm dr _ _ => [dr]
  | .andReg dr _ _ => [dr]
  | .andImm dr _ _ => [dr]
  | .notReg dr _ => [dr]
  | .ld dr _ => [dr]
  | .ldi dr _ => [dr]
  | .ldr dr _ _ => [dr]
  | .lea dr _ => [dr]
  | .jsr _ => [7]
  | .jsrr _ => [7]
  | .trap _ => [7]
  | .rti => [6]
  | .br _ _ => []
  | .nop _ => []
  | .jmp _ => []
  | .ret => []
  | .jmpt _ => []
  | .st _ _ => []
  | .sti _ _ => []
  | .str _ _ _ => []
  | .reserved _ => []

/-- The storing instructions (R190). -/
def isStore : Instr → Bool
  | .st _ _ => true
  | .sti _ _ => true
  | .str _ _ _ => true
  | _ => false

/-- The two instructions the privilege mode matters to (R25, R290). -/
def readsPrivilege : Instr → Bool
  | .rti => true
  | .jmpt _ => true
  | _ => false

/-! ## Relations between states -/

/-- The state without the trace port and the choice of executor: what the plain and the traced executor share (R254). -/
def withoutTrace (s : State) : State := { s with trace := [], cfg := { s.cfg with traced := false } }

/-- The same state in supervisor or in user mode (R25). -/
def inMode (user : Bool) (s : State) : State := { s with psr := withPriv s.psr user }

end Sys2Proof.Machine
end

