-- ==== Sys2Proof/Certificates/Slice0/Obligations.lean ====
section
/-! DEFINITION. The statements, each formalising what a rule of spec/ says. `exec i s` is the operation run after the fetch,
so `s.pc` is the address of the instruction plus one (R13).

`resultWritten`, `resultLoaded`, `wordStored`, `onlyPcMoves` and the `same…` frames are defined in Safety.lean. -/

open Sys2Proof Sys2Proof.Machine

/-! ## Encoding -/

/-- Words written out from the spec's layouts (R102) decode to the instructions they stand for. The bit positions are the
spec's decision D1 (log entry 8). That 0xC1C0 is spelled RET and not JMP R7 is the model's choice (R124, log entry 7); that
JSRR and TRAP ignore the set bits of two of the words is the spec's decision D3 (R118, log entry 9). -/
def Obligations.WordsFromTheLayoutsDecode : Prop :=
  decode 0b0001_001_010_0_00_011 = .ok (.addReg 1 2 3) ∧
  decode 0b0001_001_010_1_11111 = .ok (.addImm 1 2 (-1)) ∧
  decode 0b0101_010_010_0_00_011 = .ok (.andReg 2 2 3) ∧
  decode 0b1001_111_000_111111 = .ok (.notReg 7 0) ∧
  decode 0b0000_100_100000000 = .ok (.br 0b100 (-256)) ∧
  decode 0b1100_000_111_000000 = .ok .ret ∧
  decode 0b1100_000_011_000001 = .ok (.jmpt 3) ∧
  decode 0b0100_1_10000000000 = .ok (.jsr (-1024)) ∧
  decode 0b0100_0_11_000_000001 = .ok (.jsrr 0) ∧
  decode 0b0110_111_110_100000 = .ok (.ldr 7 6 (-32)) ∧
  decode 0b1011_011_100000000 = .ok (.sti 3 (-256)) ∧
  decode 0b1111_1111_00100101 = .ok (.trap 0x25) ∧
  decode 0b1000_000000000000 = .ok .rti ∧
  decode 0b0001_001_010_0_01_011 = .error .operateReservedBits

/-- Decoding an encoded well-formed instruction gives it back, with two spellings identified as R124 says: BR with an empty
mask decodes to the NOP with its offset, and JMP R7 to RET (log entry 7: the model's choice of spelling). -/
def Obligations.DecodeOfEncodeGivesTheInstruction : Prop :=
  ∀ i : Instr, i.wellFormed = true →
    ((∀ off, i ≠ .br 0 off) → i ≠ .jmp 7 → decode (encode i) = .ok i) ∧
    (∀ off, i = .br 0 off → decode (encode i) = .ok (.nop off)) ∧
    (i = .jmp 7 → decode (encode i) = .ok .ret)

/-- Encoding what a word decodes to gives the word back, with the bits the decoder ignores (JSRR [10:9] and [5:0], TRAP
[11:8]) cleared, and every decoded operand is in its field's range. The ignored bits are the spec's decision D3 (log entry
9). -/
def Obligations.EncodeOfDecodeClearsTheIgnoredBits : Prop :=
  ∀ (w : Word) (i : Instr), decode w = .ok i →
    i.wellFormed = true ∧
    encode i = (match i with
      | .jsrr _ => w &&& 0xF9C0
      | .trap _ => w &&& 0xF0FF
      | _ => w)

/-- R125: a signed field of 5, 6, 9 or 11 bits gives back every number in its range, and no number outside it. -/
def Obligations.SignedFieldsGiveBackExactlyTheirRange : Prop :=
  ∀ n ∈ [5, 6, 9, 11], ∀ v : Int,
    (-(2 ^ (n - 1) : Int) ≤ v ∧ v < 2 ^ (n - 1) → (sext n v).toInt = v) ∧
    (¬ (-(2 ^ (n - 1) : Int) ≤ v ∧ v < 2 ^ (n - 1)) → (sext n v).toInt ≠ v ∧
      sext n v = (BitVec.ofInt 16 v &&& BitVec.ofNat 16 (2 ^ n - 1)) |||
        (if (BitVec.ofInt 16 v).getLsbD (n - 1) then ~~~ BitVec.ofNat 16 (2 ^ n - 1) else 0))

/-- The bit formulas of the 21 encoders of R123, operands masked to their declared width (R122). They follow the layouts of
decision D1 (log entry 8). -/
def Obligations.EncodersAreTheBitFormulas : Prop :=
  let r : RegIdx → Word := fun x => BitVec.ofNat 16 x.val
  (∀ d s t, encode (.addReg d s t) = 0x1000 ||| r d <<< 9 ||| r s <<< 6 ||| r t) ∧
  (∀ d s v, encode (.addImm d s v) = 0x1020 ||| r d <<< 9 ||| r s <<< 6 ||| (BitVec.ofInt 16 v &&& 0x1F)) ∧
  (∀ d s t, encode (.andReg d s t) = 0x5000 ||| r d <<< 9 ||| r s <<< 6 ||| r t) ∧
  (∀ d s v, encode (.andImm d s v) = 0x5020 ||| r d <<< 9 ||| r s <<< 6 ||| (BitVec.ofInt 16 v &&& 0x1F)) ∧
  (∀ (m : BitVec 3) v, encode (.br m v) = m.setWidth 16 <<< 9 ||| (BitVec.ofInt 16 v &&& 0x1FF)) ∧
  encode (.nop 0) = 0x0000 ∧
  (∀ s, encode (.jmp s) = 0xC000 ||| r s <<< 6) ∧
  (∀ s, encode (.jmpt s) = 0xC001 ||| r s <<< 6) ∧
  encode .ret = 0xC1C0 ∧
  (∀ v, encode (.jsr v) = 0x4800 ||| (BitVec.ofInt 16 v &&& 0x7FF)) ∧
  (∀ s, encode (.jsrr s) = 0x4000 ||| r s <<< 6) ∧
  (∀ d v, encode (.ld d v) = 0x2000 ||| r d <<< 9 ||| (BitVec.ofInt 16 v &&& 0x1FF)) ∧
  (∀ d v, encode (.ldi d v) = 0xA000 ||| r d <<< 9 ||| (BitVec.ofInt 16 v &&& 0x1FF)) ∧
  (∀ d s v, encode (.ldr d s v) = 0x6000 ||| r d <<< 9 ||| r s <<< 6 ||| (BitVec.ofInt 16 v &&& 0x3F)) ∧
  (∀ d v, encode (.lea d v) = 0xE000 ||| r d <<< 9 ||| (BitVec.ofInt 16 v &&& 0x1FF)) ∧
  (∀ d s, encode (.notReg d s) = 0x903F ||| r d <<< 9 ||| r s <<< 6) ∧
  encode .rti = 0x8000 ∧
  (∀ d v, encode (.st d v) = 0x3000 ||| r d <<< 9 ||| (BitVec.ofInt 16 v &&& 0x1FF)) ∧
  (∀ d v, encode (.sti d v) = 0xB000 ||| r d <<< 9 ||| (BitVec.ofInt 16 v &&& 0x1FF)) ∧
  (∀ d s v, encode (.str d s v) = 0x7000 ||| r d <<< 9 ||| r s <<< 6 ||| (BitVec.ofInt 16 v &&& 0x3F)) ∧
  (∀ v : Nat, encode (.trap v) = 0xF000 ||| (BitVec.ofNat 16 v &&& 0xFF))

/-- Every decoded word matches its instruction's row of the opcode table, and so does every encoding. The table rests on
decision D1 (log entry 8). -/
def Obligations.WordsMatchTheirTableRows : Prop :=
  (∀ (w : Word) (i : Instr), decode w = .ok i → w &&& i.tableRow.2 = i.tableRow.1) ∧
  (∀ i : Instr, encode i &&& i.tableRow.2 = i.tableRow.1)

/-- A step faults exactly on the words R280 lists. The reserved family is the spec's decision D2 (log entry 9), the bit
positions its decision D1 (log entry 8). -/
def Obligations.StepFaultsExactlyOnIllFormedWords : Prop :=
  ∀ s t : State, s.enabled = true → step s = .next t →
    let w := (fetch s).1
    (t.run = .faulted ↔
      ((w.extractLsb' 12 4 = 0b0001 ∨ w.extractLsb' 12 4 = 0b0101) ∧ w.getLsbD 5 = false ∧ w.extractLsb' 3 2 ≠ 0) ∨
      (w.extractLsb' 12 4 = 0b1001 ∧ w.extractLsb' 0 6 ≠ 0b111111) ∨
      (w.extractLsb' 12 4 = 0b1100 ∧ (w.extractLsb' 9 3 ≠ 0 ∨ w.extractLsb' 1 5 ≠ 0)) ∨
      (w.extractLsb' 12 4 = 0b1000 ∧ w.extractLsb' 0 12 ≠ 0) ∨
      w.extractLsb' 12 4 = 0b1101)

/-! ## Flags and the PSR -/

/-- R29: setcc sets exactly the flag of the word's signed interpretation and leaves PSR[15:3] and everything else as it was.
The places of the three flags are the spec's decision D31 (log entry 16). -/
def Obligations.SetccSetsTheFlagOfTheSignedResult : Prop :=
  ∀ (s : State) (v : Word),
    (v.toInt < 0 → psrNzp (s.setcc v).psr = 0b100) ∧
    (v.toInt = 0 → psrNzp (s.setcc v).psr = 0b010) ∧
    (0 < v.toInt → psrNzp (s.setcc v).psr = 0b001) ∧
    samePsrAboveFlags s (s.setcc v) ∧ s.setcc v = { s with psr := (s.setcc v).psr }

/-- The PSR field mutators write their own field and no other bit (R32). -/
def Obligations.PsrMutatorsPreserveOtherBits : Prop :=
  ∀ psr : Word,
    (∀ u, psrPriv (withPriv psr u) = u ∧ ∀ n, n < 15 → (withPriv psr u).getLsbD n = psr.getLsbD n) ∧
    (∀ pl, psrPl (withPl psr pl) = pl ∧ ∀ n, n < 8 ∨ 10 < n → (withPl psr pl).getLsbD n = psr.getLsbD n) ∧
    (∀ f, psrNzp (withNzp psr f) = f ∧ ∀ n, 2 < n → (withNzp psr f).getLsbD n = psr.getLsbD n)

/-- R160: a branch is taken exactly when the mask and PSR[2:0] have a bit in common, so never when no flag is set. The
places of the three flags are the spec's decision D31 (log entry 16). -/
def Obligations.BranchIsTakenWhenARequestedFlagIsSet : Prop :=
  ∀ (nzp : BitVec 3) (psr : Word),
    (branchTaken nzp psr = true ↔ nzp &&& psrNzp psr ≠ 0) ∧
    (branchTaken nzp psr = ((nzp.getLsbD 2 && psrN psr) || (nzp.getLsbD 1 && psrZ psr) || (nzp.getLsbD 0 && psrP psr))) ∧
    (psrNzp psr = 0 → branchTaken 0b111 psr = false)

/-! ## Memory and devices -/

/-- R64: a read chooses its source by address. -/
def Obligations.ReadsChooseTheirSourceByAddress : Prop :=
  ∀ (a : Word) (s : State),
    (a.toNat < 0xFE00 → memRead a s = (Memory.readWord s.mem a.toNat, s)) ∧
    (0xFE00 ≤ a.toNat → memRead a s = devRead a s)

/-- R65: a write chooses its target by address. Below the window the word is in memory afterwards, every byte outside it is
as before, and nothing but memory changed. -/
def Obligations.WritesChooseTheirTargetByAddress : Prop :=
  ∀ (a v : Word) (s : State), Memory.wf s.mem = true →
    (a.toNat < 0xFE00 → Memory.readWord (memWrite a v s).mem a.toNat = v ∧ sameMemoryExcept a s (memWrite a v s) ∧
      memWrite a v s = { s with mem := (memWrite a v s).mem }) ∧
    (0xFE00 ≤ a.toNat → memWrite a v s = devWrite a v s)

/-- Device reads (R67 to R75): DSR reads 0x8000 and MCR its stored word with no effect; every other read takes the host's
next answer, or a free value when none is ready, and is recorded. The DSR word, the MCR word and the answers are the spec's
decisions D11 to D15 (log entries 3, 12, 13, 14). -/
def Obligations.DeviceReadsFollowTheRegisterMap : Prop :=
  (∀ s : State, devRead 0xFE04 s = (0x8000, s)) ∧
  (∀ s : State, devRead 0xFFFE s = (s.mcr, s)) ∧
  (∀ (a : Word) (s : State), a = 0xFE00 ∨ a = 0xFE02 →
    (∀ v rest, s.kbdIn = v :: rest →
      devRead a s = (v, { s with kbdIn := rest, portLog := s.portLog ++ [.read a v], draws := s.draws + 1 })) ∧
    (s.kbdIn = [] → ∃ v, devRead a s = (v, { s with portLog := s.portLog ++ [.read a v], draws := s.draws + 1 }))) ∧
  (∀ (a : Word) (s : State), 0xFE00 ≤ a.toNat → a ∉ [0xFE00, 0xFE02, 0xFE04, 0xFFFE] →
    (∀ v rest, s.devIn = v :: rest →
      devRead a s = (v, { s with devIn := rest, portLog := s.portLog ++ [.read a v], draws := s.draws + 1 })) ∧
    (s.devIn = [] → ∃ v, devRead a s = (v, { s with portLog := s.portLog ++ [.read a v], draws := s.draws + 1 })))

/-- Device writes (R71, R73 to R75): MCR stores the whole word, DDR appends the whole word to `out`, no other write changes
block state, and every write but MCR's reaches the host. The spec's decisions D11, D14, D15 (log entries 12, 14, 15). -/
def Obligations.DeviceWritesFollowTheRegisterMap : Prop :=
  ∀ (v : Word) (s : State),
    devWrite 0xFFFE v s = { s with mcr := v } ∧
    devWrite 0xFE06 v s = { s with out := s.out ++ [v], portLog := s.portLog ++ [.write 0xFE06 v] } ∧
    (∀ a : Word, 0xFE00 ≤ a.toNat → a ≠ 0xFFFE → a ≠ 0xFE06 →
      devWrite a v s = { s with portLog := s.portLog ++ [.write a v] })

/-- Below the window every read gives the most recent write to that address (R85). -/
def Obligations.ReadsGiveTheMostRecentWrite : Prop :=
  ∀ (a b v : Word) (s : State), Memory.wf s.mem = true → a.toNat < 0xFE00 → b.toNat < 0xFE00 →
    (memRead b (memWrite a v s)).1 = if b = a then v else (memRead b s).1

/-- Two canonical memories that read alike at every cell are the same list, so that equal memories are equal data (the
model's own form of R61's array, log entry 1). -/
def Obligations.CanonicalMemoriesThatReadAlikeAreEqual : Prop :=
  ∀ m m' : Memory, Memory.wf m = true → Memory.wf m' = true →
    (∀ k, Memory.readByte m k = Memory.readByte m' k) → m = m'

/-- A store is what the next fetch of that word reads, with nothing in between (R88): for every address below the window,
and for ST, STI and STR whose address, computed as each does, is pc. -/
def Obligations.AStoreIsSeenByTheNextFetch : Prop :=
  ∀ s : State, Memory.wf s.mem = true →
    (∀ a v : Word, a.toNat < 0xFE00 → (fetch ((memWrite a v s).jumpTo a)).1 = v) ∧
    (s.pc.toNat < 0xFE00 → ∀ (sr : RegIdx) (off : Int),
      (s.pc + pcOffset9 off = s.pc → ∃ t, exec (.st sr off) s = .next t ∧ (fetch t).1 = s.reg sr) ∧
      ((memRead (s.pc + pcOffset9 off) s).1 = s.pc → ∃ t, exec (.sti sr off) s = .next t ∧ (fetch t).1 = s.reg sr) ∧
      (∀ base, s.reg base + offset6 off = s.pc → ∃ t, exec (.str sr base off) s = .next t ∧ (fetch t).1 = s.reg sr))

/-! ## Operate instructions -/

/-- ADD, both forms (R140, R141): the 16-bit sum modulo 2^16, the flags from it, and nothing else. Sources are read before DR
is written, so DR may equal them. The wrap is the spec's decision D7 (log entry 11). -/
def Obligations.AddWritesTheWrappedSum : Prop :=
  ∀ (dr sr1 : RegIdx) (s : State),
    (∀ sr2, ∃ t, exec (.addReg dr sr1 sr2) s = .next t ∧ resultWritten dr (s.reg sr1 + s.reg sr2) s t ∧
      (t.reg dr).toNat = ((s.reg sr1).toNat + (s.reg sr2).toNat) % 65536) ∧
    (∀ imm, ∃ t, exec (.addImm dr sr1 imm) s = .next t ∧ resultWritten dr (s.reg sr1 + imm5 imm) s t)

/-- AND, both forms (R142, R143): the bitwise conjunction, the flags from it, and nothing else; N is set exactly when bit 15 of
both operands is 1. The flag positions are the spec's decision D31 (log entry 16). -/
def Obligations.AndWritesTheConjunction : Prop :=
  ∀ (dr sr1 : RegIdx) (s : State),
    (∀ sr2, ∃ t, exec (.andReg dr sr1 sr2) s = .next t ∧ resultWritten dr (s.reg sr1 &&& s.reg sr2) s t ∧
      psrN t.psr = ((s.reg sr1).getLsbD 15 && (s.reg sr2).getLsbD 15)) ∧
    (∀ imm, ∃ t, exec (.andImm dr sr1 imm) s = .next t ∧ resultWritten dr (s.reg sr1 &&& imm5 imm) s t ∧
      psrN t.psr = ((s.reg sr1).getLsbD 15 && (imm5 imm).getLsbD 15))

/-- NOT (R144): the complement of all 16 bits, the flags from it, and nothing else; adding 1 to it negates. -/
def Obligations.NotWritesTheComplement : Prop :=
  ∀ (dr sr : RegIdx) (s : State), ∃ t, exec (.notReg dr sr) s = .next t ∧ resultWritten dr (~~~ s.reg sr) s t ∧
    t.reg dr + 1 = - s.reg sr

/-! ## Control transfer -/

/-- BR (R161): pc moves by PCoffset9 if the branch is taken, and nothing else changes. -/
def Obligations.BrAddsItsOffsetWhenTaken : Prop :=
  ∀ (nzp : BitVec 3) (off : Int) (s : State), ∃ t, exec (.br nzp off) s = .next t ∧ onlyPcMoves s t ∧
    t.pc = if nzp &&& psrNzp s.psr ≠ 0 then s.pc + pcOffset9 off else s.pc

/-- NOP, and BR with an empty mask, change nothing, whatever the offset (R162, decision D26, log entry 7). -/
def Obligations.NopChangesNothing : Prop :=
  ∀ (off : Int) (s : State), exec (.nop off) s = .next s ∧ exec (.br 0 off) s = .next s

/-- JMP and RET (R163, R164): pc is the base register's word, any word, in either mode, and nothing else changes; RET is JMP
R7. -/
def Obligations.JmpAndRetGoToTheirRegister : Prop :=
  ∀ s : State,
    (∀ base, ∃ t, exec (.jmp base) s = .next t ∧ t.pc = s.reg base ∧ onlyPcMoves s t) ∧
    (∃ t, exec .ret s = .next t ∧ t.pc = s.reg 7 ∧ onlyPcMoves s t) ∧
    exec .ret s = exec (.jmp 7) s

/-- JMPT under `jump` and under `jumpToUser` (R166, decision D5, log entry 6): it jumps; under `jumpToUser` it also sets
PSR[15] from supervisor mode, and in user mode does nothing. -/
def Obligations.JmptJumpsUnderItsJumpingSettings : Prop :=
  ∀ (base : RegIdx) (s : State),
    (s.cfg.jmptSemantics = .jump →
      ∃ t, exec (.jmpt base) s = .next t ∧ t.pc = s.reg base ∧ onlyPcMoves s t) ∧
    (s.cfg.jmptSemantics = .jumpToUser → s.userMode = false →
      ∃ t, exec (.jmpt base) s = .next t ∧ t.pc = s.reg base ∧ psrPriv t.psr = true ∧
        (∀ n, n < 15 → t.psr.getLsbD n = s.psr.getLsbD n) ∧ (∀ r, t.reg r = s.reg r) ∧ sameOutside s t) ∧
    (s.cfg.jmptSemantics = .jumpToUser → s.userMode = true → exec (.jmpt base) s = .next s)

/-- JMPT under `refuse` (R166, R241, decision D5, log entry 4): the run state becomes Refused and nothing else changes. -/
def Obligations.JmptIsRefusedUnderRefuse : Prop :=
  ∀ (base : RegIdx) (s : State), s.cfg.jmptSemantics = .refuse →
    ∃ t, exec (.jmpt base) s = .next t ∧ t.run = .refused ∧ t.pc = s.pc ∧ t.psr = s.psr ∧ (∀ r, t.reg r = s.reg r) ∧
      sameMemory s t ∧ samePorts s t ∧ t.mcr = s.mcr ∧ t.fault = s.fault ∧ t.tc = s.tc ∧ t.cfg = s.cfg

/-- JSR (R167): R7 is the old pc, pc moves by PCoffset11, and nothing else changes. -/
def Obligations.JsrLinksAndJumps : Prop :=
  ∀ (off : Int) (s : State), ∃ t, exec (.jsr off) s = .next t ∧ t.reg 7 = s.pc ∧ t.pc = s.pc + pcOffset11 off ∧
    sameRegsExcept [7] s t ∧ t.psr = s.psr ∧ sameOutside s t

/-- JSRR (R168, decision D6, log entry 6): R7 is the old pc and pc the base register's word; for BaseR = 7 that word is the new
R7 when the link is written first, and the old one otherwise. -/
def Obligations.JsrrLinksAndJumps : Prop :=
  ∀ (base : RegIdx) (s : State), ∃ t, exec (.jsrr base) s = .next t ∧ t.reg 7 = s.pc ∧
    t.pc = (if s.cfg.jsrrLinkFirst = true ∧ base = 7 then s.pc else s.reg base) ∧
    sameRegsExcept [7] s t ∧ t.psr = s.psr ∧ sameOutside s t

/-! ## Loads, LEA and stores -/

/-- LD (R192). -/
def Obligations.LdLoadsThePcRelativeWord : Prop :=
  ∀ (dr : RegIdx) (off : Int) (s : State),
    let r := memRead (s.pc + pcOffset9 off) s
    ∃ t, exec (.ld dr off) s = .next t ∧ resultLoaded dr r.1 r.2 s t

/-- LDI (R193): the pointer first, then the data; the flags come from the data. -/
def Obligations.LdiLoadsThroughThePointer : Prop :=
  ∀ (dr : RegIdx) (off : Int) (s : State),
    let p := memRead (s.pc + pcOffset9 off) s
    let r := memRead p.1 p.2
    ∃ t, exec (.ldi dr off) s = .next t ∧ resultLoaded dr r.1 r.2 s t

/-- LDR (R194): the address is computed from the old BaseR, so DR may equal it. -/
def Obligations.LdrLoadsTheBaseOffsetWord : Prop :=
  ∀ (dr base : RegIdx) (off : Int) (s : State),
    let r := memRead (s.reg base + offset6 off) s
    ∃ t, exec (.ldr dr base off) s = .next t ∧ resultLoaded dr r.1 r.2 s t

/-- LEA (R196): the address itself, with no memory access and so no device access. -/
def Obligations.LeaWritesTheAddress : Prop :=
  ∀ (dr : RegIdx) (off : Int) (s : State),
    ∃ t, exec (.lea dr off) s = .next t ∧ resultWritten dr (s.pc + pcOffset9 off) s t

/-- ST, STI and STR (R197 to R199): SR is stored at the address each computes, STI's being the pointer it read first, and
nothing else changes. The device clauses of `wordStored` are the spec's decisions D11, D14, D15 (log entries 12, 14, 15). -/
def Obligations.StoresWriteOneWordAtTheirAddress : Prop :=
  ∀ (sr : RegIdx) (off : Int) (s : State), Memory.wf s.mem = true →
    (∃ t, exec (.st sr off) s = .next t ∧ wordStored (s.pc + pcOffset9 off) (s.reg sr) s t) ∧
    (∃ t, exec (.sti sr off) s = .next t ∧
      wordStored (memRead (s.pc + pcOffset9 off) s).1 (s.reg sr) (memRead (s.pc + pcOffset9 off) s).2 t) ∧
    (∀ base, ∃ t, exec (.str sr base off) s = .next t ∧ wordStored (s.reg base + offset6 off) (s.reg sr) s t)

/-! ## System instructions -/

/-- TRAP (R220, R287): R7 is the old pc, pc the word of the vector table, and nothing else changes: no PSR, no mode, no stack. -/
def Obligations.TrapLinksAndEntersTheVector : Prop :=
  ∀ (vect : Nat) (s : State), ∃ t, exec (.trap vect) s = .next t ∧ t.reg 7 = s.pc ∧
    t.pc = Memory.readWord s.mem (vect % 256) ∧ sameRegsExcept [7] s t ∧ t.psr = s.psr ∧ sameOutside s t

/-- R221: the vector read reads the backing array, and a store to the vector changes where TRAP goes. -/
def Obligations.AStoreToAVectorMovesItsTrap : Prop :=
  ∀ (vect : Nat) (s : State), Memory.wf s.mem = true → vect < 256 →
    memRead (trapVector vect) s = (Memory.readWord s.mem vect, s) ∧
    ∀ target : Word, ∃ t, exec (.trap vect) (memWrite (BitVec.ofNat 16 vect) target s) = .next t ∧ t.pc = target

/-- RTI (R222, R223): in supervisor mode it pops pc, then the whole PSR, from the stack R6 points to, R6 advancing by one word
per pop; in user mode it does nothing. The whole-word pop and the no-op are the spec's decisions D21 and D20 (log entry 17). -/
def Obligations.RtiPopsPcThenPsrInSupervisorModeOnly : Prop :=
  ∀ s : State,
    (s.userMode = false →
      let p := memRead (s.reg 6) s
      let q := memRead (s.reg 6 + 1) p.2
      ∃ t, exec .rti s = .next t ∧ t.pc = p.1 ∧ t.psr = q.1 ∧ t.reg 6 = s.reg 6 + 2 ∧ sameRegsExcept [6] s t ∧
        sameMemory s t ∧ sameControl s t ∧ t.out = s.out ∧ t.trace = s.trace ∧ devicePortsOf q.2 t) ∧
    (s.userMode = true → exec .rti s = .next s)

/-- The reserved family (R224, R281, decisions D2 and D18, log entries 4 and 9): its operation is the decode fault, recorded
with the address of the word and the word. -/
def Obligations.ReservedWordsTakeTheDecodeFault : Prop :=
  ∀ (low : BitVec 12) (s : State), ∃ t, exec (.reserved low) s = .next t ∧
    t.fault = some ⟨s.pc - 1, 0xD000 ||| low.setWidth 16⟩ ∧ t.run = .faulted ∧ t.pc = s.pc ∧ t.psr = s.psr ∧
    (∀ r, t.reg r = s.reg r) ∧ sameMemory s t ∧ samePorts s t ∧ t.mcr = s.mcr ∧ t.tc = s.tc ∧ t.cfg = s.cfg

/-! ## The step -/

/-- R241: one step is fetch, increment, decode, the decode fault or the trace event and the operation, then the count and the
clock check; a refusal leaves the state as the fetch and the trace event left it, and only JMPT under `refuse` refuses. What
a fault, a refusal and the count do are the spec's decisions D5, D18 and D22 (log entries 4, 19), and that the fetch goes
through the device routing its decision D32 (log entry 26). That a refusal keeps the trace event is the model's deduction from
R241's order (log entry 28): R241's own words are "as the fetch left it". -/
def Obligations.StepRunsTheDecodedInstruction : Prop :=
  ∀ s : State, s.enabled = true →
    let w := (memRead s.pc s).1
    let f : State := { (memRead s.pc s).2 with pc := s.pc + 1 }
    (∀ e, decode w = .error e → step s = .next { f with fault := some ⟨s.pc, w⟩, run := .faulted }) ∧
    (∀ i, decode w = .ok i →
      let g : State := if i.isReserved = false ∧ f.cfg.traced = true then { f with trace := f.trace ++ [⟨f.tc, i⟩] } else f
      ∃ u, exec i g = .next u ∧
        (u.run = .faulted ↔ i.isReserved = true) ∧
        (u.run = .refused ↔ (∃ b, i = .jmpt b) ∧ s.cfg.jmptSemantics = .refuse) ∧
        (u.run = .faulted → step s = .next u) ∧
        (u.run = .refused → u = { g with run := .refused } ∧ step s = .next u) ∧
        (u.run ≠ .faulted → u.run ≠ .refused →
          step s = .next { u with
            tc := u.tc + 1
            run := if u.mcr.getLsbD 15 = false ∧ u.run = .running then .halted else u.run }))

/-- The decode fault (R243, R281, decision D18, log entry 4): for a word that decodes to no operation, the record holds its
address and itself, the engine is Faulted, pc has advanced, and everything else is as the fetch left it; no trace event is
emitted and `tc` stands. -/
def Obligations.TheDecodeFaultChangesNothingElse : Prop :=
  ∀ s : State, s.enabled = true → decodeFaults (fetch s).1 = true →
    ∃ t, step s = .next t ∧ t.fault = some ⟨s.pc, (fetch s).1⟩ ∧ t.run = .faulted ∧ t.pc = s.pc + 1 ∧
      t.psr = s.psr ∧ (∀ r, t.reg r = s.reg r) ∧ sameMemory s t ∧ t.mcr = s.mcr ∧ t.tc = s.tc ∧ t.cfg = s.cfg ∧
      t.out = s.out ∧ t.trace = s.trace ∧ devicePortsOf (memRead s.pc s).2 t

/-- An enabled step always gives a next state (R119, R241): no instruction, operand or address stops the machine otherwise.
That a decode fault and a refused JMPT also answer a next state, with run state Faulted or Refused, is the model's form of the
spec's decisions D18 and D5 (log entry 4). -/
def Obligations.EveryEnabledStepGivesANextState : Prop :=
  ∀ s : State, s.enabled = true → ∃ t, step s = .next t

/-- Where no step is enabled (R246, R248, decisions D16 and D18, log entries 4 and 18): Uninitialized and the two terminal
states, in which `run` and `run_with_observer` are not enabled either, nor `initialize` in the terminal ones. -/
def Obligations.NothingRunsBeforeInitialisationOrAfterTheEnd : Prop :=
  ∀ s : State,
    (s.run = .uninitialized → step s = .refused .notInitialized ∧ (∀ n, hostRun n s = .refused .notInitialized) ∧
      ∀ cb n, runWithObserver cb n s = .refused .notInitialized) ∧
    (s.run = .faulted → step s = .fault .terminated ∧ (∀ n, hostRun n s = .fault .terminated) ∧
      (∀ cb n, runWithObserver cb n s = .fault .terminated) ∧ initializeEngine s = .fault .terminated) ∧
    (s.run = .refused → step s = .refused .engineRefused ∧ (∀ n, hostRun n s = .refused .engineRefused) ∧
      (∀ cb n, runWithObserver cb n s = .refused .engineRefused) ∧ initializeEngine s = .refused .engineRefused)

/-- The trace counter and the trace port (R251, R253, decision D22, log entry 19): one count per invoked operation, the no-op
forms included, none for a decode fault or a refusal; one event per operation under the traced executor. That a JMPT which is
then refused has emitted its event, though it is not counted, is the model's deduction from the order of R241 (log entry 28). -/
def Obligations.EveryOperationIsCountedAndTraced : Prop :=
  ∀ s t : State, step s = .next t →
    t.tc = (if t.run = .faulted ∨ t.run = .refused then s.tc else s.tc + 1) ∧
    (∀ i, decode (fetch s).1 = .ok i → i.isReserved = false → s.cfg.traced = true →
      t.trace = s.trace ++ [⟨s.tc, i⟩]) ∧
    (decodeFaults (fetch s).1 = true ∨ s.cfg.traced = false → t.trace = s.trace)

/-! ## Rules about the whole machine -/

/-- The invariant holds at reset: empty memory is canonical, no fault is recorded, and the engine is not running. -/
def Obligations.TheInvariantHoldsAtReset : Prop := State.reset.Inv

/-- Every step keeps the invariant: canonical memory, a fault record exactly in Faulted, the clock bit set while running. -/
def Obligations.EveryStepKeepsTheInvariant : Prop :=
  ∀ s t : State, s.Inv → step s = .next t → t.Inv

/-- So does every host transaction that R240 lists beside `step`: load, initialize, run, run_with_observer, stop. -/
def Obligations.HostTransactionsKeepTheInvariant : Prop :=
  ∀ s t : State, s.Inv →
    (∀ base bytes short, load base bytes s = .next (t, short) → t.Inv) ∧
    (initializeEngine s = .next t → t.Inv) ∧
    (∀ n, hostRun n s = .next t → t.Inv) ∧
    (∀ cb n o, runWithObserver cb n s = .next o → o.state.Inv) ∧
    (hostStop s = .next t → t.Inv)

/-- No step leaves user mode: "Once in user mode, the engine stays there until the next `initialize()`" (R291). What
`initialize()` does to the mode is InitialisationStartsTheEngine's. -/
def Obligations.UserModeIsNeverLeftByAStep : Prop :=
  ∀ s t : State, s.userMode = true → step s = .next t → t.userMode = true

/-- The privilege mode matters to RTI and JMPT only (R290): every other instruction does the same in both modes, to the same
addresses, and keeps the mode. -/
def Obligations.OnlyRtiAndJmptDependOnTheMode : Prop :=
  ∀ (i : Instr) (s t : State) (user : Bool), readsPrivilege i = false → exec i s = .next t →
    exec i (inMode user s) = .next (inMode user t) ∧ psrPriv t.psr = psrPriv s.psr

/-- R254: two states that differ only in the trace port and in the choice of executor take steps to states that differ only
there, and stop alike. -/
def Obligations.TracingDoesNotAlterResults : Prop :=
  ∀ s s' : State, withoutTrace s = withoutTrace s' →
    (∀ t, step s = .next t → ∃ t', step s' = .next t' ∧ withoutTrace t = withoutTrace t') ∧
    (∀ f, step s = .fault f → step s' = .fault f) ∧
    (∀ r, step s = .refused r → step s' = .refused r)

/-- The flag-setting operations leave exactly one flag set, and every other instruction but RTI leaves PSR[2:0] unchanged (R30,
decision D28, log entry 16). -/
def Obligations.OnlyFlagSettersWriteTheFlags : Prop :=
  ∀ (i : Instr) (s t : State), exec i s = .next t →
    (setsFlags i = true → psrNzp t.psr ∈ [0b100#3, 0b010#3, 0b001#3]) ∧
    (setsFlags i = false → i ≠ .rti → psrNzp t.psr = psrNzp s.psr)

/-- Which general registers each instruction writes (R22): no instruction writes any other, and RTI in user mode writes none. -/
def Obligations.InstructionsWriteOnlyTheirRegisters : Prop :=
  ∀ (i : Instr) (s t : State), exec i s = .next t →
    (∀ r, r ∉ writtenRegs i → t.reg r = s.reg r) ∧
    (i = .rti → s.userMode = true → ∀ r, t.reg r = s.reg r)

/-- Only ST, STI and STR change memory, `out` or MCR: every other instruction leaves every byte, the output and the clock
register as they were (R190 to R199). -/
def Obligations.OnlyStoresWriteMemoryOutputOrMcr : Prop :=
  ∀ (i : Instr) (s t : State), isStore i = false → exec i s = .next t →
    sameMemory s t ∧ t.out = s.out ∧ t.mcr = s.mcr

/-- The output log, the trace and the device record only grow, `tc` never falls, and the parameters never change (R36, R37,
R40). -/
def Obligations.LogsOnlyGrowAndParametersStand : Prop :=
  ∀ s t : State, step s = .next t →
    s.out <+: t.out ∧ s.trace <+: t.trace ∧ s.portLog <+: t.portLog ∧ s.tc ≤ t.tc ∧ s.draws ≤ t.draws ∧ t.cfg = s.cfg

/-! ## Reset, initialisation and the host's transactions -/

/-- The state at creation (R43, R320). The MCR, run state, `out`, `tc` and fault values are the spec's decisions D10, D11, D18,
D22 (log entries 4, 12, 19, 20). -/
def Obligations.ResetZeroesTheMachine : Prop :=
  (∀ r, State.reset.reg r = 0) ∧ State.reset.pc = 0 ∧ State.reset.psr = 0 ∧
  (∀ a, Memory.readWord State.reset.mem a = 0) ∧ State.reset.mcr = 0 ∧ State.reset.run = .uninitialized ∧
  State.reset.out = [] ∧ State.reset.tc = 0 ∧ State.reset.fault = none

/-- `initialize()` (R321, R322; decisions D8, D10, D11, D16, log entries 5, 12, 18, 20): zeroed registers and PSR, R6 at the
stack top, pc at 0x3000, the clock bit set and MCR's other bits kept, the firmware in memory, every other word and everything
else unchanged. -/
def Obligations.InitialisationStartsTheEngine : Prop :=
  ∀ s : State, Memory.wf s.mem = true → s.run = .uninitialized ∨ s.run = .running ∨ s.run = .halted →
    (∀ p ∈ s.cfg.trapFirmware, p.1.toNat < 0xFE00) →
    ∃ t, initializeEngine s = .next t ∧
      (∀ r, r ≠ 6 → t.reg r = 0) ∧ (t.reg 6 = 0xFDFF ∨ t.reg 6 = 0xFE00) ∧ t.reg 6 = s.cfg.userStackTop.toWord ∧
      t.pc = 0x3000 ∧ t.psr = 0 ∧ t.mcr.getLsbD 15 = true ∧ (∀ n, n < 15 → t.mcr.getLsbD n = s.mcr.getLsbD n) ∧
      t.run = .running ∧
      (∀ a : Nat, (∀ p ∈ s.cfg.trapFirmware, p.1.toNat ≠ a) → Memory.readWord t.mem a = Memory.readWord s.mem a) ∧
      ((s.cfg.trapFirmware.map Prod.fst).Nodup →
        ∀ p ∈ s.cfg.trapFirmware, Memory.readWord t.mem p.1.toNat = p.2) ∧
      t.out = s.out ∧ t.tc = s.tc ∧ t.fault = s.fault ∧ t.cfg = s.cfg ∧ t.trace = s.trace ∧ devicePortsOf s t

/-- The reference firmware conforms: it writes 0x0000 to 0x2FFF only, its six vectors point into the privileged region, and its
110 words have distinct addresses (R298, R299, R306, decision D9, log entry 6). -/
def Obligations.TheReferenceFirmwareConforms : Prop :=
  firmwareConforms referenceFirmware = true ∧ referenceFirmware.length = 110 ∧
  (referenceFirmware.map Prod.fst).Nodup ∧
  ∀ p ∈ [(0x0020, 0x0200), (0x0021, 0x0206), (0x0022, 0x020F), (0x0023, 0x0228), (0x0024, 0x0236), (0x0025, 0x0264)],
    p ∈ referenceFirmware

/-- R80: bytes 2k and 2k+1 of the image form the word `b[2k+1], b[2k]`, with `b[2k]` in bits 7:0, written at base + k; an
image of even length is accepted wherever `load` is enabled. -/
def Obligations.TheLoaderPairsBytesLittleEndian : Prop :=
  ∀ (base : Word) (bytes : List Byte) (s : State), Memory.wf s.mem = true →
    s.run ≠ .faulted → s.run ≠ .refused → bytes.length % 2 = 0 →
    ∃ t short, load base bytes s = .next (t, short) ∧
      ∀ (k : Nat) (lo hi : Byte), bytes[2 * k]? = some lo → bytes[2 * k + 1]? = some hi → base.toNat + k < 0xFE00 →
        Memory.readWord t.mem (base.toNat + k) = hi ++ lo

/-- R81: the loader writes only the words that fit below the device window, reports a short write exactly when some do not,
and touches nothing else: no other byte, no device register, no other state. Base 0 takes 130048 bytes. -/
def Obligations.TheLoaderStopsAtTheDeviceWindow : Prop :=
  ∀ (base : Word) (bytes : List Byte) (s t : State) (short : Bool), Memory.wf s.mem = true →
    load base bytes s = .next (t, short) →
    (short = true ↔ bytes.length / 2 > 0xFE00 - base.toNat) ∧
    (base = 0 → (short = true ↔ 130048 < bytes.length)) ∧
    (∀ k, (k < 2 * base.toNat ∨ 2 * base.toNat + bytes.length ≤ k ∨ 0x1FC00 ≤ k) →
      Memory.readByte t.mem k = Memory.readByte s.mem k) ∧
    t = { s with mem := t.mem }

/-- An image of odd length is refused (R83, decision D24, log entry 21). -/
def Obligations.OddImagesAreRefused : Prop :=
  ∀ (base : Word) (bytes : List Byte) (s : State), s.run ≠ .faulted → s.run ≠ .refused → bytes.length % 2 = 1 →
    load base bytes s = .refused .oddImage

/-- R249: `run()` steps while the engine runs, the clock bit is set and the host has not stopped (after `n` steps), resumes from
Halted only with the clock bit set (decision D17, log entry 18), and ends in Halted, Faulted or Refused. -/
def Obligations.RunStepsWhileTheClockIsOn : Prop :=
  ∀ s : State, s.enabled = true →
    (∀ n, ∃ t, hostRun n s = .next t ∧ (t.run = .halted ∨ t.run = .faulted ∨ t.run = .refused)) ∧
    (∀ n, s.clockOn = false → hostRun n s = .next { s with run := .halted }) ∧
    hostRun 0 s = .next { s with run := .halted } ∧
    (∀ n u, s.clockOn = true → step { s with run := .running } = .next u →
      hostRun (n + 1) s = if u.run = .running then hostRun n u else .next u)

/-- The observer (R252, decision D25, log entry 22): the callback comes first, then its stop request, then the continue check,
then the step; a halted engine whose clock bit is set resumes first. That this holds under the plain executor too is the model's
choice (log entry 31). -/
def Obligations.TheObserverIsCalledBeforeEachStep : Prop :=
  ∀ (cb : Nat → State → Bool) (n k : Nat) (s : State),
    (s.enabled = true → runWithObserver cb n s =
      observeLoop cb n 0 (if s.run = .halted ∧ s.clockOn = true then { s with run := .running } else s)) ∧
    (cb k s = true → s.run = .running →
      observeLoop cb (n + 1) k s = .next ⟨{ s with run := .halted }, k + 1, true⟩) ∧
    (cb k s = false → ¬ (s.run = .running ∧ s.clockOn = true) →
      observeLoop cb (n + 1) k s = .next ⟨s, k + 1, true⟩) ∧
    (cb k s = false → s.run = .running → s.clockOn = true →
      ∃ t, step s = .next t ∧ observeLoop cb (n + 1) k s = observeLoop cb n (k + 1) t)

/-! ## The trap routines -/

/-- The reference firmware meets all three conditions of R298, and each call of its routines (R300 to R305) gives back what R307
says: R0, the flags of the last flag-setting operation, every other register, the saved registers in the save words and every
other word of memory as it was, and the exact device transactions. The keyboard may answer from the host's list or freely, and
the strings may stand at any address, read with the save words already written (R306). The counts are of the steps after the
TRAP's own. HALT ends the run at 0x0266 with MCR zero. The routines and their save words are the spec's decision D9 (log entry 6);
what a contract asks of another firmware is the model's reading (log entries 33 and 35). -/
def Obligations.TheReferenceRoutinesMeetTheirContracts : Prop :=
  conformingFirmware referenceFirmware ∧
  (∀ s u polls ready key, atService referenceFirmware saveWords 0x20 s → keyComes polls ready key s u →
    ∃ t, referenceCall (4 + 2 * polls.length) key key [] (keyReads polls ready key) [] u s t) ∧
  (∀ s, atService referenceFirmware saveWords 0x21 s →
    ∃ t, referenceCall 6 (s.reg 0) (s.reg 1) (outSaves s) [.write ddrAddr (s.reg 0)] [s.reg 0] s s t) ∧
  (∀ s u chars, atService referenceFirmware saveWords 0x22 s → stringAtR0 endsChars chars 0 (withSaves (putsSaves s) s) u →
    ∃ t, referenceCall (12 + 8 * chars.length) (s.reg 0) (s.reg 3) (putsSaves s)
      (stringEvents charBytes (s.reg 0) (chars ++ [0])) (chars.map (· &&& 0x00FF)) u s t) ∧
  (∀ s u polls ready key, atService referenceFirmware saveWords 0x23 s → keyComes polls ready key s u →
    ∃ t, referenceCall (9 + 2 * polls.length) key (s.reg 1) (inSaves s)
      (keyReads polls ready key ++ [.write ddrAddr key]) [key] u s t) ∧
  (∀ s u ws last, atService referenceFirmware saveWords 0x24 s →
    stringAtR0 endsPacked ws last (withSaves (putspSaves s) s) u →
    ∃ n t, referenceCall n (s.reg 0) (s.reg 5) (putspSaves s) (stringEvents packedBytes (s.reg 0) (ws ++ [last]))
      ((ws ++ [last]).flatMap packedBytes) u s t) ∧
  (∀ s, atService referenceFirmware saveWords 0x25 s →
    ∃ t, stepWhileClocked 2 s = .next t ∧ t.pc = 0x0266 ∧ leaves 0 0 [] s t ∧ displayed [] [] s t ∧ sameAnswers s t ∧
      t.mcr = 0 ∧ t.run = .halted ∧ t.tc = s.tc + 2)
end

