-- ==== Sys2Proof/Laws/Codec.lean ====
section
/-! SUPPORT. Fields of a concatenation, and signed fields: what the codec's proofs are made of. -/

namespace Sys2Proof

/-- A field that lies in the left part of a concatenation. -/
theorem extract_append_left {n m : Nat} (x : BitVec n) (y : BitVec m) (lo k len : Nat) (h : lo = m + k) :
    (x ++ y).extractLsb' lo len = x.extractLsb' k len := by
  apply BitVec.eq_of_getLsbD_eq
  intro i hi
  have h1 : ¬ lo + i < m := by omega
  have h2 : lo + i - m = k + i := by omega
  simp [BitVec.getLsbD_append, h1, h2]

/-- A field that lies in the right part of a concatenation. -/
theorem extract_append_right {n m : Nat} (x : BitVec n) (y : BitVec m) (lo len : Nat) (h : lo + len ≤ m) :
    (x ++ y).extractLsb' lo len = y.extractLsb' lo len := by
  apply BitVec.eq_of_getLsbD_eq
  intro i hi
  have h1 : lo + i < m := by omega
  simp [BitVec.getLsbD_append, h1]

/-- The whole of a vector. -/
theorem extract_all {n : Nat} (x : BitVec n) : x.extractLsb' 0 n = x := by
  apply BitVec.eq_of_getLsbD_eq
  intro i hi
  simp [hi]

/-- A field of `n` bits holds every number in its range (R125). -/
theorem toInt_ofInt_of_fits {n : Nat} (hn : 0 < n) {v : Int} (h : fitsSigned n v = true) :
    (BitVec.ofInt n v).toInt = v := by
  simp only [fitsSigned, Bool.and_eq_true, decide_eq_true_eq] at h
  have e : ((2 ^ n : Nat) : Int) = 2 * 2 ^ (n - 1) := by
    obtain ⟨k, rfl⟩ : ∃ k, n = k + 1 := ⟨n - 1, by omega⟩
    simp [pow_succ]; ring
  rw [BitVec.toInt_ofInt, Int.bmod_eq_of_le] <;> omega

/-- A signed field always lies in its range. -/
theorem fits_toInt {n : Nat} (x : BitVec n) : fitsSigned n x.toInt = true := by
  have h1 := BitVec.le_toInt x
  have h2 := BitVec.toInt_lt (x := x)
  simp only [fitsSigned, Bool.and_eq_true, decide_eq_true_eq]
  exact ⟨h1, h2⟩

end Sys2Proof
end

