-- ==== Sys2Proof/Laws/Memory.lean ====
section
/-! SUPPORT. The laws of the memory operations: read after write, and that every operation keeps the canonical form. -/

namespace Sys2Proof.Machine

@[simp] theorem Memory.readByte_nil (k : Nat) : Memory.readByte [] k = unlistedByte := rfl

@[simp] theorem Memory.readByte_cons (b : Nat) (u : Byte) (m : Memory) (k : Nat) :
    Memory.readByte ((b, u) :: m) k = if b = k then u else Memory.readByte m k := rfl

@[simp] theorem Memory.wfFrom_nil (lo : Nat) : Memory.wfFrom lo [] = true := rfl

theorem Memory.wfFrom_cons {lo b : Nat} {u : Byte} {m : Memory} :
    Memory.wfFrom lo ((b, u) :: m) = true ↔
      lo ≤ b ∧ b < memoryBytes ∧ u ≠ unlistedByte ∧ Memory.wfFrom (b + 1) m = true := by
  simp [Memory.wfFrom, and_assoc]

/-- A lower bound on the keys may be lowered. -/
theorem Memory.wfFrom_mono {lo lo' : Nat} {m : Memory} (h : lo' ≤ lo) (hm : Memory.wfFrom lo m = true) :
    Memory.wfFrom lo' m = true := by
  cases m with
  | nil => rfl
  | cons c m =>
    obtain ⟨b, u⟩ := c
    rw [Memory.wfFrom_cons] at hm ⊢
    exact ⟨le_trans h hm.1, hm.2⟩

/-- No key below the bound is listed. -/
theorem Memory.readByte_below {lo k : Nat} {m : Memory} (hm : Memory.wfFrom lo m = true) (h : k < lo) :
    Memory.readByte m k = unlistedByte := by
  induction m generalizing lo with
  | nil => rfl
  | cons c m ih =>
    obtain ⟨b, u⟩ := c
    rw [Memory.wfFrom_cons] at hm
    rw [Memory.readByte_cons, if_neg (by omega)]
    exact ih hm.2.2.2 (by omega)

/-- Reading a byte of a canonical memory after a write. -/
theorem Memory.readByte_writeByte {lo : Nat} {m : Memory} (hm : Memory.wfFrom lo m = true) (k : Nat) (v : Byte) (j : Nat) :
    Memory.readByte (Memory.writeByte m k v) j = if j = k then v else Memory.readByte m j := by
  induction m generalizing lo with
  | nil =>
    simp only [Memory.writeByte, Memory.consByte]
    split
    · next h => simp [h]
    · simp [eq_comm]
  | cons c m ih =>
    obtain ⟨b, u⟩ := c
    rw [Memory.wfFrom_cons] at hm
    simp only [Memory.writeByte]
    have below : ∀ {i}, i ≤ b → Memory.readByte m i = unlistedByte :=
      fun h => Memory.readByte_below hm.2.2.2 (by omega)
    by_cases h1 : k < b
    · rw [if_pos h1, Memory.consByte]
      by_cases hv : v = unlistedByte
      · rw [if_pos hv]
        by_cases hj : j = k
        · subst hj
          rw [if_pos rfl, Memory.readByte_cons, if_neg (by omega), below (by omega), hv]
        · rw [if_neg hj]
      · rw [if_neg hv, Memory.readByte_cons]
        simp only [eq_comm]
    · rw [if_neg h1]
      by_cases h2 : k = b
      · rw [if_pos h2, Memory.consByte]
        subst h2
        by_cases hv : v = unlistedByte
        · rw [if_pos hv]
          by_cases hj : j = k
          · subst hj; rw [if_pos rfl, below le_rfl, hv]
          · rw [if_neg hj, Memory.readByte_cons, if_neg (fun e => hj e.symm)]
        · rw [if_neg hv, Memory.readByte_cons, Memory.readByte_cons]
          by_cases hj : j = k
          · simp [hj]
          · simp [hj, Ne.symm hj]
      · rw [if_neg h2, Memory.readByte_cons, Memory.readByte_cons, ih hm.2.2.2]
        by_cases hb : b = j
        · subst hb; simp [Ne.symm h2]
        · simp [hb]

/-- Writing a byte of the array keeps the canonical form. -/
theorem Memory.wfFrom_writeByte {lo : Nat} {m : Memory} (hm : Memory.wfFrom lo m = true) {k : Nat} (hlo : lo ≤ k)
    (hk : k < memoryBytes) (v : Byte) : Memory.wfFrom lo (Memory.writeByte m k v) = true := by
  induction m generalizing lo with
  | nil =>
    simp only [Memory.writeByte, Memory.consByte]
    split
    · rfl
    · next h => rw [Memory.wfFrom_cons]; exact ⟨hlo, hk, h, rfl⟩
  | cons c m ih =>
    obtain ⟨b, u⟩ := c
    have hm' := Memory.wfFrom_cons.mp hm
    simp only [Memory.writeByte]
    by_cases h1 : k < b
    · rw [if_pos h1, Memory.consByte]
      split
      · exact hm
      · next h =>
        rw [Memory.wfFrom_cons]
        exact ⟨hlo, hk, h, Memory.wfFrom_cons.mpr ⟨h1, hm'.2⟩⟩
    · rw [if_neg h1]
      by_cases h2 : k = b
      · rw [if_pos h2, Memory.consByte]
        subst h2
        split
        · exact Memory.wfFrom_mono (by omega) hm'.2.2.2
        · next h => exact Memory.wfFrom_cons.mpr ⟨hlo, hk, h, hm'.2.2.2⟩
      · rw [if_neg h2, Memory.wfFrom_cons]
        exact ⟨hm'.1, hm'.2.1, hm'.2.2.1, ih hm'.2.2.2 (by omega)⟩

theorem Memory.wf_writeByte {m : Memory} (hm : Memory.wf m = true) {k : Nat} (hk : k < memoryBytes) (v : Byte) :
    Memory.wf (Memory.writeByte m k v) = true := Memory.wfFrom_writeByte hm (Nat.zero_le k) hk v

/-- Writing a word of the array keeps the canonical form. -/
theorem Memory.wf_writeWord {m : Memory} (hm : Memory.wf m = true) {a : Nat} (ha : a < 0xFE00) (v : Word) :
    Memory.wf (Memory.writeWord m a v) = true := by
  have hb : 2 * a + 1 < memoryBytes := by simp only [memoryBytes]; omega
  exact Memory.wf_writeByte (Memory.wf_writeByte hm (by omega) _) hb _

/-- A byte read after a word write. -/
theorem Memory.readByte_writeWord {m : Memory} (hm : Memory.wf m = true) {a : Nat} (ha : a < 0xFE00) (v : Word) (k : Nat) :
    Memory.readByte (Memory.writeWord m a v) k =
      if k = 2 * a + 1 then v.extractLsb' 8 8 else if k = 2 * a then v.extractLsb' 0 8 else Memory.readByte m k := by
  have hb : 2 * a < memoryBytes := by simp only [memoryBytes]; omega
  rw [Memory.writeWord, Memory.readByte_writeByte (Memory.wf_writeByte hm hb _), Memory.readByte_writeByte hm]

/-- A word is its two bytes, the high one first. -/
theorem word_of_bytes (v : Word) : v.extractLsb' 8 8 ++ v.extractLsb' 0 8 = v := by
  apply BitVec.eq_of_getLsbD_eq
  intro i hi
  rw [BitVec.getLsbD_append]
  by_cases h : i < 8
  · simp [h]
  · have e : 8 + (i - 8) = i := by omega
    have h' : i - 8 < 8 := by omega
    simp [h, h', e]

/-- Reading a word after a write (R85). -/
theorem Memory.readWord_writeWord {m : Memory} (hm : Memory.wf m = true) {a : Nat} (ha : a < 0xFE00) (v : Word) (b : Nat) :
    Memory.readWord (Memory.writeWord m a v) b = if b = a then v else Memory.readWord m b := by
  rw [Memory.readWord, Memory.readByte_writeWord hm ha, Memory.readByte_writeWord hm ha]
  by_cases h : b = a
  · subst h
    simp only [if_true]
    rw [if_neg (by omega)]
    exact word_of_bytes v
  · rw [if_neg (by omega), if_neg (by omega), if_neg (by omega), if_neg (by omega), if_neg h, Memory.readWord]

/-- A contiguous segment below the window keeps the canonical form. -/
theorem Memory.wf_writeSegment {m : Memory} (hm : Memory.wf m = true) {a : Nat} {ws : List Word}
    (h : a + ws.length ≤ 0xFE00) : Memory.wf (Memory.writeSegment m a ws) = true := by
  induction ws generalizing m a with
  | nil => exact hm
  | cons w ws ih =>
    simp only [List.length_cons] at h
    exact ih (Memory.wf_writeWord hm (by omega) w) (by omega)

/-- Pairs below the window keep the canonical form. -/
theorem Memory.wf_writePairs {m : Memory} (hm : Memory.wf m = true) {ps : List (Word × Word)}
    (h : ∀ p ∈ ps, p.1.toNat < 0xFE00) : Memory.wf (Memory.writePairs m ps) = true := by
  induction ps generalizing m with
  | nil => exact hm
  | cons p ps ih =>
    obtain ⟨a, v⟩ := p
    have ha : a.toNat < 0xFE00 := h (a, v) (by simp)
    exact ih (Memory.wf_writeWord hm ha v) (fun q hq => h q (by simp [hq]))

end Sys2Proof.Machine
end

