-- ==== Sys2Proof/Laws/State.lean ====
section
/-! SUPPORT. One lemma per field per named update of State, each true by `rfl`, and the register-file laws, so that no
later proof unfolds a record update. -/

namespace Sys2Proof.Machine

@[simp] theorem State.setReg_regs (s : State) (r : RegIdx) (v : Word) : (s.setReg r v).regs = s.regs.set r.val v := rfl
@[simp] theorem State.setReg_pc (s : State) (r : RegIdx) (v : Word) : (s.setReg r v).pc = s.pc := rfl
@[simp] theorem State.setReg_psr (s : State) (r : RegIdx) (v : Word) : (s.setReg r v).psr = s.psr := rfl
@[simp] theorem State.setReg_mem (s : State) (r : RegIdx) (v : Word) : (s.setReg r v).mem = s.mem := rfl
@[simp] theorem State.setReg_mcr (s : State) (r : RegIdx) (v : Word) : (s.setReg r v).mcr = s.mcr := rfl
@[simp] theorem State.setReg_run (s : State) (r : RegIdx) (v : Word) : (s.setReg r v).run = s.run := rfl
@[simp] theorem State.setReg_out (s : State) (r : RegIdx) (v : Word) : (s.setReg r v).out = s.out := rfl
@[simp] theorem State.setReg_tc (s : State) (r : RegIdx) (v : Word) : (s.setReg r v).tc = s.tc := rfl
@[simp] theorem State.setReg_fault (s : State) (r : RegIdx) (v : Word) : (s.setReg r v).fault = s.fault := rfl
@[simp] theorem State.setReg_cfg (s : State) (r : RegIdx) (v : Word) : (s.setReg r v).cfg = s.cfg := rfl
@[simp] theorem State.setReg_trace (s : State) (r : RegIdx) (v : Word) : (s.setReg r v).trace = s.trace := rfl
@[simp] theorem State.setReg_portLog (s : State) (r : RegIdx) (v : Word) : (s.setReg r v).portLog = s.portLog := rfl
@[simp] theorem State.setReg_kbdIn (s : State) (r : RegIdx) (v : Word) : (s.setReg r v).kbdIn = s.kbdIn := rfl
@[simp] theorem State.setReg_devIn (s : State) (r : RegIdx) (v : Word) : (s.setReg r v).devIn = s.devIn := rfl
@[simp] theorem State.setReg_draws (s : State) (r : RegIdx) (v : Word) : (s.setReg r v).draws = s.draws := rfl

@[simp] theorem State.jumpTo_regs (s : State) (a : Word) : (s.jumpTo a).regs = s.regs := rfl
@[simp] theorem State.jumpTo_pc (s : State) (a : Word) : (s.jumpTo a).pc = a := rfl
@[simp] theorem State.jumpTo_psr (s : State) (a : Word) : (s.jumpTo a).psr = s.psr := rfl
@[simp] theorem State.jumpTo_mem (s : State) (a : Word) : (s.jumpTo a).mem = s.mem := rfl
@[simp] theorem State.jumpTo_mcr (s : State) (a : Word) : (s.jumpTo a).mcr = s.mcr := rfl
@[simp] theorem State.jumpTo_run (s : State) (a : Word) : (s.jumpTo a).run = s.run := rfl
@[simp] theorem State.jumpTo_out (s : State) (a : Word) : (s.jumpTo a).out = s.out := rfl
@[simp] theorem State.jumpTo_tc (s : State) (a : Word) : (s.jumpTo a).tc = s.tc := rfl
@[simp] theorem State.jumpTo_fault (s : State) (a : Word) : (s.jumpTo a).fault = s.fault := rfl
@[simp] theorem State.jumpTo_cfg (s : State) (a : Word) : (s.jumpTo a).cfg = s.cfg := rfl
@[simp] theorem State.jumpTo_trace (s : State) (a : Word) : (s.jumpTo a).trace = s.trace := rfl
@[simp] theorem State.jumpTo_portLog (s : State) (a : Word) : (s.jumpTo a).portLog = s.portLog := rfl
@[simp] theorem State.jumpTo_kbdIn (s : State) (a : Word) : (s.jumpTo a).kbdIn = s.kbdIn := rfl
@[simp] theorem State.jumpTo_devIn (s : State) (a : Word) : (s.jumpTo a).devIn = s.devIn := rfl
@[simp] theorem State.jumpTo_draws (s : State) (a : Word) : (s.jumpTo a).draws = s.draws := rfl

@[simp] theorem State.setcc_regs (s : State) (v : Word) : (s.setcc v).regs = s.regs := rfl
@[simp] theorem State.setcc_pc (s : State) (v : Word) : (s.setcc v).pc = s.pc := rfl
@[simp] theorem State.setcc_psr (s : State) (v : Word) : (s.setcc v).psr = withNzp s.psr (flagsOf v) := rfl
@[simp] theorem State.setcc_mem (s : State) (v : Word) : (s.setcc v).mem = s.mem := rfl
@[simp] theorem State.setcc_mcr (s : State) (v : Word) : (s.setcc v).mcr = s.mcr := rfl
@[simp] theorem State.setcc_run (s : State) (v : Word) : (s.setcc v).run = s.run := rfl
@[simp] theorem State.setcc_out (s : State) (v : Word) : (s.setcc v).out = s.out := rfl
@[simp] theorem State.setcc_tc (s : State) (v : Word) : (s.setcc v).tc = s.tc := rfl
@[simp] theorem State.setcc_fault (s : State) (v : Word) : (s.setcc v).fault = s.fault := rfl
@[simp] theorem State.setcc_cfg (s : State) (v : Word) : (s.setcc v).cfg = s.cfg := rfl
@[simp] theorem State.setcc_trace (s : State) (v : Word) : (s.setcc v).trace = s.trace := rfl
@[simp] theorem State.setcc_portLog (s : State) (v : Word) : (s.setcc v).portLog = s.portLog := rfl
@[simp] theorem State.setcc_kbdIn (s : State) (v : Word) : (s.setcc v).kbdIn = s.kbdIn := rfl
@[simp] theorem State.setcc_devIn (s : State) (v : Word) : (s.setcc v).devIn = s.devIn := rfl
@[simp] theorem State.setcc_draws (s : State) (v : Word) : (s.setcc v).draws = s.draws := rfl

@[simp] theorem State.writeResult_regs (s : State) (r : RegIdx) (v : Word) : (s.writeResult r v).regs = s.regs.set r.val v := rfl
@[simp] theorem State.writeResult_pc (s : State) (r : RegIdx) (v : Word) : (s.writeResult r v).pc = s.pc := rfl
@[simp] theorem State.writeResult_psr (s : State) (r : RegIdx) (v : Word) : (s.writeResult r v).psr = withNzp s.psr (flagsOf v) := rfl
@[simp] theorem State.writeResult_mem (s : State) (r : RegIdx) (v : Word) : (s.writeResult r v).mem = s.mem := rfl
@[simp] theorem State.writeResult_mcr (s : State) (r : RegIdx) (v : Word) : (s.writeResult r v).mcr = s.mcr := rfl
@[simp] theorem State.writeResult_run (s : State) (r : RegIdx) (v : Word) : (s.writeResult r v).run = s.run := rfl
@[simp] theorem State.writeResult_out (s : State) (r : RegIdx) (v : Word) : (s.writeResult r v).out = s.out := rfl
@[simp] theorem State.writeResult_tc (s : State) (r : RegIdx) (v : Word) : (s.writeResult r v).tc = s.tc := rfl
@[simp] theorem State.writeResult_fault (s : State) (r : RegIdx) (v : Word) : (s.writeResult r v).fault = s.fault := rfl
@[simp] theorem State.writeResult_cfg (s : State) (r : RegIdx) (v : Word) : (s.writeResult r v).cfg = s.cfg := rfl
@[simp] theorem State.writeResult_trace (s : State) (r : RegIdx) (v : Word) : (s.writeResult r v).trace = s.trace := rfl
@[simp] theorem State.writeResult_portLog (s : State) (r : RegIdx) (v : Word) : (s.writeResult r v).portLog = s.portLog := rfl
@[simp] theorem State.writeResult_kbdIn (s : State) (r : RegIdx) (v : Word) : (s.writeResult r v).kbdIn = s.kbdIn := rfl
@[simp] theorem State.writeResult_devIn (s : State) (r : RegIdx) (v : Word) : (s.writeResult r v).devIn = s.devIn := rfl
@[simp] theorem State.writeResult_draws (s : State) (r : RegIdx) (v : Word) : (s.writeResult r v).draws = s.draws := rfl

@[simp] theorem State.link_regs (s : State) : (s.link).regs = s.regs.set 7 s.pc := rfl
@[simp] theorem State.link_pc (s : State) : (s.link).pc = s.pc := rfl
@[simp] theorem State.link_psr (s : State) : (s.link).psr = s.psr := rfl
@[simp] theorem State.link_mem (s : State) : (s.link).mem = s.mem := rfl
@[simp] theorem State.link_mcr (s : State) : (s.link).mcr = s.mcr := rfl
@[simp] theorem State.link_run (s : State) : (s.link).run = s.run := rfl
@[simp] theorem State.link_out (s : State) : (s.link).out = s.out := rfl
@[simp] theorem State.link_tc (s : State) : (s.link).tc = s.tc := rfl
@[simp] theorem State.link_fault (s : State) : (s.link).fault = s.fault := rfl
@[simp] theorem State.link_cfg (s : State) : (s.link).cfg = s.cfg := rfl
@[simp] theorem State.link_trace (s : State) : (s.link).trace = s.trace := rfl
@[simp] theorem State.link_portLog (s : State) : (s.link).portLog = s.portLog := rfl
@[simp] theorem State.link_kbdIn (s : State) : (s.link).kbdIn = s.kbdIn := rfl
@[simp] theorem State.link_devIn (s : State) : (s.link).devIn = s.devIn := rfl
@[simp] theorem State.link_draws (s : State) : (s.link).draws = s.draws := rfl

/-! ## The register file -/

@[simp] theorem State.reg_setReg_self (s : State) (r : RegIdx) (v : Word) : (s.setReg r v).reg r = v := by
  simp [State.reg]

theorem State.reg_setReg_of_ne (s : State) {r q : RegIdx} (v : Word) (h : q ≠ r) : (s.setReg r v).reg q = s.reg q := by
  have h' : r.val ≠ q.val := fun e => h (Fin.ext e.symm)
  simp [State.reg, h']

/-- Reading a register after a write (R20). -/
theorem State.reg_setReg (s : State) (r q : RegIdx) (v : Word) :
    (s.setReg r v).reg q = if q = r then v else s.reg q := by
  split
  · next h => subst h; exact s.reg_setReg_self q v
  · next h => exact s.reg_setReg_of_ne v h

@[simp] theorem State.reg_jumpTo (s : State) (a : Word) (q : RegIdx) : (s.jumpTo a).reg q = s.reg q := rfl

@[simp] theorem State.reg_setcc (s : State) (v : Word) (q : RegIdx) : (s.setcc v).reg q = s.reg q := rfl

theorem State.reg_writeResult (s : State) (r q : RegIdx) (v : Word) :
    (s.writeResult r v).reg q = if q = r then v else s.reg q := s.reg_setReg r q v

theorem State.reg_link (s : State) (q : RegIdx) : s.link.reg q = if q = 7 then s.pc else s.reg q := s.reg_setReg 7 q s.pc

/-- Two states with the same register file read alike. -/
theorem State.reg_congr {s t : State} (h : t.regs = s.regs) (q : RegIdx) : t.reg q = s.reg q := by
  simp [State.reg, h]

end Sys2Proof.Machine
end

