-- ==== Sys2Proof/Laws/Ops.lean ====
section
/-! SUPPORT. What each shared operation can do, said once: the multiplexer, the pops, the fetch, the trace, the end of a
step, and that every operation gives a next state. -/

namespace Sys2Proof.Machine

/-! ## Reads -/

theorem memRead_below {a : Word} (h : a < windowBase) (s : State) :
    memRead a s = (Memory.readWord s.mem a.toNat, s) := if_pos h

theorem memRead_window {a : Word} (h : ¬ a < windowBase) (s : State) : memRead a s = devRead a s := if_neg h

/-- A device read is one of four: a keyboard answer, the DSR word, the stored MCR, or another device's answer. -/
theorem devRead_cases (a : Word) (s : State) :
    devRead a s = readKeyboard a s ∨ devRead a s = (dsrReady, s) ∨ devRead a s = (s.mcr, s) ∨
      devRead a s = readOtherDevice a s := by
  simp only [devRead]
  split_ifs <;> simp

/-- A keyboard read takes one host answer and records it. -/
theorem readKeyboard_spec (a : Word) (s : State) : ∃ v rest,
    readKeyboard a s = (v, State.answered { s with kbdIn := rest } a v) := by
  rcases s with ⟨_, _, _, _, _, _, _, _, _, _, _, _, k, _, _⟩
  cases k with
  | nil => exact ⟨_, [], rfl⟩
  | cons v rest => exact ⟨v, rest, rfl⟩

/-- So does a read of another device. -/
theorem readOtherDevice_spec (a : Word) (s : State) : ∃ v rest,
    readOtherDevice a s = (v, State.answered { s with devIn := rest } a v) := by
  rcases s with ⟨_, _, _, _, _, _, _, _, _, _, _, _, _, d, _⟩
  cases d with
  | nil => exact ⟨_, [], rfl⟩
  | cons v rest => exact ⟨v, rest, rfl⟩

/-- Everything a memory read can do to the state: nothing, or take one host answer and record it. -/
theorem memRead_spec (a : Word) (s : State) : (memRead a s).2 = s ∨
    ∃ kbd dev, (memRead a s).2 =
      State.answered { s with kbdIn := kbd, devIn := dev } a (memRead a s).1 := by
  by_cases h : a < windowBase
  · rw [memRead_below h]; exact Or.inl rfl
  · rw [memRead_window h]
    rcases devRead_cases a s with e | e | e | e
    · obtain ⟨v, rest, e'⟩ := readKeyboard_spec a s
      rw [e, e']; exact Or.inr ⟨rest, s.devIn, rfl⟩
    · rw [e]; exact Or.inl rfl
    · rw [e]; exact Or.inl rfl
    · obtain ⟨v, rest, e'⟩ := readOtherDevice_spec a s
      rw [e, e']; exact Or.inr ⟨s.kbdIn, rest, rfl⟩

/-! A memory read leaves everything but the host's answers and the device record as it was. -/

@[simp] theorem memRead_regs (a : Word) (s : State) : (memRead a s).2.regs = s.regs := by
  rcases memRead_spec a s with h | ⟨_, _, h⟩ <;> simp [h, State.answered]

@[simp] theorem memRead_pc (a : Word) (s : State) : (memRead a s).2.pc = s.pc := by
  rcases memRead_spec a s with h | ⟨_, _, h⟩ <;> simp [h, State.answered]

@[simp] theorem memRead_psr (a : Word) (s : State) : (memRead a s).2.psr = s.psr := by
  rcases memRead_spec a s with h | ⟨_, _, h⟩ <;> simp [h, State.answered]

@[simp] theorem memRead_mem (a : Word) (s : State) : (memRead a s).2.mem = s.mem := by
  rcases memRead_spec a s with h | ⟨_, _, h⟩ <;> simp [h, State.answered]

@[simp] theorem memRead_mcr (a : Word) (s : State) : (memRead a s).2.mcr = s.mcr := by
  rcases memRead_spec a s with h | ⟨_, _, h⟩ <;> simp [h, State.answered]

@[simp] theorem memRead_run (a : Word) (s : State) : (memRead a s).2.run = s.run := by
  rcases memRead_spec a s with h | ⟨_, _, h⟩ <;> simp [h, State.answered]

@[simp] theorem memRead_out (a : Word) (s : State) : (memRead a s).2.out = s.out := by
  rcases memRead_spec a s with h | ⟨_, _, h⟩ <;> simp [h, State.answered]

@[simp] theorem memRead_tc (a : Word) (s : State) : (memRead a s).2.tc = s.tc := by
  rcases memRead_spec a s with h | ⟨_, _, h⟩ <;> simp [h, State.answered]

@[simp] theorem memRead_fault (a : Word) (s : State) : (memRead a s).2.fault = s.fault := by
  rcases memRead_spec a s with h | ⟨_, _, h⟩ <;> simp [h, State.answered]

@[simp] theorem memRead_cfg (a : Word) (s : State) : (memRead a s).2.cfg = s.cfg := by
  rcases memRead_spec a s with h | ⟨_, _, h⟩ <;> simp [h, State.answered]

@[simp] theorem memRead_trace (a : Word) (s : State) : (memRead a s).2.trace = s.trace := by
  rcases memRead_spec a s with h | ⟨_, _, h⟩ <;> simp [h, State.answered]

@[simp] theorem memRead_reg (a : Word) (s : State) (r : RegIdx) : (memRead a s).2.reg r = s.reg r :=
  State.reg_congr (memRead_regs a s) r

/-- The word a read gives depends only on memory, MCR, the host's answers and how many were taken. -/
theorem memRead_congr {s t : State} (a : Word) (hm : t.mem = s.mem) (hc : t.mcr = s.mcr) (hk : t.kbdIn = s.kbdIn)
    (hd : t.devIn = s.devIn) (hn : t.draws = s.draws) : (memRead a t).1 = (memRead a s).1 := by
  rcases s with ⟨_, _, _, _, _, _, _, _, _, _, _, _, k, d, _⟩
  rcases t with ⟨_, _, _, _, _, _, _, _, _, _, _, _, k', d', _⟩
  cases hm; cases hc; cases hk; cases hd; cases hn
  simp only [memRead, devRead, readKeyboard, readOtherDevice]
  split_ifs <;> first | rfl | (cases k <;> rfl) | (cases d <;> rfl)

/-! ## Writes -/

theorem memWrite_below {a : Word} (h : a < windowBase) (v : Word) (s : State) :
    memWrite a v s = { s with mem := Memory.writeWord s.mem a.toNat v } := if_pos h

theorem memWrite_window {a : Word} (h : ¬ a < windowBase) (v : Word) (s : State) :
    memWrite a v s = devWrite a v s := if_neg h

/-- Everything a memory write can do: write one word of the array, store MCR, or hand a word to the host (and to `out`,
for DDR). -/
theorem memWrite_spec (a v : Word) (s : State) :
    (a < windowBase ∧ memWrite a v s = { s with mem := Memory.writeWord s.mem a.toNat v }) ∨
    (a = mcrAddr ∧ memWrite a v s = { s with mcr := v }) ∨
    (a = ddrAddr ∧ memWrite a v s = { s with out := s.out ++ [v], portLog := s.portLog ++ [.write a v] }) ∨
    (¬ a < windowBase ∧ a ≠ mcrAddr ∧ a ≠ ddrAddr ∧ memWrite a v s = { s with portLog := s.portLog ++ [.write a v] }) := by
  by_cases h : a < windowBase
  · exact Or.inl ⟨h, memWrite_below h v s⟩
  · rw [memWrite_window h, devWrite]
    split_ifs with h1 h2
    · exact Or.inr (Or.inl ⟨h1, rfl⟩)
    · exact Or.inr (Or.inr (Or.inl ⟨h2, rfl⟩))
    · exact Or.inr (Or.inr (Or.inr ⟨h, h1, h2, rfl⟩))

@[simp] theorem memWrite_regs (a v : Word) (s : State) : (memWrite a v s).regs = s.regs := by
  rcases memWrite_spec a v s with ⟨_, h⟩ | ⟨_, h⟩ | ⟨_, h⟩ | ⟨_, _, _, h⟩ <;> rw [h]

@[simp] theorem memWrite_pc (a v : Word) (s : State) : (memWrite a v s).pc = s.pc := by
  rcases memWrite_spec a v s with ⟨_, h⟩ | ⟨_, h⟩ | ⟨_, h⟩ | ⟨_, _, _, h⟩ <;> rw [h]

@[simp] theorem memWrite_psr (a v : Word) (s : State) : (memWrite a v s).psr = s.psr := by
  rcases memWrite_spec a v s with ⟨_, h⟩ | ⟨_, h⟩ | ⟨_, h⟩ | ⟨_, _, _, h⟩ <;> rw [h]

@[simp] theorem memWrite_run (a v : Word) (s : State) : (memWrite a v s).run = s.run := by
  rcases memWrite_spec a v s with ⟨_, h⟩ | ⟨_, h⟩ | ⟨_, h⟩ | ⟨_, _, _, h⟩ <;> rw [h]

@[simp] theorem memWrite_tc (a v : Word) (s : State) : (memWrite a v s).tc = s.tc := by
  rcases memWrite_spec a v s with ⟨_, h⟩ | ⟨_, h⟩ | ⟨_, h⟩ | ⟨_, _, _, h⟩ <;> rw [h]

@[simp] theorem memWrite_fault (a v : Word) (s : State) : (memWrite a v s).fault = s.fault := by
  rcases memWrite_spec a v s with ⟨_, h⟩ | ⟨_, h⟩ | ⟨_, h⟩ | ⟨_, _, _, h⟩ <;> rw [h]

@[simp] theorem memWrite_cfg (a v : Word) (s : State) : (memWrite a v s).cfg = s.cfg := by
  rcases memWrite_spec a v s with ⟨_, h⟩ | ⟨_, h⟩ | ⟨_, h⟩ | ⟨_, _, _, h⟩ <;> rw [h]

@[simp] theorem memWrite_trace (a v : Word) (s : State) : (memWrite a v s).trace = s.trace := by
  rcases memWrite_spec a v s with ⟨_, h⟩ | ⟨_, h⟩ | ⟨_, h⟩ | ⟨_, _, _, h⟩ <;> rw [h]

@[simp] theorem memWrite_kbdIn (a v : Word) (s : State) : (memWrite a v s).kbdIn = s.kbdIn := by
  rcases memWrite_spec a v s with ⟨_, h⟩ | ⟨_, h⟩ | ⟨_, h⟩ | ⟨_, _, _, h⟩ <;> rw [h]

@[simp] theorem memWrite_devIn (a v : Word) (s : State) : (memWrite a v s).devIn = s.devIn := by
  rcases memWrite_spec a v s with ⟨_, h⟩ | ⟨_, h⟩ | ⟨_, h⟩ | ⟨_, _, _, h⟩ <;> rw [h]

@[simp] theorem memWrite_draws (a v : Word) (s : State) : (memWrite a v s).draws = s.draws := by
  rcases memWrite_spec a v s with ⟨_, h⟩ | ⟨_, h⟩ | ⟨_, h⟩ | ⟨_, _, _, h⟩ <;> rw [h]

@[simp] theorem memWrite_reg (a v : Word) (s : State) (r : RegIdx) : (memWrite a v s).reg r = s.reg r :=
  State.reg_congr (memWrite_regs a v s) r

/-- A memory write keeps the canonical form. -/
theorem memWrite_wf (a v : Word) {s : State} (h : Memory.wf s.mem = true) : Memory.wf (memWrite a v s).mem = true := by
  rcases memWrite_spec a v s with ⟨ha, e⟩ | ⟨_, e⟩ | ⟨_, e⟩ | ⟨_, _, _, e⟩ <;> rw [e]
  · exact Memory.wf_writeWord h (by simpa [BitVec.lt_def] using ha) v
  all_goals exact h

/-- A memory read changes no memory, so it keeps the canonical form. -/
theorem memRead_wf (a : Word) {s : State} (h : Memory.wf s.mem = true) : Memory.wf (memRead a s).2.mem = true := by
  rw [memRead_mem]; exact h

/-! ## Pops and the fetch -/

theorem popWord_fst (s : State) : (popWord s).1 = (memRead (s.reg 6) s).1 := rfl

theorem popWord_snd (s : State) : (popWord s).2 = (memRead (s.reg 6) s).2.setReg 6 (s.reg 6 + 1) := rfl

theorem fetch_fst (s : State) : (fetch s).1 = (memRead s.pc s).1 := rfl

theorem fetch_snd (s : State) : (fetch s).2 = (memRead s.pc s).2.jumpTo (s.pc + 1) := rfl

/-- The trace port does nothing but, perhaps, append one event. -/
theorem emitTrace_spec (i : Instr) (s : State) :
    emitTrace i s = s ∨ (s.cfg.traced = true ∧ i.isReserved = false ∧
      emitTrace i s = { s with trace := s.trace ++ [⟨s.tc, i⟩] }) := by
  rw [emitTrace]
  split
  · next h =>
    rw [Bool.and_eq_true, Bool.not_eq_true'] at h
    exact Or.inr ⟨h.1, h.2, rfl⟩
  · exact Or.inl rfl

/-- What the clock check can do: stop a running engine whose clock bit is clear. -/
theorem checkClock_spec (s : State) :
    (s.run = .running ∧ s.clockOn = false ∧ checkClock s = { s with run := .halted }) ∨
    (¬ (s.run = .running ∧ s.clockOn = false) ∧ checkClock s = s) := by
  by_cases h : s.run = .running ∧ s.clockOn = false
  · exact Or.inl ⟨h.1, h.2, if_pos h⟩
  · exact Or.inr ⟨h, if_neg h⟩

/-- The end of a step: nothing after a fault or a refusal, else the count and the clock check. -/
theorem retire_spec (s : State) :
    ((s.run = .faulted ∨ s.run = .refused) ∧ retire s = s) ∨
    (s.run ≠ .faulted ∧ s.run ≠ .refused ∧ retire s = checkClock { s with tc := s.tc + 1 }) := by
  rcases s with ⟨_, _, _, _, _, run, _, _, _, _, _, _, _, _, _⟩
  cases run <;> simp [retire]

/-! ## The operations -/

/-- Every operation gives a next state, whatever the state and the operands. -/
theorem exec_next (i : Instr) (s : State) : ∃ t, exec i s = .next t := by
  cases i with
  | jmpt base =>
    simp only [exec, execJmpt]
    cases s.cfg.jmptSemantics <;> exact ⟨_, rfl⟩
  | _ => exact ⟨_, rfl⟩

/-- Everything a cycle can do: take the decode fault of the fetched word, or run the decoded operation and end the step. -/
theorem cycle_cases {s t : State} (h : cycle s = .next t) :
    ((∃ e, decode (fetch s).1 = .error e) ∧ t = takeDecodeFault s.pc (fetch s).1 (fetch s).2) ∨
    (∃ i u, decode (fetch s).1 = .ok i ∧ exec i (emitTrace i (fetch s).2) = .next u ∧ t = retire u) := by
  simp only [cycle] at h
  cases hd : decode (fetch s).1 with
  | error e =>
    rw [hd] at h
    cases h
    exact Or.inl ⟨⟨e, rfl⟩, rfl⟩
  | ok i =>
    rw [hd] at h
    obtain ⟨u, hu⟩ := exec_next i (emitTrace i (fetch s).2)
    simp only [hu, retireOutcome] at h
    cases h
    exact Or.inr ⟨i, u, rfl, hu, rfl⟩

/-- A step that gives a next state ran a cycle from an enabled engine. -/
theorem step_cases {s t : State} (h : step s = .next t) : s.enabled = true ∧ cycle s = .next t := by
  rcases s with ⟨_, _, _, _, _, run, _, _, _, _, _, _, _, _, _⟩
  cases run <;> simp only [step] at h <;> first | exact ⟨rfl, h⟩ | cases h

/-- An enabled step is a cycle. -/
theorem step_enabled {s : State} (h : s.enabled = true) : step s = cycle s := by
  rcases s with ⟨_, _, _, _, _, run, _, _, _, _, _, _, _, _, _⟩
  cases run <;> first | rfl | cases h

end Sys2Proof.Machine
end

