-- ==== Sys2Proof/Laws/Exec.lean ====
section
/-! SUPPORT. What every operation does to each piece of control state, said once over all instructions. -/

namespace Sys2Proof.Machine

/-- No operation changes the parameters. -/
theorem exec_cfg {i : Instr} {s t : State} (h : exec i s = .next t) : t.cfg = s.cfg := by
  cases i with
  | jmpt base =>
    simp only [exec, execJmpt] at h
    split at h <;> cases h <;> first | rfl | (split <;> rfl)
  | rti => cases h; split <;> simp [returnFromInterrupt, popWord]
  | br m off => cases h; split <;> rfl
  | jsrr base => cases h; split <;> rfl
  | _ => cases h; simp [loadInto, enterTrap, State.link, takeDecodeFault, eaIndirect]

/-- No operation counts itself: the trace counter is the step's. -/
theorem exec_tc {i : Instr} {s t : State} (h : exec i s = .next t) : t.tc = s.tc := by
  cases i with
  | jmpt base =>
    simp only [exec, execJmpt] at h
    split at h <;> cases h <;> first | rfl | (split <;> rfl)
  | rti => cases h; split <;> simp [returnFromInterrupt, popWord]
  | br m off => cases h; split <;> rfl
  | jsrr base => cases h; split <;> rfl
  | _ => cases h; simp [loadInto, enterTrap, State.link, takeDecodeFault, eaIndirect]

/-- No operation emits a trace event: the event is the step's. -/
theorem exec_trace {i : Instr} {s t : State} (h : exec i s = .next t) : t.trace = s.trace := by
  cases i with
  | jmpt base =>
    simp only [exec, execJmpt] at h
    split at h <;> cases h <;> first | rfl | (split <;> rfl)
  | rti => cases h; split <;> simp [returnFromInterrupt, popWord]
  | br m off => cases h; split <;> rfl
  | jsrr base => cases h; split <;> rfl
  | _ => cases h; simp [loadInto, enterTrap, State.link, takeDecodeFault, eaIndirect]

/-- Only the reserved row and JMPT under `refuse` change the run state. -/
theorem exec_run {i : Instr} {s t : State} (h : exec i s = .next t) :
    t.run = if i.isReserved then .faulted
      else if s.cfg.jmptSemantics = .refuse ∧ (∃ b, i = .jmpt b) then .refused else s.run := by
  cases i with
  | jmpt base =>
    simp only [exec, execJmpt] at h
    split at h <;> cases h <;> simp_all [Instr.isReserved, refuseStep]
    split <;> rfl
  | rti => cases h; simp only [Instr.isReserved]; split <;> simp [returnFromInterrupt, popWord]
  | br m off => cases h; simp only [Instr.isReserved]; split <;> simp
  | jsrr base => cases h; simp only [Instr.isReserved]; split <;> simp [State.link]
  | _ => cases h; simp [loadInto, enterTrap, State.link, takeDecodeFault, eaIndirect, Instr.isReserved]

/-- Only the reserved row writes the fault record. -/
theorem exec_fault {i : Instr} {s t : State} (h : exec i s = .next t) :
    (i.isReserved = true ∧ t.fault.isSome = true) ∨ (i.isReserved = false ∧ t.fault = s.fault) := by
  cases i with
  | jmpt base =>
    simp only [exec, execJmpt] at h
    split at h <;> cases h <;> refine Or.inr ⟨rfl, ?_⟩ <;> first | rfl | (split <;> rfl)
  | rti => cases h; refine Or.inr ⟨rfl, ?_⟩; split <;> simp [returnFromInterrupt, popWord]
  | br m off => cases h; refine Or.inr ⟨rfl, ?_⟩; split <;> rfl
  | jsrr base => cases h; refine Or.inr ⟨rfl, ?_⟩; split <;> rfl
  | reserved low => cases h; exact Or.inl ⟨rfl, rfl⟩
  | _ => cases h; refine Or.inr ⟨rfl, ?_⟩; simp [loadInto, enterTrap, State.link, eaIndirect]

/-- Every operation keeps the memory in its canonical form. -/
theorem exec_wf {i : Instr} {s t : State} (h : exec i s = .next t) (hw : Memory.wf s.mem = true) :
    Memory.wf t.mem = true := by
  cases i with
  | jmpt base =>
    simp only [exec, execJmpt] at h
    split at h <;> cases h <;> first | exact hw | (split <;> exact hw)
  | rti => cases h; split <;> simpa [returnFromInterrupt, popWord] using hw
  | br m off => cases h; split <;> exact hw
  | jsrr base => cases h; split <;> exact hw
  | st sr off => cases h; exact memWrite_wf _ _ hw
  | str sr b off => cases h; exact memWrite_wf _ _ hw
  | sti sr off => cases h; exact memWrite_wf _ _ (memRead_wf _ hw)
  | _ => cases h; simpa [loadInto, enterTrap, State.link, takeDecodeFault, eaIndirect] using hw

/-- An operation that stores nothing leaves memory, `out` and MCR alone. -/
theorem exec_nonstore {i : Instr} {s t : State} (h : exec i s = .next t)
    (hn : ∀ sr off, i ≠ .st sr off ∧ i ≠ .sti sr off ∧ ∀ b, i ≠ .str sr b off) :
    t.mem = s.mem ∧ t.out = s.out ∧ t.mcr = s.mcr := by
  cases i with
  | jmpt base =>
    simp only [exec, execJmpt] at h
    split at h <;> cases h <;> first | exact ⟨rfl, rfl, rfl⟩ | (split <;> exact ⟨rfl, rfl, rfl⟩)
  | rti => cases h; split <;> simp [returnFromInterrupt, popWord]
  | br m off => cases h; split <;> exact ⟨rfl, rfl, rfl⟩
  | jsrr base => cases h; split <;> exact ⟨rfl, rfl, rfl⟩
  | st sr off => exact absurd rfl (hn sr off).1
  | sti sr off => exact absurd rfl (hn sr off).2.1
  | str sr b off => exact absurd rfl ((hn sr off).2.2 b)
  | _ => cases h; simp [loadInto, enterTrap, State.link, takeDecodeFault, eaIndirect]

end Sys2Proof.Machine
end

