-- ==== Sys2Proof/Laws/PerInstr.lean ====
section
/-! SUPPORT. The per-instruction family `Family`: the top four bits of every encoding are the family of R101 that the
instruction's table row names, one lemma per constructor. -/

namespace Sys2Proof.Laws.Family

/-- The family of the encoded word is the one the instruction's opcode-table row matches (R101). -/
def Statement (i : Instr) : Prop := (encode i).extractLsb' 12 4 = i.tableRow.1.extractLsb' 12 4

theorem addReg (dr sr1 sr2 : RegIdx) : Statement (.addReg dr sr1 sr2) := by
  rw [Statement, encode, Instr.tableRow, extract_append_left _ _ _ 9 _ rfl, extract_append_left _ _ _ 6 _ rfl, extract_append_left _ _ _ 3 _ rfl, extract_append_left _ _ _ 0 _ rfl, extract_all]
  decide

theorem addImm (dr sr1 : RegIdx) (imm : Int) : Statement (.addImm dr sr1 imm) := by
  rw [Statement, encode, Instr.tableRow, extract_append_left _ _ _ 7 _ rfl, extract_append_left _ _ _ 6 _ rfl, extract_append_left _ _ _ 3 _ rfl, extract_append_left _ _ _ 0 _ rfl, extract_all]
  decide

theorem andReg (dr sr1 sr2 : RegIdx) : Statement (.andReg dr sr1 sr2) := by
  rw [Statement, encode, Instr.tableRow, extract_append_left _ _ _ 9 _ rfl, extract_append_left _ _ _ 6 _ rfl, extract_append_left _ _ _ 3 _ rfl, extract_append_left _ _ _ 0 _ rfl, extract_all]
  decide

theorem andImm (dr sr1 : RegIdx) (imm : Int) : Statement (.andImm dr sr1 imm) := by
  rw [Statement, encode, Instr.tableRow, extract_append_left _ _ _ 7 _ rfl, extract_append_left _ _ _ 6 _ rfl, extract_append_left _ _ _ 3 _ rfl, extract_append_left _ _ _ 0 _ rfl, extract_all]
  decide

theorem notReg (dr sr : RegIdx) : Statement (.notReg dr sr) := by
  rw [Statement, encode, Instr.tableRow, extract_append_left _ _ _ 6 _ rfl, extract_append_left _ _ _ 3 _ rfl, extract_append_left _ _ _ 0 _ rfl, extract_all]
  decide

theorem br (nzp : BitVec 3) (off : Int) : Statement (.br nzp off) := by
  rw [Statement, encode, Instr.tableRow, extract_append_left _ _ _ 3 _ rfl, extract_append_left _ _ _ 0 _ rfl, extract_all]
  decide

theorem nop (off : Int) : Statement (.nop off) := by
  rw [Statement, encode, Instr.tableRow, extract_append_left _ _ _ 3 _ rfl, extract_append_left _ _ _ 0 _ rfl, extract_all]
  decide

theorem jmp (base : RegIdx) : Statement (.jmp base) := by
  rw [Statement, encode, Instr.tableRow, extract_append_left _ _ _ 6 _ rfl, extract_append_left _ _ _ 3 _ rfl, extract_append_left _ _ _ 0 _ rfl, extract_all]
  decide

theorem ret : Statement (.ret) := rfl

theorem jmpt (base : RegIdx) : Statement (.jmpt base) := by
  rw [Statement, encode, Instr.tableRow, extract_append_left _ _ _ 6 _ rfl, extract_append_left _ _ _ 3 _ rfl, extract_append_left _ _ _ 0 _ rfl, extract_all]
  decide

theorem jsr (off : Int) : Statement (.jsr off) := by
  rw [Statement, encode, Instr.tableRow, extract_append_left _ _ _ 1 _ rfl, extract_append_left _ _ _ 0 _ rfl, extract_all]
  decide

theorem jsrr (base : RegIdx) : Statement (.jsrr base) := by
  rw [Statement, encode, Instr.tableRow, extract_append_left _ _ _ 6 _ rfl, extract_append_left _ _ _ 3 _ rfl, extract_append_left _ _ _ 0 _ rfl, extract_all]
  decide

theorem ld (dr : RegIdx) (off : Int) : Statement (.ld dr off) := by
  rw [Statement, encode, Instr.tableRow, extract_append_left _ _ _ 3 _ rfl, extract_append_left _ _ _ 0 _ rfl, extract_all]
  decide

theorem ldi (dr : RegIdx) (off : Int) : Statement (.ldi dr off) := by
  rw [Statement, encode, Instr.tableRow, extract_append_left _ _ _ 3 _ rfl, extract_append_left _ _ _ 0 _ rfl, extract_all]
  decide

theorem ldr (dr base : RegIdx) (off : Int) : Statement (.ldr dr base off) := by
  rw [Statement, encode, Instr.tableRow, extract_append_left _ _ _ 6 _ rfl, extract_append_left _ _ _ 3 _ rfl, extract_append_left _ _ _ 0 _ rfl, extract_all]
  decide

theorem lea (dr : RegIdx) (off : Int) : Statement (.lea dr off) := by
  rw [Statement, encode, Instr.tableRow, extract_append_left _ _ _ 3 _ rfl, extract_append_left _ _ _ 0 _ rfl, extract_all]
  decide

theorem st (sr : RegIdx) (off : Int) : Statement (.st sr off) := by
  rw [Statement, encode, Instr.tableRow, extract_append_left _ _ _ 3 _ rfl, extract_append_left _ _ _ 0 _ rfl, extract_all]
  decide

theorem sti (sr : RegIdx) (off : Int) : Statement (.sti sr off) := by
  rw [Statement, encode, Instr.tableRow, extract_append_left _ _ _ 3 _ rfl, extract_append_left _ _ _ 0 _ rfl, extract_all]
  decide

theorem str (sr base : RegIdx) (off : Int) : Statement (.str sr base off) := by
  rw [Statement, encode, Instr.tableRow, extract_append_left _ _ _ 6 _ rfl, extract_append_left _ _ _ 3 _ rfl, extract_append_left _ _ _ 0 _ rfl, extract_all]
  decide

theorem trap (vect : Nat) : Statement (.trap vect) := by
  rw [Statement, encode, Instr.tableRow, extract_append_left _ _ _ 4 _ rfl, extract_append_left _ _ _ 0 _ rfl, extract_all]
  decide

theorem rti : Statement (.rti) := rfl

theorem reserved (low : BitVec 12) : Statement (.reserved low) := by
  rw [Statement, encode, Instr.tableRow, extract_append_left _ _ _ 0 _ rfl, extract_all]
  decide

end Sys2Proof.Laws.Family
end

