-- ==== Sys2Proof/Laws/Run.lean ====
section
/-! SUPPORT. Running a fixed piece of code symbolically: the part of the state that code works on, the composition of
steps of the run loop, and one lemma per instruction form that trap routines use. -/

namespace Sys2Proof.Machine

/-- Where the host's answers stand: the waiting lists and how many were taken. -/
structure Ports where
  kbd : List Word
  dev : List Word
  draws : Nat

def portsOf (s : State) : Ports := ⟨s.kbdIn, s.devIn, s.draws⟩

/-- The part of the state a routine works on: all but the run state, the fault record and the trace port. -/
structure View where
  reg : RegIdx → Word
  pc : Word
  psr : Word
  mem : Memory
  out : List Word
  log : List PortEvent
  io : Ports
  mcr : Word
  tc : Nat
  cfg : Config

/-- What `s` holds of it. -/
def viewOf (s : State) : View := ⟨s.reg, s.pc, s.psr, s.mem, s.out, s.portLog, portsOf s, s.mcr, s.tc, s.cfg⟩

/-- The loop is running: the engine is Running and the clock bit is set. -/
def looping (s : State) : Prop := s.run = .running ∧ s.clockOn = true

/-- From every looping state seen as `a`, the first `k` steps of the run loop lead to a looping state seen as `b`. -/
def Steps (k : Nat) (a b : View) : Prop :=
  ∀ s, viewOf s = a → looping s →
    ∃ t, (∀ n, stepWhileClocked (n + k) s = stepWhileClocked n t) ∧ viewOf t = b ∧ looping t

theorem Steps.refl (a : View) : Steps 0 a a := fun s h hl => ⟨s, fun _ => rfl, h, hl⟩

theorem Steps.trans {j k : Nat} {a b c : View} (h : Steps j a b) (g : Steps k b c) : Steps (k + j) a c := by
  intro s hs hl
  obtain ⟨t, h1, h2, h3⟩ := h s hs hl
  obtain ⟨u, g1, g2, g3⟩ := g t h2 h3
  exact ⟨u, fun n => by rw [← Nat.add_assoc, h1, g1], g2, g3⟩

/-- One step of the run loop from a looping state, when the word at pc decodes to `i`. -/
theorem stepWhileClocked_succ {s : State} (hl : looping s) {w : Word} {i : Instr} (hpc : s.pc < windowBase)
    (hw : Memory.readWord s.mem s.pc.toNat = w) (hd : decode w = .ok i) {u : State}
    (hu : exec i (emitTrace i (s.jumpTo (s.pc + 1))) = .next u) (n : Nat) :
    stepWhileClocked (n + 1) s = stepWhileClocked n (retire u) := by
  have hf : fetch s = (w, s.jumpTo (s.pc + 1)) := by rw [fetch, memRead_below hpc, hw]
  have hs : step s = .next (retire u) := by
    rw [step_enabled (by simp [State.enabled, hl.1]), cycle, hf]
    simp only [hd, hu, retireOutcome]
  rw [stepWhileClocked, if_pos ⟨hl.1, hl.2⟩, hs]

@[simp] theorem viewOf_emitTrace (i : Instr) (s : State) : viewOf (emitTrace i s) = viewOf s := by
  rcases emitTrace_spec i s with h | ⟨_, _, h⟩
  · rw [h]
  · rw [h]; rfl

theorem looping_emitTrace (i : Instr) {s : State} (h : looping s) : looping (emitTrace i s) := by
  rcases emitTrace_spec i s with e | ⟨_, _, e⟩
  · rw [e]; exact h
  · rw [e]; exact h

/-- A step, from what its operation does to the view: the count is the step's. -/
theorem Steps.of_exec {a : View} {w : Word} {i : Instr} {b : View} (hpc : a.pc < windowBase)
    (hw : Memory.readWord a.mem a.pc.toNat = w) (hd : decode w = .ok i)
    (hx : ∀ s, viewOf s = { a with pc := a.pc + 1 } → looping s → ∃ u, exec i s = .next u ∧ viewOf u = b ∧ looping u) :
    Steps 1 a { b with tc := b.tc + 1 } := by
  intro s hs hl
  subst hs
  have hl' : looping (emitTrace i (s.jumpTo (s.pc + 1))) := looping_emitTrace i ⟨hl.1, hl.2⟩
  obtain ⟨u, hu, rfl, hlu⟩ := hx _ (viewOf_emitTrace i _) hl'
  have hr : retire u = { u with tc := u.tc + 1 } := by
    rcases retire_spec u with ⟨h | h, _⟩ | ⟨_, _, h⟩
    · rw [hlu.1] at h; cases h
    · rw [hlu.1] at h; cases h
    · rw [h, checkClock, if_neg]
      rintro ⟨_, h'⟩
      exact Bool.noConfusion (h'.symm.trans hlu.2)
  exact ⟨retire u, stepWhileClocked_succ hl hpc hw hd hu, by rw [hr]; rfl, by rw [hr]; exact hlu⟩

theorem reg_setReg_fun (s : State) (d : RegIdx) (v : Word) : (s.setReg d v).reg = Function.update s.reg d v := by
  funext q
  rw [State.reg_setReg, Function.update_apply]

/-! ## Reads through the multiplexer -/

/-- A read of `a` gives `w` and takes the ports from `io` to `io'`, in every state with this memory and MCR. -/
def Reads (m : Memory) (mcr : Word) (a : Word) (io : Ports) (w : Word) (io' : Ports) : Prop :=
  ∀ s, s.mem = m → s.mcr = mcr → portsOf s = io → (memRead a s).1 = w ∧ portsOf (memRead a s).2 = io'

/-- What a read does at the ports depends on memory, MCR and the ports alone. -/
theorem Reads.of_memRead (a : Word) (s : State) : Reads s.mem s.mcr a (portsOf s) (memRead a s).1 (portsOf (memRead a s).2) := by
  intro t hm hc hp
  simp only [portsOf, Ports.mk.injEq] at hp
  refine ⟨memRead_congr a hm hc hp.1 hp.2.1 hp.2.2, ?_⟩
  rcases s with ⟨_, _, _, _, _, _, _, _, _, _, _, _, k, d, _⟩
  rcases t with ⟨_, _, _, _, _, _, _, _, _, _, _, _, k', d', _⟩
  obtain ⟨h1, h2, h3⟩ := hp
  cases hm; cases hc; cases h1; cases h2; cases h3
  simp only [memRead, devRead, readKeyboard, readOtherDevice]
  split_ifs <;> first | rfl | (cases k <;> rfl) | (cases d <;> rfl)

/-- A read records its device transaction, if it is one. -/
theorem memRead_portLog (a : Word) (s : State) : (memRead a s).2.portLog = s.portLog ++ readEvents a (memRead a s).1 := by
  by_cases hb : a < windowBase
  · rw [memRead_below hb, readEvents, if_pos (Or.inl hb), List.append_nil]
  rw [memRead_window hb, devRead]
  by_cases hk : a = kbsrAddr ∨ a = kbdrAddr
  · obtain ⟨v, rest, e⟩ := readKeyboard_spec a s
    rw [if_pos hk, e, readEvents, if_neg]
    · rfl
    · rcases hk with rfl | rfl <;> decide
  by_cases hd : a = dsrAddr
  · rw [if_neg hk, if_pos hd, readEvents, if_pos (Or.inr (Or.inl hd)), List.append_nil]
  by_cases hm : a = mcrAddr
  · rw [if_neg hk, if_neg hd, if_pos hm, readEvents, if_pos (Or.inr (Or.inr hm)), List.append_nil]
  obtain ⟨v, rest, e⟩ := readOtherDevice_spec a s
  rw [if_neg hk, if_neg hd, if_neg hm, e, readEvents, if_neg (by rintro (h | h | h) <;> contradiction)]
  rfl

/-- What a device read gives, and what it does at the ports, is the same over any memory. -/
theorem devRead_withMem (a : Word) (s : State) (m : Memory) :
    devRead a { s with mem := m } = ((devRead a s).1, { (devRead a s).2 with mem := m }) := by
  rcases s with ⟨_, _, _, _, _, _, _, _, _, _, _, _, k, d, _⟩
  simp only [devRead, readKeyboard, readOtherDevice]
  split_ifs <;> first | rfl | (cases k <;> rfl) | (cases d <;> rfl)

/-- Reads in turn, at the level of the ports. -/
def ReadsAll (m : Memory) (mcr : Word) : List (Word × Word) → Ports → Ports → Prop
  | [], io, io' => io' = io
  | (a, w) :: ps, io, io' => ∃ io1, Reads m mcr a io w io1 ∧ ReadsAll m mcr ps io1 io'

/-- A device read does not look at memory. -/
theorem ReadsAll.device {m : Memory} {mcr : Word} {ps : List (Word × Word)} {io io' : Ports} (h : ReadsAll m mcr ps io io')
    (hw : ∀ p ∈ ps, ¬ p.1 < windowBase) (m' : Memory) : ReadsAll m' mcr ps io io' := by
  induction ps generalizing io with
  | nil => exact h
  | cons p ps ih =>
    obtain ⟨io1, h1, h2⟩ := h
    refine ⟨io1, fun s _ hc hp => ?_, ih h2 fun q hq => hw q (by simp [hq])⟩
    have e := h1 { s with mem := m } rfl hc hp
    rw [memRead_window (hw p (by simp))] at e ⊢
    rw [devRead_withMem p.1 s m] at e
    exact e

theorem readsGive.readsAll {ps : List (Word × Word)} {s u : State} (h : readsGive ps s u) :
    ReadsAll s.mem s.mcr ps (portsOf s) (portsOf u) := by
  induction ps generalizing s with
  | nil => cases h; rfl
  | cons p ps ih =>
    have h3 := ih h.2
    rw [memRead_mem, memRead_mcr] at h3
    exact ⟨_, h.1 ▸ Reads.of_memRead p.1 s, h3⟩

/-! ## Flags after a result -/

theorem psrNzp_withNzp (psr : Word) (f : BitVec 3) : psrNzp (withNzp psr f) = f := by
  rw [psrNzp, withNzp, extract_append_right _ _ _ _ (by omega), extract_all]

theorem withNzp_withNzp (psr : Word) (f g : BitVec 3) : withNzp (withNzp psr f) g = withNzp psr g := by
  rw [withNzp, withNzp, extract_append_left _ _ _ 0 _ rfl, extract_all, withNzp]

theorem branchTaken_withNzp (nzp : BitVec 3) (psr : Word) (f : BitVec 3) :
    branchTaken nzp (withNzp psr f) =
      ((nzp.getLsbD 2 && f.getLsbD 2) || (nzp.getLsbD 1 && f.getLsbD 1) || (nzp.getLsbD 0 && f.getLsbD 0)) := by
  have h : ∀ k, k < 3 → (withNzp psr f).getLsbD k = f.getLsbD k := fun k hk => by
    rw [withNzp, BitVec.getLsbD_append, if_pos hk]
  simp only [branchTaken, psrN, psrZ, psrP, h 2 (by omega), h 1 (by omega), h 0 (by omega)]

variable {reg : RegIdx → Word} {pc psr mcr : Word} {mem : Memory} {out : List Word} {io : Ports} {log : List PortEvent} {tc : Nat}
  {cfg : Config} {w : Word}

/-- An operation that writes a result: registers, flags, pc and the count. -/
theorem Steps.result {i : Instr} {d : RegIdx} {v : Word} (hpc : pc < windowBase) (hw : Memory.readWord mem pc.toNat = w)
    (hd : decode w = .ok i)
    (hx : ∀ s, viewOf s = ⟨reg, pc + 1, psr, mem, out, log, io, mcr, tc, cfg⟩ → exec i s = .next (s.writeResult d v)) :
    Steps 1 ⟨reg, pc, psr, mem, out, log, io, mcr, tc, cfg⟩
      ⟨Function.update reg d v, pc + 1, withNzp psr (flagsOf v), mem, out, log, io, mcr, tc + 1, cfg⟩ := by
  refine Steps.of_exec (b := ⟨Function.update reg d v, pc + 1, withNzp psr (flagsOf v), mem, out, log, io, mcr, tc, cfg⟩)
    hpc hw hd fun s hs hl => ⟨_, hx s hs, ?_, ⟨hl.1, hl.2⟩⟩
  simp only [viewOf, View.mk.injEq] at hs ⊢
  obtain ⟨rfl, hp, rfl, h⟩ := hs
  exact ⟨reg_setReg_fun s d v, hp, rfl, h⟩

/-! ## Operate instructions -/

theorem Steps.addImm {d s1 : RegIdx} {v : Int} (hpc : pc < windowBase) (hw : Memory.readWord mem pc.toNat = w)
    (hd : decode w = .ok (.addImm d s1 v)) :
    Steps 1 ⟨reg, pc, psr, mem, out, log, io, mcr, tc, cfg⟩
      ⟨Function.update reg d (reg s1 + imm5 v), pc + 1, withNzp psr (flagsOf (reg s1 + imm5 v)), mem, out, log, io, mcr,
        tc + 1, cfg⟩ :=
  Steps.result hpc hw hd fun s hs => by
    have h : s.reg s1 = reg s1 := congrFun (congrArg View.reg hs) s1
    rw [← h]; rfl

theorem Steps.addReg {d s1 s2 : RegIdx} (hpc : pc < windowBase) (hw : Memory.readWord mem pc.toNat = w)
    (hd : decode w = .ok (.addReg d s1 s2)) :
    Steps 1 ⟨reg, pc, psr, mem, out, log, io, mcr, tc, cfg⟩
      ⟨Function.update reg d (reg s1 + reg s2), pc + 1, withNzp psr (flagsOf (reg s1 + reg s2)), mem, out, log, io, mcr,
        tc + 1, cfg⟩ :=
  Steps.result hpc hw hd fun s hs => by
    have h : s.reg = reg := congrArg View.reg hs
    rw [← h]; rfl

theorem Steps.andImm {d s1 : RegIdx} {v : Int} (hpc : pc < windowBase) (hw : Memory.readWord mem pc.toNat = w)
    (hd : decode w = .ok (.andImm d s1 v)) :
    Steps 1 ⟨reg, pc, psr, mem, out, log, io, mcr, tc, cfg⟩
      ⟨Function.update reg d (reg s1 &&& imm5 v), pc + 1, withNzp psr (flagsOf (reg s1 &&& imm5 v)), mem, out, log, io,
        mcr, tc + 1, cfg⟩ :=
  Steps.result hpc hw hd fun s hs => by
    have h : s.reg s1 = reg s1 := congrFun (congrArg View.reg hs) s1
    rw [← h]; rfl

theorem Steps.andReg {d s1 s2 : RegIdx} (hpc : pc < windowBase) (hw : Memory.readWord mem pc.toNat = w)
    (hd : decode w = .ok (.andReg d s1 s2)) :
    Steps 1 ⟨reg, pc, psr, mem, out, log, io, mcr, tc, cfg⟩
      ⟨Function.update reg d (reg s1 &&& reg s2), pc + 1, withNzp psr (flagsOf (reg s1 &&& reg s2)), mem, out, log, io,
        mcr, tc + 1, cfg⟩ :=
  Steps.result hpc hw hd fun s hs => by
    have h : s.reg = reg := congrArg View.reg hs
    rw [← h]; rfl

/-! ## Loads from memory and from devices -/

theorem Steps.ld {d : RegIdx} {off : Int} {v : Word} (hpc : pc < windowBase) (hw : Memory.readWord mem pc.toNat = w)
    (hd : decode w = .ok (.ld d off)) (ha : pc + 1 + pcOffset9 off < windowBase)
    (hv : Memory.readWord mem (pc + 1 + pcOffset9 off).toNat = v) :
    Steps 1 ⟨reg, pc, psr, mem, out, log, io, mcr, tc, cfg⟩
      ⟨Function.update reg d v, pc + 1, withNzp psr (flagsOf v), mem, out, log, io, mcr, tc + 1, cfg⟩ :=
  Steps.result hpc hw hd fun s hs => by
    have h1 : s.pc = pc + 1 := congrArg View.pc hs
    have h2 : s.mem = mem := congrArg View.mem hs
    simp only [exec, execLd, loadInto, eaPcRelative, h1, memRead_below ha, h2, hv]

/-- A load, from what its operation does: registers, flags, pc, the count, and what the read does at the ports. -/
theorem Steps.load {i : Instr} {d : RegIdx} {a v : Word} {io' : Ports} (hpc : pc < windowBase)
    (hw : Memory.readWord mem pc.toNat = w) (hd : decode w = .ok i) (hr : Reads mem mcr a io v io')
    (hx : ∀ s, viewOf s = ⟨reg, pc + 1, psr, mem, out, log, io, mcr, tc, cfg⟩ →
      exec i s = .next ((memRead a s).2.writeResult d (memRead a s).1)) :
    Steps 1 ⟨reg, pc, psr, mem, out, log, io, mcr, tc, cfg⟩
      ⟨Function.update reg d v, pc + 1, withNzp psr (flagsOf v), mem, out, log ++ readEvents a v, io', mcr, tc + 1, cfg⟩ := by
  refine Steps.of_exec
    (b := ⟨Function.update reg d v, pc + 1, withNzp psr (flagsOf v), mem, out, log ++ readEvents a v, io', mcr, tc, cfg⟩)
    hpc hw hd fun s hs hl => ⟨_, hx s hs, ?_, ?_⟩
  · simp only [viewOf, View.mk.injEq] at hs
    obtain ⟨rfl, h2, rfl, h4, rfl, rfl, h7, h8, rfl, rfl⟩ := hs
    obtain ⟨rfl, hio⟩ := hr s h4 h8 h7
    simp only [viewOf, View.mk.injEq]
    refine ⟨?_, ?_, ?_, ?_, ?_, ?_, hio, ?_, ?_, ?_⟩
    · rw [State.writeResult]
      exact (reg_setReg_fun _ d _).trans (by rw [show (memRead a s).2.reg = s.reg from funext (memRead_reg a s)])
    all_goals simp_all [State.writeResult, memRead_portLog]
  · exact ⟨(memRead_run a s).trans hl.1, (congrArg (fun m : Word => m.getLsbD 15) (memRead_mcr a s)).trans hl.2⟩

theorem Steps.ldr {d b : RegIdx} {off : Int} {v : Word} {io' : Ports} (hpc : pc < windowBase)
    (hw : Memory.readWord mem pc.toNat = w) (hd : decode w = .ok (.ldr d b off))
    (hr : Reads mem mcr (reg b + offset6 off) io v io') :
    Steps 1 ⟨reg, pc, psr, mem, out, log, io, mcr, tc, cfg⟩
      ⟨Function.update reg d v, pc + 1, withNzp psr (flagsOf v), mem, out, log ++ readEvents (reg b + offset6 off) v, io', mcr,
        tc + 1, cfg⟩ :=
  Steps.load hpc hw hd hr fun s hs => by
    have h1 : s.reg b = reg b := congrFun (congrArg View.reg hs) b
    simp only [exec, execLdr, loadInto, eaBaseOffset, h1]

/-- LDI through a pointer to DSR: always ready (R70). -/
theorem Steps.ldiDsr {d : RegIdx} {off : Int} (hpc : pc < windowBase) (hw : Memory.readWord mem pc.toNat = w)
    (hd : decode w = .ok (.ldi d off)) (ha : pc + 1 + pcOffset9 off < windowBase)
    (hv : Memory.readWord mem (pc + 1 + pcOffset9 off).toNat = dsrAddr) :
    Steps 1 ⟨reg, pc, psr, mem, out, log, io, mcr, tc, cfg⟩
      ⟨Function.update reg d 0x8000, pc + 1, withNzp psr (flagsOf 0x8000), mem, out, log, io, mcr, tc + 1, cfg⟩ :=
  Steps.result hpc hw hd fun s hs => by
    have h1 : s.pc = pc + 1 := congrArg View.pc hs
    have h2 : s.mem = mem := congrArg View.mem hs
    simp only [exec, execLdi, loadInto, eaIndirect, eaPcRelative, h1, memRead_below ha, h2, hv]
    rfl

/-- LDI through a pointer that stands in memory. -/
theorem Steps.ldi {d : RegIdx} {off : Int} {a v : Word} {io' : Ports} (hpc : pc < windowBase)
    (hw : Memory.readWord mem pc.toNat = w) (hd : decode w = .ok (.ldi d off)) (ha : pc + 1 + pcOffset9 off < windowBase)
    (hv : Memory.readWord mem (pc + 1 + pcOffset9 off).toNat = a) (hr : Reads mem mcr a io v io') :
    Steps 1 ⟨reg, pc, psr, mem, out, log, io, mcr, tc, cfg⟩
      ⟨Function.update reg d v, pc + 1, withNzp psr (flagsOf v), mem, out, log ++ readEvents a v, io', mcr, tc + 1, cfg⟩ :=
  Steps.load hpc hw hd hr fun s hs => by
    have h1 : s.pc = pc + 1 := congrArg View.pc hs
    have h2 : s.mem = mem := congrArg View.mem hs
    simp only [exec, execLdi, loadInto, eaIndirect, eaPcRelative, h1, memRead_below ha, h2, hv]

/-! ## Stores -/

theorem Steps.st {r : RegIdx} {off : Int} (hpc : pc < windowBase) (hw : Memory.readWord mem pc.toNat = w)
    (hd : decode w = .ok (.st r off)) (ha : pc + 1 + pcOffset9 off < windowBase) :
    Steps 1 ⟨reg, pc, psr, mem, out, log, io, mcr, tc, cfg⟩
      ⟨reg, pc + 1, psr, Memory.writeWord mem (pc + 1 + pcOffset9 off).toNat (reg r), out, log, io, mcr, tc + 1, cfg⟩ := by
  refine Steps.of_exec
    (b := ⟨reg, pc + 1, psr, Memory.writeWord mem (pc + 1 + pcOffset9 off).toNat (reg r), out, log, io, mcr, tc, cfg⟩)
    hpc hw hd fun s hs hl =>
      ⟨{ s with mem := Memory.writeWord mem (pc + 1 + pcOffset9 off).toNat (reg r) }, ?_, ?_, ⟨hl.1, hl.2⟩⟩
  · have h1 : s.pc = pc + 1 := congrArg View.pc hs
    have h2 : s.mem = mem := congrArg View.mem hs
    have h3 : s.reg r = reg r := congrFun (congrArg View.reg hs) r
    simp only [exec, execSt, eaPcRelative, h1, memWrite_below ha, h2, h3]
  · simp only [viewOf, View.mk.injEq] at hs ⊢
    exact ⟨hs.1, hs.2.1, hs.2.2.1, trivial, hs.2.2.2.2⟩

/-- STI through a pointer to DDR shows the word (R71). -/
theorem Steps.stiDdr {r : RegIdx} {off : Int} (hpc : pc < windowBase) (hw : Memory.readWord mem pc.toNat = w)
    (hd : decode w = .ok (.sti r off)) (ha : pc + 1 + pcOffset9 off < windowBase)
    (hv : Memory.readWord mem (pc + 1 + pcOffset9 off).toNat = ddrAddr) :
    Steps 1 ⟨reg, pc, psr, mem, out, log, io, mcr, tc, cfg⟩
      ⟨reg, pc + 1, psr, mem, out ++ [reg r], log ++ [.write ddrAddr (reg r)], io, mcr, tc + 1, cfg⟩ := by
  refine Steps.of_exec (a := ⟨reg, pc, psr, mem, out, log, io, mcr, tc, cfg⟩)
    (b := ⟨reg, pc + 1, psr, mem, out ++ [reg r], log ++ [.write ddrAddr (reg r)], io, mcr, tc, cfg⟩)
    hpc hw hd fun s hs hl =>
      ⟨{ s with out := s.out ++ [s.reg r], portLog := s.portLog ++ [.write ddrAddr (s.reg r)] }, ?_, ?_, ?_⟩
  · have h1 : s.pc = pc + 1 := congrArg View.pc hs
    have h2 : s.mem = mem := congrArg View.mem hs
    have h3 : eaIndirect off s = (ddrAddr, s) := by rw [eaIndirect, eaPcRelative, h1, memRead_below ha, h2, hv]
    rw [exec, execSti, h3]
    rfl
  · simp only [viewOf, View.mk.injEq] at hs ⊢
    obtain ⟨rfl, h2, h3, h4, rfl, rfl, h7⟩ := hs
    exact ⟨rfl, h2, h3, h4, rfl, rfl, h7⟩
  · exact hl

/-! ## Control transfer -/

theorem Steps.br {nzp : BitVec 3} {off : Int} (hpc : pc < windowBase) (hw : Memory.readWord mem pc.toNat = w)
    (hd : decode w = .ok (.br nzp off)) :
    Steps 1 ⟨reg, pc, psr, mem, out, log, io, mcr, tc, cfg⟩
      ⟨reg, if branchTaken nzp psr then pc + 1 + pcOffset9 off else pc + 1, psr, mem, out, log, io, mcr, tc + 1, cfg⟩ := by
  refine Steps.of_exec
    (b := ⟨reg, if branchTaken nzp psr then pc + 1 + pcOffset9 off else pc + 1, psr, mem, out, log, io, mcr, tc, cfg⟩)
    hpc hw hd fun s hs hl =>
      ⟨s.jumpTo (if branchTaken nzp psr then pc + 1 + pcOffset9 off else pc + 1), ?_, ?_, ⟨hl.1, hl.2⟩⟩
  · have h1 : s.pc = pc + 1 := congrArg View.pc hs
    have h2 : s.psr = psr := congrArg View.psr hs
    simp only [exec, execBr, h2]
    split
    · rw [h1]
    · rw [← h1]; rfl
  · simp only [viewOf, View.mk.injEq] at hs ⊢
    exact ⟨hs.1, rfl, hs.2.2⟩

theorem Steps.brTaken {nzp : BitVec 3} {off : Int} (hpc : pc < windowBase) (hw : Memory.readWord mem pc.toNat = w)
    (hd : decode w = .ok (.br nzp off)) (hb : branchTaken nzp psr = true) :
    Steps 1 ⟨reg, pc, psr, mem, out, log, io, mcr, tc, cfg⟩
      ⟨reg, pc + 1 + pcOffset9 off, psr, mem, out, log, io, mcr, tc + 1, cfg⟩ := by
  have h := Steps.br (reg := reg) (psr := psr) (out := out) (log := log) (io := io) (mcr := mcr) (tc := tc) (cfg := cfg)
    hpc hw hd
  rwa [if_pos hb] at h

theorem Steps.brNot {nzp : BitVec 3} {off : Int} (hpc : pc < windowBase) (hw : Memory.readWord mem pc.toNat = w)
    (hd : decode w = .ok (.br nzp off)) (hb : branchTaken nzp psr = false) :
    Steps 1 ⟨reg, pc, psr, mem, out, log, io, mcr, tc, cfg⟩
      ⟨reg, pc + 1, psr, mem, out, log, io, mcr, tc + 1, cfg⟩ := by
  have h := Steps.br (reg := reg) (psr := psr) (out := out) (log := log) (io := io) (mcr := mcr) (tc := tc) (cfg := cfg)
    hpc hw hd
  rwa [if_neg (by simp [hb])] at h

theorem Steps.ret (hpc : pc < windowBase) (hw : Memory.readWord mem pc.toNat = w) (hd : decode w = .ok .ret) :
    Steps 1 ⟨reg, pc, psr, mem, out, log, io, mcr, tc, cfg⟩
      ⟨reg, reg 7, psr, mem, out, log, io, mcr, tc + 1, cfg⟩ := by
  refine Steps.of_exec (b := ⟨reg, reg 7, psr, mem, out, log, io, mcr, tc, cfg⟩) hpc hw hd fun s hs hl =>
    ⟨s.jumpTo (s.reg 7), rfl, ?_, ⟨hl.1, hl.2⟩⟩
  simp only [viewOf, View.mk.injEq] at hs ⊢
  obtain ⟨rfl, h⟩ := hs
  exact ⟨rfl, rfl, h.2⟩

end Sys2Proof.Machine
end

