-- ==== Sys2Proof/Laws/Routines.lean ====
section
/-! SUPPORT. What each routine of the reference firmware does, step by step, over any memory that holds its words
(R299 to R306). -/

namespace Sys2Proof.Machine

/-- The words of the reference firmware stand in the memory, its save words aside. -/
def codeIn (m : Memory) : Prop := ∀ p ∈ referenceFirmware, p.1 ∉ saveWords → Memory.readWord m p.1.toNat = p.2

/-- A word of a routine, found by its place in the image. -/
theorem codeIn.at {m : Memory} (h : codeIn m) (p : Word × Word)
    (hp : referenceFirmware[6 + (p.1.toNat - 0x200)]? = some p := by decide +kernel)
    (hs : p.1 ∉ saveWords := by decide) : Memory.readWord m p.1.toNat = p.2 :=
  h p (List.mem_of_getElem? hp) hs

/-- Reading a word after a write to another one. -/
theorem readWord_write_ne {m : Memory} (hw : Memory.wf m = true) {a b : Nat} (ha : a < 0xFE00) (h : b ≠ a) (v : Word) :
    Memory.readWord (Memory.writeWord m a v) b = Memory.readWord m b := by
  rw [Memory.readWord_writeWord hw ha, if_neg h]

theorem saveWords_below : ∀ b ∈ saveWords, b.toNat < 0xFE00 := by
  have h : saveWords.all (fun b => decide (b.toNat < 0xFE00)) = true := by decide +kernel
  exact fun b hb => of_decide_eq_true (List.all_eq_true.mp h b hb)

/-- A write to a save word leaves the code and every word but the save words. -/
theorem codeIn.write {m : Memory} (h : codeIn m) (hw : Memory.wf m = true) {a : Word} (ha : a ∈ saveWords) (v : Word) :
    codeIn (Memory.writeWord m a.toNat v) := by
  intro p hp hs
  rw [readWord_write_ne hw (saveWords_below a ha) (fun e => hs (by rw [BitVec.eq_of_toNat_eq e]; exact ha))]
  exact h p hp hs

/-- The words outside the save words are the same in both memories. -/
def sameButSaves (m m' : Memory) : Prop := ∀ a : Nat, (∀ b ∈ saveWords, b.toNat ≠ a) → Memory.readWord m' a = Memory.readWord m a

theorem sameButSaves.write {m m' : Memory} (h : sameButSaves m m') (hw : Memory.wf m' = true) {a : Word} (ha : a ∈ saveWords)
    (v : Word) : sameButSaves m (Memory.writeWord m' a.toNat v) := by
  intro b hb
  rw [readWord_write_ne hw (saveWords_below a ha) (Ne.symm (hb a ha))]
  exact h b hb

theorem Steps.cast {k : Nat} {a b c : View} (h : Steps k a b) (e : b = c) : Steps k a c := e ▸ h

/-- A word with bit 15 clear is not negative: BRzp is taken after it. -/
theorem zpTaken {psr v : Word} (hv : v.getLsbD 15 = false) : branchTaken 0b011 (withNzp psr (flagsOf v)) = true := by
  rw [branchTaken_withNzp, flagsOf, hv]
  simp only [Bool.false_eq_true, if_false]
  split <;> decide

/-- A word with bit 15 set is negative: BRzp is not taken after it. -/
theorem zpNot {psr v : Word} (hv : v.getLsbD 15 = true) : branchTaken 0b011 (withNzp psr (flagsOf v)) = false := by
  rw [branchTaken_withNzp, flagsOf, if_pos hv]
  decide

variable {reg : RegIdx → Word} {psr mcr : Word} {mem : Memory} {out : List Word} {io io1 io2 : Ports} {log : List PortEvent} {tc : Nat}
  {cfg : Config}

/-- GETC: one poll of a keyboard that is not ready. -/
theorem getc_poll (hc : codeIn mem) {v : Word} (hk : Reads mem mcr kbsrAddr io v io1)
    (hv : v.getLsbD 15 = false) :
    Steps 2 ⟨reg, 0x0200, psr, mem, out, log, io, mcr, tc, cfg⟩
      ⟨(Function.update reg 0 (v)), 0x0200, (withNzp psr (flagsOf (v))), mem, out, (log ++ readEvents kbsrAddr v), io1, mcr, tc + 2, cfg⟩ := by
  have s1 : Steps 1 ⟨reg, 0x0200, psr, mem, out, log, io, mcr, tc, cfg⟩
      ⟨(Function.update reg 0 (v)), 0x0201, (withNzp psr (flagsOf (v))), mem, out, (log ++ readEvents kbsrAddr v), io1, mcr, tc + 1, cfg⟩ :=
    Steps.ldi (d := 0) (off := 3) (a := kbsrAddr) (v := v) (w := 0xA003) (by decide) (hc.at (0x0200, 0xA003)) (by decide +kernel) (by decide) (hc.at (0x0204, 0xFE00)) hk
  have s2 : Steps 1 ⟨(Function.update reg 0 (v)), 0x0201, (withNzp psr (flagsOf (v))), mem, out, (log ++ readEvents kbsrAddr v), io1, mcr, tc + 1, cfg⟩
      ⟨(Function.update reg 0 (v)), 0x0200, (withNzp psr (flagsOf (v))), mem, out, (log ++ readEvents kbsrAddr v), io1, mcr, tc + 2, cfg⟩ :=
    Steps.brTaken (nzp := 0b011) (off := -2) (w := 0x07FE) (by decide) (hc.at (0x0201, 0x07FE)) (by decide +kernel) (zpTaken hv)
  exact s1.trans s2

/-- GETC: the last poll, the key and the return. -/
theorem getc_key (hc : codeIn mem) {ready key : Word} (hk : Reads mem mcr kbsrAddr io ready io1)
    (hk2 : Reads mem mcr kbdrAddr io1 key io2) (hr : ready.getLsbD 15 = true) :
    Steps 4 ⟨reg, 0x0200, psr, mem, out, log, io, mcr, tc, cfg⟩
      ⟨(Function.update reg 0 (key)), reg 7, (withNzp psr (flagsOf (key))), mem, out, ((log ++ readEvents kbsrAddr ready) ++ readEvents kbdrAddr key), io2, mcr, tc + 4, cfg⟩ := by
  have s1 : Steps 1 ⟨reg, 0x0200, psr, mem, out, log, io, mcr, tc, cfg⟩
      ⟨(Function.update reg 0 (ready)), 0x0201, (withNzp psr (flagsOf (ready))), mem, out, (log ++ readEvents kbsrAddr ready), io1, mcr, tc + 1, cfg⟩ :=
    Steps.ldi (d := 0) (off := 3) (a := kbsrAddr) (v := ready) (w := 0xA003) (by decide) (hc.at (0x0200, 0xA003)) (by decide +kernel) (by decide) (hc.at (0x0204, 0xFE00)) hk
  have s2 : Steps 1 ⟨(Function.update reg 0 (ready)), 0x0201, (withNzp psr (flagsOf (ready))), mem, out, (log ++ readEvents kbsrAddr ready), io1, mcr, tc + 1, cfg⟩
      ⟨(Function.update reg 0 (ready)), 0x0202, (withNzp psr (flagsOf (ready))), mem, out, (log ++ readEvents kbsrAddr ready), io1, mcr, tc + 2, cfg⟩ :=
    Steps.brNot (nzp := 0b011) (off := -2) (w := 0x07FE) (by decide) (hc.at (0x0201, 0x07FE)) (by decide +kernel) (zpNot hr)
  have s3 : Steps 1 ⟨(Function.update reg 0 (ready)), 0x0202, (withNzp psr (flagsOf (ready))), mem, out, (log ++ readEvents kbsrAddr ready), io1, mcr, tc + 2, cfg⟩
      ⟨(Function.update reg 0 (key)), 0x0203, (withNzp psr (flagsOf (key))), mem, out, ((log ++ readEvents kbsrAddr ready) ++ readEvents kbdrAddr key), io2, mcr, tc + 3, cfg⟩ :=
    Steps.cast (Steps.ldi (d := 0) (off := 2) (a := kbdrAddr) (v := key) (w := 0xA002) (by decide) (hc.at (0x0202, 0xA002)) (by decide +kernel) (by decide) (hc.at (0x0205, 0xFE02)) hk2) (by rw [withNzp_withNzp, Function.update_idem]; rfl)
  have s4 : Steps 1 ⟨(Function.update reg 0 (key)), 0x0203, (withNzp psr (flagsOf (key))), mem, out, ((log ++ readEvents kbsrAddr ready) ++ readEvents kbdrAddr key), io2, mcr, tc + 3, cfg⟩
      ⟨(Function.update reg 0 (key)), reg 7, (withNzp psr (flagsOf (key))), mem, out, ((log ++ readEvents kbsrAddr ready) ++ readEvents kbdrAddr key), io2, mcr, tc + 4, cfg⟩ :=
    Steps.ret  (w := 0xC1C0) (by decide) (hc.at (0x0203, 0xC1C0)) (by decide +kernel)
  exact s1.trans (s2.trans (s3.trans s4))

/-- OUT (R301). -/
theorem out_steps (hw : Memory.wf mem = true) (hc : codeIn mem) :
    Steps 6 ⟨reg, 0x0206, psr, mem, out, log, io, mcr, tc, cfg⟩
      ⟨reg, reg 7, (withNzp psr (flagsOf ((reg 1)))), (Memory.writeWord mem 0x020E (reg 1)), (out ++ [reg 0]), (log ++ [PortEvent.write ddrAddr (reg 0)]), io, mcr, tc + 6, cfg⟩ := by
  have hc' : codeIn (Memory.writeWord mem 0x020E (reg 1)) := hc.write hw (a := 0x020E) (by decide) _
  have hs : Memory.readWord (Memory.writeWord mem 0x020E (reg 1)) 0x020E = reg 1 := by
    rw [Memory.readWord_writeWord hw (by decide), if_pos rfl]
  have s1 : Steps 1 ⟨reg, 0x0206, psr, mem, out, log, io, mcr, tc, cfg⟩
      ⟨reg, 0x0207, psr, (Memory.writeWord mem 0x020E (reg 1)), out, log, io, mcr, tc + 1, cfg⟩ :=
    Steps.st (r := 1) (off := 7) (w := 0x3207) (by decide) (hc.at (0x0206, 0x3207)) (by decide +kernel) (by decide)
  have s2 : Steps 1 ⟨reg, 0x0207, psr, (Memory.writeWord mem 0x020E (reg 1)), out, log, io, mcr, tc + 1, cfg⟩
      ⟨(Function.update reg 1 (0x8000)), 0x0208, (withNzp psr (flagsOf (0x8000))), (Memory.writeWord mem 0x020E (reg 1)), out, log, io, mcr, tc + 2, cfg⟩ :=
    Steps.ldiDsr (d := 1) (off := 4) (w := 0xA204) (by decide) (hc'.at (0x0207, 0xA204)) (by decide +kernel) (by decide) (hc'.at (0x020C, 0xFE04))
  have s3 : Steps 1 ⟨(Function.update reg 1 (0x8000)), 0x0208, (withNzp psr (flagsOf (0x8000))), (Memory.writeWord mem 0x020E (reg 1)), out, log, io, mcr, tc + 2, cfg⟩
      ⟨(Function.update reg 1 (0x8000)), 0x0209, (withNzp psr (flagsOf (0x8000))), (Memory.writeWord mem 0x020E (reg 1)), out, log, io, mcr, tc + 3, cfg⟩ :=
    Steps.brNot (nzp := 0b011) (off := -2) (w := 0x07FE) (by decide) (hc'.at (0x0208, 0x07FE)) (by decide +kernel) (by rw [branchTaken_withNzp]; decide)
  have s4 : Steps 1 ⟨(Function.update reg 1 (0x8000)), 0x0209, (withNzp psr (flagsOf (0x8000))), (Memory.writeWord mem 0x020E (reg 1)), out, log, io, mcr, tc + 3, cfg⟩
      ⟨(Function.update reg 1 (0x8000)), 0x020A, (withNzp psr (flagsOf (0x8000))), (Memory.writeWord mem 0x020E (reg 1)), (out ++ [reg 0]), (log ++ [PortEvent.write ddrAddr (reg 0)]), io, mcr, tc + 4, cfg⟩ :=
    Steps.stiDdr (r := 0) (off := 3) (w := 0xB003) (by decide) (hc'.at (0x0209, 0xB003)) (by decide +kernel) (by decide) (hc'.at (0x020D, 0xFE06))
  have s5 : Steps 1 ⟨(Function.update reg 1 (0x8000)), 0x020A, (withNzp psr (flagsOf (0x8000))), (Memory.writeWord mem 0x020E (reg 1)), (out ++ [reg 0]), (log ++ [PortEvent.write ddrAddr (reg 0)]), io, mcr, tc + 4, cfg⟩
      ⟨(Function.update reg 1 ((reg 1))), 0x020B, (withNzp psr (flagsOf ((reg 1)))), (Memory.writeWord mem 0x020E (reg 1)), (out ++ [reg 0]), (log ++ [PortEvent.write ddrAddr (reg 0)]), io, mcr, tc + 5, cfg⟩ :=
    Steps.cast (Steps.ld (d := 1) (off := 3) (v := (reg 1)) (w := 0x2203) (by decide) (hc'.at (0x020A, 0x2203)) (by decide +kernel) (by decide) (hs)) (by rw [withNzp_withNzp, Function.update_idem]; rfl)
  have s6 : Steps 1 ⟨(Function.update reg 1 ((reg 1))), 0x020B, (withNzp psr (flagsOf ((reg 1)))), (Memory.writeWord mem 0x020E (reg 1)), (out ++ [reg 0]), (log ++ [PortEvent.write ddrAddr (reg 0)]), io, mcr, tc + 5, cfg⟩
      ⟨(Function.update reg 1 ((reg 1))), reg 7, (withNzp psr (flagsOf ((reg 1)))), (Memory.writeWord mem 0x020E (reg 1)), (out ++ [reg 0]), (log ++ [PortEvent.write ddrAddr (reg 0)]), io, mcr, tc + 6, cfg⟩ :=
    Steps.ret  (w := 0xC1C0) (by decide) (hc'.at (0x020B, 0xC1C0)) (by decide +kernel)
  exact Steps.cast (s1.trans (s2.trans (s3.trans (s4.trans (s5.trans s6))))) (by rw [Function.update_eq_self])

/-- IN: one poll of a keyboard that is not ready. -/
theorem in_poll (hc : codeIn mem) {v : Word} (hk : Reads mem mcr kbsrAddr io v io1)
    (hv : v.getLsbD 15 = false) :
    Steps 2 ⟨reg, 0x0229, psr, mem, out, log, io, mcr, tc, cfg⟩
      ⟨(Function.update reg 0 (v)), 0x0229, (withNzp psr (flagsOf (v))), mem, out, (log ++ readEvents kbsrAddr v), io1, mcr, tc + 2, cfg⟩ := by
  have s1 : Steps 1 ⟨reg, 0x0229, psr, mem, out, log, io, mcr, tc, cfg⟩
      ⟨(Function.update reg 0 (v)), 0x022A, (withNzp psr (flagsOf (v))), mem, out, (log ++ readEvents kbsrAddr v), io1, mcr, tc + 1, cfg⟩ :=
    Steps.ldi (d := 0) (off := 7) (a := kbsrAddr) (v := v) (w := 0xA007) (by decide) (hc.at (0x0229, 0xA007)) (by decide +kernel) (by decide) (hc.at (0x0231, 0xFE00)) hk
  have s2 : Steps 1 ⟨(Function.update reg 0 (v)), 0x022A, (withNzp psr (flagsOf (v))), mem, out, (log ++ readEvents kbsrAddr v), io1, mcr, tc + 1, cfg⟩
      ⟨(Function.update reg 0 (v)), 0x0229, (withNzp psr (flagsOf (v))), mem, out, (log ++ readEvents kbsrAddr v), io1, mcr, tc + 2, cfg⟩ :=
    Steps.brTaken (nzp := 0b011) (off := -2) (w := 0x07FE) (by decide) (hc.at (0x022A, 0x07FE)) (by decide +kernel) (zpTaken hv)
  exact s1.trans s2

/-- IN: the last poll, the key, the echo, the restored R1 and the return. -/
theorem in_key (hc : codeIn mem) {ready key x : Word} (hk : Reads mem mcr kbsrAddr io ready io1)
    (hk2 : Reads mem mcr kbdrAddr io1 key io2) (hr : ready.getLsbD 15 = true) (hs : Memory.readWord mem 0x0235 = x) :
    Steps 8 ⟨reg, 0x0229, psr, mem, out, log, io, mcr, tc, cfg⟩
      ⟨(Function.update (Function.update reg 0 (key)) 1 (x)), reg 7, (withNzp psr (flagsOf (x))), mem, (out ++ [(key)]), (((log ++ readEvents kbsrAddr ready) ++ readEvents kbdrAddr key) ++ [PortEvent.write ddrAddr ((key))]), io2, mcr, tc + 8, cfg⟩ := by
  have s1 : Steps 1 ⟨reg, 0x0229, psr, mem, out, log, io, mcr, tc, cfg⟩
      ⟨(Function.update reg 0 (ready)), 0x022A, (withNzp psr (flagsOf (ready))), mem, out, (log ++ readEvents kbsrAddr ready), io1, mcr, tc + 1, cfg⟩ :=
    Steps.ldi (d := 0) (off := 7) (a := kbsrAddr) (v := ready) (w := 0xA007) (by decide) (hc.at (0x0229, 0xA007)) (by decide +kernel) (by decide) (hc.at (0x0231, 0xFE00)) hk
  have s2 : Steps 1 ⟨(Function.update reg 0 (ready)), 0x022A, (withNzp psr (flagsOf (ready))), mem, out, (log ++ readEvents kbsrAddr ready), io1, mcr, tc + 1, cfg⟩
      ⟨(Function.update reg 0 (ready)), 0x022B, (withNzp psr (flagsOf (ready))), mem, out, (log ++ readEvents kbsrAddr ready), io1, mcr, tc + 2, cfg⟩ :=
    Steps.brNot (nzp := 0b011) (off := -2) (w := 0x07FE) (by decide) (hc.at (0x022A, 0x07FE)) (by decide +kernel) (zpNot hr)
  have s3 : Steps 1 ⟨(Function.update reg 0 (ready)), 0x022B, (withNzp psr (flagsOf (ready))), mem, out, (log ++ readEvents kbsrAddr ready), io1, mcr, tc + 2, cfg⟩
      ⟨(Function.update reg 0 (key)), 0x022C, (withNzp psr (flagsOf (key))), mem, out, ((log ++ readEvents kbsrAddr ready) ++ readEvents kbdrAddr key), io2, mcr, tc + 3, cfg⟩ :=
    Steps.cast (Steps.ldi (d := 0) (off := 6) (a := kbdrAddr) (v := key) (w := 0xA006) (by decide) (hc.at (0x022B, 0xA006)) (by decide +kernel) (by decide) (hc.at (0x0232, 0xFE02)) hk2) (by rw [withNzp_withNzp, Function.update_idem]; rfl)
  have s4 : Steps 1 ⟨(Function.update reg 0 (key)), 0x022C, (withNzp psr (flagsOf (key))), mem, out, ((log ++ readEvents kbsrAddr ready) ++ readEvents kbdrAddr key), io2, mcr, tc + 3, cfg⟩
      ⟨(Function.update (Function.update reg 0 (key)) 1 (0x8000)), 0x022D, (withNzp psr (flagsOf (0x8000))), mem, out, ((log ++ readEvents kbsrAddr ready) ++ readEvents kbdrAddr key), io2, mcr, tc + 4, cfg⟩ :=
    Steps.cast (Steps.ldiDsr (d := 1) (off := 6) (w := 0xA206) (by decide) (hc.at (0x022C, 0xA206)) (by decide +kernel) (by decide) (hc.at (0x0233, 0xFE04))) (by rw [withNzp_withNzp]; rfl)
  have s5 : Steps 1 ⟨(Function.update (Function.update reg 0 (key)) 1 (0x8000)), 0x022D, (withNzp psr (flagsOf (0x8000))), mem, out, ((log ++ readEvents kbsrAddr ready) ++ readEvents kbdrAddr key), io2, mcr, tc + 4, cfg⟩
      ⟨(Function.update (Function.update reg 0 (key)) 1 (0x8000)), 0x022E, (withNzp psr (flagsOf (0x8000))), mem, out, ((log ++ readEvents kbsrAddr ready) ++ readEvents kbdrAddr key), io2, mcr, tc + 5, cfg⟩ :=
    Steps.brNot (nzp := 0b011) (off := -2) (w := 0x07FE) (by decide) (hc.at (0x022D, 0x07FE)) (by decide +kernel) (by rw [branchTaken_withNzp]; decide)
  have s6 : Steps 1 ⟨(Function.update (Function.update reg 0 (key)) 1 (0x8000)), 0x022E, (withNzp psr (flagsOf (0x8000))), mem, out, ((log ++ readEvents kbsrAddr ready) ++ readEvents kbdrAddr key), io2, mcr, tc + 5, cfg⟩
      ⟨(Function.update (Function.update reg 0 (key)) 1 (0x8000)), 0x022F, (withNzp psr (flagsOf (0x8000))), mem, (out ++ [(key)]), (((log ++ readEvents kbsrAddr ready) ++ readEvents kbdrAddr key) ++ [PortEvent.write ddrAddr ((key))]), io2, mcr, tc + 6, cfg⟩ :=
    Steps.stiDdr (r := 0) (off := 5) (w := 0xB005) (by decide) (hc.at (0x022E, 0xB005)) (by decide +kernel) (by decide) (hc.at (0x0234, 0xFE06))
  have s7 : Steps 1 ⟨(Function.update (Function.update reg 0 (key)) 1 (0x8000)), 0x022F, (withNzp psr (flagsOf (0x8000))), mem, (out ++ [(key)]), (((log ++ readEvents kbsrAddr ready) ++ readEvents kbdrAddr key) ++ [PortEvent.write ddrAddr ((key))]), io2, mcr, tc + 6, cfg⟩
      ⟨(Function.update (Function.update reg 0 (key)) 1 (x)), 0x0230, (withNzp psr (flagsOf (x))), mem, (out ++ [(key)]), (((log ++ readEvents kbsrAddr ready) ++ readEvents kbdrAddr key) ++ [PortEvent.write ddrAddr ((key))]), io2, mcr, tc + 7, cfg⟩ :=
    Steps.cast (Steps.ld (d := 1) (off := 5) (v := x) (w := 0x2205) (by decide) (hc.at (0x022F, 0x2205)) (by decide +kernel) (by decide) (hs)) (by rw [withNzp_withNzp, Function.update_idem]; rfl)
  have s8 : Steps 1 ⟨(Function.update (Function.update reg 0 (key)) 1 (x)), 0x0230, (withNzp psr (flagsOf (x))), mem, (out ++ [(key)]), (((log ++ readEvents kbsrAddr ready) ++ readEvents kbdrAddr key) ++ [PortEvent.write ddrAddr ((key))]), io2, mcr, tc + 7, cfg⟩
      ⟨(Function.update (Function.update reg 0 (key)) 1 (x)), reg 7, (withNzp psr (flagsOf (x))), mem, (out ++ [(key)]), (((log ++ readEvents kbsrAddr ready) ++ readEvents kbdrAddr key) ++ [PortEvent.write ddrAddr ((key))]), io2, mcr, tc + 8, cfg⟩ :=
    Steps.ret  (w := 0xC1C0) (by decide) (hc.at (0x0230, 0xC1C0)) (by decide +kernel)
  exact s1.trans (s2.trans (s3.trans (s4.trans (s5.trans (s6.trans (s7.trans s8))))))

/-- A word that is not zero: BRz is not taken after it. -/
theorem zNot {psr v : Word} (hv : v ≠ 0) : branchTaken 0b010 (withNzp psr (flagsOf v)) = false := by
  rw [branchTaken_withNzp, flagsOf, if_neg hv]
  split <;> decide

/-- Some flag is set after a result: BRnzp is taken. -/
theorem allTaken {psr v : Word} : branchTaken 0b111 (withNzp psr (flagsOf v)) = true := by
  rw [branchTaken_withNzp, flagsOf]
  split
  · decide
  · split <;> decide

/-- PUTS: one character. -/
theorem puts_char (hc : codeIn mem) {c : Word} (hn : c ≠ 0) (hv : Reads mem mcr (reg 0 + offset6 0) io c io1) :
    Steps 8 ⟨reg, 0x0214, psr, mem, out, log, io, mcr, tc, cfg⟩
      ⟨(Function.update (Function.update (Function.update (Function.update reg 1 (c)) 2 (0x8000)) 1 (c &&& reg 3)) 0 (reg 0 + imm5 1)), 0x0214, (withNzp psr (flagsOf (reg 0 + imm5 1))), mem, (out ++ [(c &&& reg 3)]), ((log ++ readEvents (reg 0 + offset6 0) c) ++ [PortEvent.write ddrAddr ((c &&& reg 3))]), io1, mcr, tc + 8, cfg⟩ := by
  have s1 : Steps 1 ⟨reg, 0x0214, psr, mem, out, log, io, mcr, tc, cfg⟩
      ⟨(Function.update reg 1 (c)), 0x0215, (withNzp psr (flagsOf (c))), mem, out, (log ++ readEvents (reg 0 + offset6 0) c), io1, mcr, tc + 1, cfg⟩ :=
    Steps.ldr (d := 1) (b := 0) (off := 0) (v := c) (w := 0x6200) (by decide) (hc.at (0x0214, 0x6200)) (by decide +kernel) hv
  have s2 : Steps 1 ⟨(Function.update reg 1 (c)), 0x0215, (withNzp psr (flagsOf (c))), mem, out, (log ++ readEvents (reg 0 + offset6 0) c), io1, mcr, tc + 1, cfg⟩
      ⟨(Function.update reg 1 (c)), 0x0216, (withNzp psr (flagsOf (c))), mem, out, (log ++ readEvents (reg 0 + offset6 0) c), io1, mcr, tc + 2, cfg⟩ :=
    Steps.brNot (nzp := 0b010) (off := 6) (w := 0x0406) (by decide) (hc.at (0x0215, 0x0406)) (by decide +kernel) (zNot hn)
  have s3 : Steps 1 ⟨(Function.update reg 1 (c)), 0x0216, (withNzp psr (flagsOf (c))), mem, out, (log ++ readEvents (reg 0 + offset6 0) c), io1, mcr, tc + 2, cfg⟩
      ⟨(Function.update (Function.update reg 1 (c)) 2 (0x8000)), 0x0217, (withNzp psr (flagsOf (0x8000))), mem, out, (log ++ readEvents (reg 0 + offset6 0) c), io1, mcr, tc + 3, cfg⟩ :=
    Steps.cast (Steps.ldiDsr (d := 2) (off := 10) (w := 0xA40A) (by decide) (hc.at (0x0216, 0xA40A)) (by decide +kernel) (by decide) (hc.at (0x0221, 0xFE04))) (by rw [withNzp_withNzp]; rfl)
  have s4 : Steps 1 ⟨(Function.update (Function.update reg 1 (c)) 2 (0x8000)), 0x0217, (withNzp psr (flagsOf (0x8000))), mem, out, (log ++ readEvents (reg 0 + offset6 0) c), io1, mcr, tc + 3, cfg⟩
      ⟨(Function.update (Function.update reg 1 (c)) 2 (0x8000)), 0x0218, (withNzp psr (flagsOf (0x8000))), mem, out, (log ++ readEvents (reg 0 + offset6 0) c), io1, mcr, tc + 4, cfg⟩ :=
    Steps.brNot (nzp := 0b011) (off := -2) (w := 0x07FE) (by decide) (hc.at (0x0217, 0x07FE)) (by decide +kernel) (by rw [branchTaken_withNzp]; decide)
  have s5 : Steps 1 ⟨(Function.update (Function.update reg 1 (c)) 2 (0x8000)), 0x0218, (withNzp psr (flagsOf (0x8000))), mem, out, (log ++ readEvents (reg 0 + offset6 0) c), io1, mcr, tc + 4, cfg⟩
      ⟨(Function.update (Function.update (Function.update reg 1 (c)) 2 (0x8000)) 1 (c &&& reg 3)), 0x0219, (withNzp psr (flagsOf (c &&& reg 3))), mem, out, (log ++ readEvents (reg 0 + offset6 0) c), io1, mcr, tc + 5, cfg⟩ :=
    Steps.cast (Steps.andReg (d := 1) (s1 := 1) (s2 := 3) (w := 0x5243) (by decide) (hc.at (0x0218, 0x5243)) (by decide +kernel)) (by rw [withNzp_withNzp]; rfl)
  have s6 : Steps 1 ⟨(Function.update (Function.update (Function.update reg 1 (c)) 2 (0x8000)) 1 (c &&& reg 3)), 0x0219, (withNzp psr (flagsOf (c &&& reg 3))), mem, out, (log ++ readEvents (reg 0 + offset6 0) c), io1, mcr, tc + 5, cfg⟩
      ⟨(Function.update (Function.update (Function.update reg 1 (c)) 2 (0x8000)) 1 (c &&& reg 3)), 0x021A, (withNzp psr (flagsOf (c &&& reg 3))), mem, (out ++ [(c &&& reg 3)]), ((log ++ readEvents (reg 0 + offset6 0) c) ++ [PortEvent.write ddrAddr ((c &&& reg 3))]), io1, mcr, tc + 6, cfg⟩ :=
    Steps.stiDdr (r := 1) (off := 8) (w := 0xB208) (by decide) (hc.at (0x0219, 0xB208)) (by decide +kernel) (by decide) (hc.at (0x0222, 0xFE06))
  have s7 : Steps 1 ⟨(Function.update (Function.update (Function.update reg 1 (c)) 2 (0x8000)) 1 (c &&& reg 3)), 0x021A, (withNzp psr (flagsOf (c &&& reg 3))), mem, (out ++ [(c &&& reg 3)]), ((log ++ readEvents (reg 0 + offset6 0) c) ++ [PortEvent.write ddrAddr ((c &&& reg 3))]), io1, mcr, tc + 6, cfg⟩
      ⟨(Function.update (Function.update (Function.update (Function.update reg 1 (c)) 2 (0x8000)) 1 (c &&& reg 3)) 0 (reg 0 + imm5 1)), 0x021B, (withNzp psr (flagsOf (reg 0 + imm5 1))), mem, (out ++ [(c &&& reg 3)]), ((log ++ readEvents (reg 0 + offset6 0) c) ++ [PortEvent.write ddrAddr ((c &&& reg 3))]), io1, mcr, tc + 7, cfg⟩ :=
    Steps.cast (Steps.addImm (d := 0) (s1 := 0) (v := 1) (w := 0x1021) (by decide) (hc.at (0x021A, 0x1021)) (by decide +kernel)) (by rw [withNzp_withNzp]; rfl)
  have s8 : Steps 1 ⟨(Function.update (Function.update (Function.update (Function.update reg 1 (c)) 2 (0x8000)) 1 (c &&& reg 3)) 0 (reg 0 + imm5 1)), 0x021B, (withNzp psr (flagsOf (reg 0 + imm5 1))), mem, (out ++ [(c &&& reg 3)]), ((log ++ readEvents (reg 0 + offset6 0) c) ++ [PortEvent.write ddrAddr ((c &&& reg 3))]), io1, mcr, tc + 7, cfg⟩
      ⟨(Function.update (Function.update (Function.update (Function.update reg 1 (c)) 2 (0x8000)) 1 (c &&& reg 3)) 0 (reg 0 + imm5 1)), 0x0214, (withNzp psr (flagsOf (reg 0 + imm5 1))), mem, (out ++ [(c &&& reg 3)]), ((log ++ readEvents (reg 0 + offset6 0) c) ++ [PortEvent.write ddrAddr ((c &&& reg 3))]), io1, mcr, tc + 8, cfg⟩ :=
    Steps.brTaken (nzp := 0b111) (off := -8) (w := 0x0FF8) (by decide) (hc.at (0x021B, 0x0FF8)) (by decide +kernel) (allTaken)
  exact s1.trans (s2.trans (s3.trans (s4.trans (s5.trans (s6.trans (s7.trans s8))))))

/-- PUTS: the terminator. -/
theorem puts_end (hc : codeIn mem) (hv : Reads mem mcr (reg 0 + offset6 0) io 0 io1) :
    Steps 2 ⟨reg, 0x0214, psr, mem, out, log, io, mcr, tc, cfg⟩
      ⟨(Function.update reg 1 (0)), 0x021C, (withNzp psr (flagsOf (0))), mem, out, (log ++ readEvents (reg 0 + offset6 0) 0), io1, mcr, tc + 2, cfg⟩ := by
  have s1 : Steps 1 ⟨reg, 0x0214, psr, mem, out, log, io, mcr, tc, cfg⟩
      ⟨(Function.update reg 1 (0)), 0x0215, (withNzp psr (flagsOf (0))), mem, out, (log ++ readEvents (reg 0 + offset6 0) 0), io1, mcr, tc + 1, cfg⟩ :=
    Steps.ldr (d := 1) (b := 0) (off := 0) (v := 0) (w := 0x6200) (by decide) (hc.at (0x0214, 0x6200)) (by decide +kernel) hv
  have s2 : Steps 1 ⟨(Function.update reg 1 (0)), 0x0215, (withNzp psr (flagsOf (0))), mem, out, (log ++ readEvents (reg 0 + offset6 0) 0), io1, mcr, tc + 1, cfg⟩
      ⟨(Function.update reg 1 (0)), 0x021C, (withNzp psr (flagsOf (0))), mem, out, (log ++ readEvents (reg 0 + offset6 0) 0), io1, mcr, tc + 2, cfg⟩ :=
    Steps.brTaken (nzp := 0b010) (off := 6) (w := 0x0406) (by decide) (hc.at (0x0215, 0x0406)) (by decide +kernel) (by rw [branchTaken_withNzp]; decide)
  exact s1.trans s2

/-- PUTS: the restored registers and the return. -/
theorem puts_done (hc : codeIn mem) {x0 x1 x2 x3 : Word} (h0 : Memory.readWord mem 0x0224 = x0)
    (h1 : Memory.readWord mem 0x0225 = x1) (h2 : Memory.readWord mem 0x0226 = x2) (h3 : Memory.readWord mem 0x0227 = x3) :
    Steps 5 ⟨reg, 0x021C, psr, mem, out, log, io, mcr, tc, cfg⟩
      ⟨(Function.update (Function.update (Function.update (Function.update reg 0 (x0)) 1 (x1)) 2 (x2)) 3 (x3)), reg 7, (withNzp psr (flagsOf (x3))), mem, out, log, io, mcr, tc + 5, cfg⟩ := by
  have s1 : Steps 1 ⟨reg, 0x021C, psr, mem, out, log, io, mcr, tc, cfg⟩
      ⟨(Function.update reg 0 (x0)), 0x021D, (withNzp psr (flagsOf (x0))), mem, out, log, io, mcr, tc + 1, cfg⟩ :=
    Steps.ld (d := 0) (off := 7) (v := x0) (w := 0x2007) (by decide) (hc.at (0x021C, 0x2007)) (by decide +kernel) (by decide) (h0)
  have s2 : Steps 1 ⟨(Function.update reg 0 (x0)), 0x021D, (withNzp psr (flagsOf (x0))), mem, out, log, io, mcr, tc + 1, cfg⟩
      ⟨(Function.update (Function.update reg 0 (x0)) 1 (x1)), 0x021E, (withNzp psr (flagsOf (x1))), mem, out, log, io, mcr, tc + 2, cfg⟩ :=
    Steps.cast (Steps.ld (d := 1) (off := 7) (v := x1) (w := 0x2207) (by decide) (hc.at (0x021D, 0x2207)) (by decide +kernel) (by decide) (h1)) (by rw [withNzp_withNzp]; rfl)
  have s3 : Steps 1 ⟨(Function.update (Function.update reg 0 (x0)) 1 (x1)), 0x021E, (withNzp psr (flagsOf (x1))), mem, out, log, io, mcr, tc + 2, cfg⟩
      ⟨(Function.update (Function.update (Function.update reg 0 (x0)) 1 (x1)) 2 (x2)), 0x021F, (withNzp psr (flagsOf (x2))), mem, out, log, io, mcr, tc + 3, cfg⟩ :=
    Steps.cast (Steps.ld (d := 2) (off := 7) (v := x2) (w := 0x2407) (by decide) (hc.at (0x021E, 0x2407)) (by decide +kernel) (by decide) (h2)) (by rw [withNzp_withNzp]; rfl)
  have s4 : Steps 1 ⟨(Function.update (Function.update (Function.update reg 0 (x0)) 1 (x1)) 2 (x2)), 0x021F, (withNzp psr (flagsOf (x2))), mem, out, log, io, mcr, tc + 3, cfg⟩
      ⟨(Function.update (Function.update (Function.update (Function.update reg 0 (x0)) 1 (x1)) 2 (x2)) 3 (x3)), 0x0220, (withNzp psr (flagsOf (x3))), mem, out, log, io, mcr, tc + 4, cfg⟩ :=
    Steps.cast (Steps.ld (d := 3) (off := 7) (v := x3) (w := 0x2607) (by decide) (hc.at (0x021F, 0x2607)) (by decide +kernel) (by decide) (h3)) (by rw [withNzp_withNzp]; rfl)
  have s5 : Steps 1 ⟨(Function.update (Function.update (Function.update (Function.update reg 0 (x0)) 1 (x1)) 2 (x2)) 3 (x3)), 0x0220, (withNzp psr (flagsOf (x3))), mem, out, log, io, mcr, tc + 4, cfg⟩
      ⟨(Function.update (Function.update (Function.update (Function.update reg 0 (x0)) 1 (x1)) 2 (x2)) 3 (x3)), reg 7, (withNzp psr (flagsOf (x3))), mem, out, log, io, mcr, tc + 5, cfg⟩ :=
    Steps.ret  (w := 0xC1C0) (by decide) (hc.at (0x0220, 0xC1C0)) (by decide +kernel)
  exact s1.trans (s2.trans (s3.trans (s4.trans s5)))

/-- PUTS: the saved registers and the mask. -/
theorem puts_save (hw : Memory.wf mem = true) (hc : codeIn mem) :
    Steps 5 ⟨reg, 0x020F, psr, mem, out, log, io, mcr, tc, cfg⟩
      ⟨(Function.update reg 3 (0x00FF)), 0x0214, (withNzp psr (flagsOf (0x00FF))), (Memory.writeWord (Memory.writeWord (Memory.writeWord (Memory.writeWord mem 0x0224 (reg 0)) 0x0225 (reg 1)) 0x0226 (reg 2)) 0x0227 (reg 3)), out, log, io, mcr, tc + 5, cfg⟩ := by
  have hc1 : codeIn (Memory.writeWord mem 0x0224 (reg 0)) := hc.write hw (a := 0x0224) (by decide) _
  have hw1 : Memory.wf (Memory.writeWord mem 0x0224 (reg 0)) = true := Memory.wf_writeWord hw (by decide) _
  have hc2 : codeIn (Memory.writeWord (Memory.writeWord mem 0x0224 (reg 0)) 0x0225 (reg 1)) := hc1.write hw1 (a := 0x0225) (by decide) _
  have hw2 : Memory.wf (Memory.writeWord (Memory.writeWord mem 0x0224 (reg 0)) 0x0225 (reg 1)) = true := Memory.wf_writeWord hw1 (by decide) _
  have hc3 : codeIn (Memory.writeWord (Memory.writeWord (Memory.writeWord mem 0x0224 (reg 0)) 0x0225 (reg 1)) 0x0226 (reg 2)) := hc2.write hw2 (a := 0x0226) (by decide) _
  have hw3 : Memory.wf (Memory.writeWord (Memory.writeWord (Memory.writeWord mem 0x0224 (reg 0)) 0x0225 (reg 1)) 0x0226 (reg 2)) = true := Memory.wf_writeWord hw2 (by decide) _
  have hc4 : codeIn (Memory.writeWord (Memory.writeWord (Memory.writeWord (Memory.writeWord mem 0x0224 (reg 0)) 0x0225 (reg 1)) 0x0226 (reg 2)) 0x0227 (reg 3)) := hc3.write hw3 (a := 0x0227) (by decide) _
  have hw4 : Memory.wf (Memory.writeWord (Memory.writeWord (Memory.writeWord (Memory.writeWord mem 0x0224 (reg 0)) 0x0225 (reg 1)) 0x0226 (reg 2)) 0x0227 (reg 3)) = true := Memory.wf_writeWord hw3 (by decide) _
  have s1 : Steps 1 ⟨reg, 0x020F, psr, mem, out, log, io, mcr, tc, cfg⟩
      ⟨reg, 0x0210, psr, (Memory.writeWord mem 0x0224 (reg 0)), out, log, io, mcr, tc + 1, cfg⟩ :=
    Steps.st (r := 0) (off := 20) (w := 0x3014) (by decide) (hc.at (0x020F, 0x3014)) (by decide +kernel) (by decide)
  have s2 : Steps 1 ⟨reg, 0x0210, psr, (Memory.writeWord mem 0x0224 (reg 0)), out, log, io, mcr, tc + 1, cfg⟩
      ⟨reg, 0x0211, psr, (Memory.writeWord (Memory.writeWord mem 0x0224 (reg 0)) 0x0225 (reg 1)), out, log, io, mcr, tc + 2, cfg⟩ :=
    Steps.st (r := 1) (off := 20) (w := 0x3214) (by decide) (hc1.at (0x0210, 0x3214)) (by decide +kernel) (by decide)
  have s3 : Steps 1 ⟨reg, 0x0211, psr, (Memory.writeWord (Memory.writeWord mem 0x0224 (reg 0)) 0x0225 (reg 1)), out, log, io, mcr, tc + 2, cfg⟩
      ⟨reg, 0x0212, psr, (Memory.writeWord (Memory.writeWord (Memory.writeWord mem 0x0224 (reg 0)) 0x0225 (reg 1)) 0x0226 (reg 2)), out, log, io, mcr, tc + 3, cfg⟩ :=
    Steps.st (r := 2) (off := 20) (w := 0x3414) (by decide) (hc2.at (0x0211, 0x3414)) (by decide +kernel) (by decide)
  have s4 : Steps 1 ⟨reg, 0x0212, psr, (Memory.writeWord (Memory.writeWord (Memory.writeWord mem 0x0224 (reg 0)) 0x0225 (reg 1)) 0x0226 (reg 2)), out, log, io, mcr, tc + 3, cfg⟩
      ⟨reg, 0x0213, psr, (Memory.writeWord (Memory.writeWord (Memory.writeWord (Memory.writeWord mem 0x0224 (reg 0)) 0x0225 (reg 1)) 0x0226 (reg 2)) 0x0227 (reg 3)), out, log, io, mcr, tc + 4, cfg⟩ :=
    Steps.st (r := 3) (off := 20) (w := 0x3614) (by decide) (hc3.at (0x0212, 0x3614)) (by decide +kernel) (by decide)
  have s5 : Steps 1 ⟨reg, 0x0213, psr, (Memory.writeWord (Memory.writeWord (Memory.writeWord (Memory.writeWord mem 0x0224 (reg 0)) 0x0225 (reg 1)) 0x0226 (reg 2)) 0x0227 (reg 3)), out, log, io, mcr, tc + 4, cfg⟩
      ⟨(Function.update reg 3 (0x00FF)), 0x0214, (withNzp psr (flagsOf (0x00FF))), (Memory.writeWord (Memory.writeWord (Memory.writeWord (Memory.writeWord mem 0x0224 (reg 0)) 0x0225 (reg 1)) 0x0226 (reg 2)) 0x0227 (reg 3)), out, log, io, mcr, tc + 5, cfg⟩ :=
    Steps.ld (d := 3) (off := 15) (v := 0x00FF) (w := 0x260F) (by decide) (hc4.at (0x0213, 0x260F)) (by decide +kernel) (by decide) (hc4.at (0x0223, 0x00FF))
  exact s1.trans (s2.trans (s3.trans (s4.trans s5)))

/-- PUTSP: the saved registers and the mask. -/
theorem putsp_save (hw : Memory.wf mem = true) (hc : codeIn mem) :
    Steps 7 ⟨reg, 0x0236, psr, mem, out, log, io, mcr, tc, cfg⟩
      ⟨(Function.update reg 3 (0x00FF)), 0x023D, (withNzp psr (flagsOf (0x00FF))), (Memory.writeWord (Memory.writeWord (Memory.writeWord (Memory.writeWord (Memory.writeWord (Memory.writeWord mem 0x025E (reg 0)) 0x025F (reg 1)) 0x0260 (reg 2)) 0x0261 (reg 3)) 0x0262 (reg 4)) 0x0263 (reg 5)), out, log, io, mcr, tc + 7, cfg⟩ := by
  have hc1 : codeIn (Memory.writeWord mem 0x025E (reg 0)) := hc.write hw (a := 0x025E) (by decide) _
  have hw1 : Memory.wf (Memory.writeWord mem 0x025E (reg 0)) = true := Memory.wf_writeWord hw (by decide) _
  have hc2 : codeIn (Memory.writeWord (Memory.writeWord mem 0x025E (reg 0)) 0x025F (reg 1)) := hc1.write hw1 (a := 0x025F) (by decide) _
  have hw2 : Memory.wf (Memory.writeWord (Memory.writeWord mem 0x025E (reg 0)) 0x025F (reg 1)) = true := Memory.wf_writeWord hw1 (by decide) _
  have hc3 : codeIn (Memory.writeWord (Memory.writeWord (Memory.writeWord mem 0x025E (reg 0)) 0x025F (reg 1)) 0x0260 (reg 2)) := hc2.write hw2 (a := 0x0260) (by decide) _
  have hw3 : Memory.wf (Memory.writeWord (Memory.writeWord (Memory.writeWord mem 0x025E (reg 0)) 0x025F (reg 1)) 0x0260 (reg 2)) = true := Memory.wf_writeWord hw2 (by decide) _
  have hc4 : codeIn (Memory.writeWord (Memory.writeWord (Memory.writeWord (Memory.writeWord mem 0x025E (reg 0)) 0x025F (reg 1)) 0x0260 (reg 2)) 0x0261 (reg 3)) := hc3.write hw3 (a := 0x0261) (by decide) _
  have hw4 : Memory.wf (Memory.writeWord (Memory.writeWord (Memory.writeWord (Memory.writeWord mem 0x025E (reg 0)) 0x025F (reg 1)) 0x0260 (reg 2)) 0x0261 (reg 3)) = true := Memory.wf_writeWord hw3 (by decide) _
  have hc5 : codeIn (Memory.writeWord (Memory.writeWord (Memory.writeWord (Memory.writeWord (Memory.writeWord mem 0x025E (reg 0)) 0x025F (reg 1)) 0x0260 (reg 2)) 0x0261 (reg 3)) 0x0262 (reg 4)) := hc4.write hw4 (a := 0x0262) (by decide) _
  have hw5 : Memory.wf (Memory.writeWord (Memory.writeWord (Memory.writeWord (Memory.writeWord (Memory.writeWord mem 0x025E (reg 0)) 0x025F (reg 1)) 0x0260 (reg 2)) 0x0261 (reg 3)) 0x0262 (reg 4)) = true := Memory.wf_writeWord hw4 (by decide) _
  have hc6 : codeIn (Memory.writeWord (Memory.writeWord (Memory.writeWord (Memory.writeWord (Memory.writeWord (Memory.writeWord mem 0x025E (reg 0)) 0x025F (reg 1)) 0x0260 (reg 2)) 0x0261 (reg 3)) 0x0262 (reg 4)) 0x0263 (reg 5)) := hc5.write hw5 (a := 0x0263) (by decide) _
  have s1 : Steps 1 ⟨reg, 0x0236, psr, mem, out, log, io, mcr, tc, cfg⟩
      ⟨reg, 0x0237, psr, (Memory.writeWord mem 0x025E (reg 0)), out, log, io, mcr, tc + 1, cfg⟩ :=
    Steps.st (r := 0) (off := 39) (w := 0x3027) (by decide) (hc.at (0x0236, 0x3027)) (by decide +kernel) (by decide)
  have s2 : Steps 1 ⟨reg, 0x0237, psr, (Memory.writeWord mem 0x025E (reg 0)), out, log, io, mcr, tc + 1, cfg⟩
      ⟨reg, 0x0238, psr, (Memory.writeWord (Memory.writeWord mem 0x025E (reg 0)) 0x025F (reg 1)), out, log, io, mcr, tc + 2, cfg⟩ :=
    Steps.st (r := 1) (off := 39) (w := 0x3227) (by decide) (hc1.at (0x0237, 0x3227)) (by decide +kernel) (by decide)
  have s3 : Steps 1 ⟨reg, 0x0238, psr, (Memory.writeWord (Memory.writeWord mem 0x025E (reg 0)) 0x025F (reg 1)), out, log, io, mcr, tc + 2, cfg⟩
      ⟨reg, 0x0239, psr, (Memory.writeWord (Memory.writeWord (Memory.writeWord mem 0x025E (reg 0)) 0x025F (reg 1)) 0x0260 (reg 2)), out, log, io, mcr, tc + 3, cfg⟩ :=
    Steps.st (r := 2) (off := 39) (w := 0x3427) (by decide) (hc2.at (0x0238, 0x3427)) (by decide +kernel) (by decide)
  have s4 : Steps 1 ⟨reg, 0x0239, psr, (Memory.writeWord (Memory.writeWord (Memory.writeWord mem 0x025E (reg 0)) 0x025F (reg 1)) 0x0260 (reg 2)), out, log, io, mcr, tc + 3, cfg⟩
      ⟨reg, 0x023A, psr, (Memory.writeWord (Memory.writeWord (Memory.writeWord (Memory.writeWord mem 0x025E (reg 0)) 0x025F (reg 1)) 0x0260 (reg 2)) 0x0261 (reg 3)), out, log, io, mcr, tc + 4, cfg⟩ :=
    Steps.st (r := 3) (off := 39) (w := 0x3627) (by decide) (hc3.at (0x0239, 0x3627)) (by decide +kernel) (by decide)
  have s5 : Steps 1 ⟨reg, 0x023A, psr, (Memory.writeWord (Memory.writeWord (Memory.writeWord (Memory.writeWord mem 0x025E (reg 0)) 0x025F (reg 1)) 0x0260 (reg 2)) 0x0261 (reg 3)), out, log, io, mcr, tc + 4, cfg⟩
      ⟨reg, 0x023B, psr, (Memory.writeWord (Memory.writeWord (Memory.writeWord (Memory.writeWord (Memory.writeWord mem 0x025E (reg 0)) 0x025F (reg 1)) 0x0260 (reg 2)) 0x0261 (reg 3)) 0x0262 (reg 4)), out, log, io, mcr, tc + 5, cfg⟩ :=
    Steps.st (r := 4) (off := 39) (w := 0x3827) (by decide) (hc4.at (0x023A, 0x3827)) (by decide +kernel) (by decide)
  have s6 : Steps 1 ⟨reg, 0x023B, psr, (Memory.writeWord (Memory.writeWord (Memory.writeWord (Memory.writeWord (Memory.writeWord mem 0x025E (reg 0)) 0x025F (reg 1)) 0x0260 (reg 2)) 0x0261 (reg 3)) 0x0262 (reg 4)), out, log, io, mcr, tc + 5, cfg⟩
      ⟨reg, 0x023C, psr, (Memory.writeWord (Memory.writeWord (Memory.writeWord (Memory.writeWord (Memory.writeWord (Memory.writeWord mem 0x025E (reg 0)) 0x025F (reg 1)) 0x0260 (reg 2)) 0x0261 (reg 3)) 0x0262 (reg 4)) 0x0263 (reg 5)), out, log, io, mcr, tc + 6, cfg⟩ :=
    Steps.st (r := 5) (off := 39) (w := 0x3A27) (by decide) (hc5.at (0x023B, 0x3A27)) (by decide +kernel) (by decide)
  have s7 : Steps 1 ⟨reg, 0x023C, psr, (Memory.writeWord (Memory.writeWord (Memory.writeWord (Memory.writeWord (Memory.writeWord (Memory.writeWord mem 0x025E (reg 0)) 0x025F (reg 1)) 0x0260 (reg 2)) 0x0261 (reg 3)) 0x0262 (reg 4)) 0x0263 (reg 5)), out, log, io, mcr, tc + 6, cfg⟩
      ⟨(Function.update reg 3 (0x00FF)), 0x023D, (withNzp psr (flagsOf (0x00FF))), (Memory.writeWord (Memory.writeWord (Memory.writeWord (Memory.writeWord (Memory.writeWord (Memory.writeWord mem 0x025E (reg 0)) 0x025F (reg 1)) 0x0260 (reg 2)) 0x0261 (reg 3)) 0x0262 (reg 4)) 0x0263 (reg 5)), out, log, io, mcr, tc + 7, cfg⟩ :=
    Steps.ld (d := 3) (off := 32) (v := 0x00FF) (w := 0x2620) (by decide) (hc6.at (0x023C, 0x2620)) (by decide +kernel) (by decide) (hc6.at (0x025D, 0x00FF))
  exact s1.trans (s2.trans (s3.trans (s4.trans (s5.trans (s6.trans s7)))))

/-- A zero word: BRz is taken after it. -/
theorem zTaken {psr v : Word} (hv : v = 0) : branchTaken 0b010 (withNzp psr (flagsOf v)) = true := by
  rw [branchTaken_withNzp, hv]
  decide

/-- PUTSP: a word whose low byte is zero ends the string. -/
theorem putsp_low_zero (hc : codeIn mem) {c : Word} (hv : Reads mem mcr (reg 0 + offset6 0) io c io1) (hn : c &&& reg 3 = 0) :
    Steps 3 ⟨reg, 0x023D, psr, mem, out, log, io, mcr, tc, cfg⟩
      ⟨(Function.update (Function.update reg 1 (c)) 2 (c &&& reg 3)), 0x0254, (withNzp psr (flagsOf (c &&& reg 3))), mem, out, (log ++ readEvents (reg 0 + offset6 0) c), io1, mcr, tc + 3, cfg⟩ := by
  have s1 : Steps 1 ⟨reg, 0x023D, psr, mem, out, log, io, mcr, tc, cfg⟩
      ⟨(Function.update reg 1 (c)), 0x023E, (withNzp psr (flagsOf (c))), mem, out, (log ++ readEvents (reg 0 + offset6 0) c), io1, mcr, tc + 1, cfg⟩ :=
    Steps.ldr (d := 1) (b := 0) (off := 0) (v := c) (w := 0x6200) (by decide) (hc.at (0x023D, 0x6200)) (by decide +kernel) hv
  have s2 : Steps 1 ⟨(Function.update reg 1 (c)), 0x023E, (withNzp psr (flagsOf (c))), mem, out, (log ++ readEvents (reg 0 + offset6 0) c), io1, mcr, tc + 1, cfg⟩
      ⟨(Function.update (Function.update reg 1 (c)) 2 (c &&& reg 3)), 0x023F, (withNzp psr (flagsOf (c &&& reg 3))), mem, out, (log ++ readEvents (reg 0 + offset6 0) c), io1, mcr, tc + 2, cfg⟩ :=
    Steps.cast (Steps.andReg (d := 2) (s1 := 1) (s2 := 3) (w := 0x5443) (by decide) (hc.at (0x023E, 0x5443)) (by decide +kernel)) (by rw [withNzp_withNzp]; rfl)
  have s3 : Steps 1 ⟨(Function.update (Function.update reg 1 (c)) 2 (c &&& reg 3)), 0x023F, (withNzp psr (flagsOf (c &&& reg 3))), mem, out, (log ++ readEvents (reg 0 + offset6 0) c), io1, mcr, tc + 2, cfg⟩
      ⟨(Function.update (Function.update reg 1 (c)) 2 (c &&& reg 3)), 0x0254, (withNzp psr (flagsOf (c &&& reg 3))), mem, out, (log ++ readEvents (reg 0 + offset6 0) c), io1, mcr, tc + 3, cfg⟩ :=
    Steps.brTaken (nzp := 0b010) (off := 20) (w := 0x0414) (by decide) (hc.at (0x023F, 0x0414)) (by decide +kernel) (zTaken hn)
  exact s1.trans (s2.trans s3)

/-- PUTSP: the low byte is shown and the count set up. -/
theorem putsp_low (hc : codeIn mem) {c : Word} (hv : Reads mem mcr (reg 0 + offset6 0) io c io1) (hn : c &&& reg 3 ≠ 0) :
    Steps 9 ⟨reg, 0x023D, psr, mem, out, log, io, mcr, tc, cfg⟩
      ⟨(Function.update (Function.update (Function.update (Function.update (Function.update reg 1 (c)) 2 (c &&& reg 3)) 4 (0x8000)) 2 ((c &&& reg 3) &&& imm5 0)) 5 ((reg 5 &&& imm5 0) + imm5 8)), 0x0246, (withNzp psr (flagsOf ((reg 5 &&& imm5 0) + imm5 8))), mem, (out ++ [(c &&& reg 3)]), ((log ++ readEvents (reg 0 + offset6 0) c) ++ [PortEvent.write ddrAddr ((c &&& reg 3))]), io1, mcr, tc + 9, cfg⟩ := by
  have s1 : Steps 1 ⟨reg, 0x023D, psr, mem, out, log, io, mcr, tc, cfg⟩
      ⟨(Function.update reg 1 (c)), 0x023E, (withNzp psr (flagsOf (c))), mem, out, (log ++ readEvents (reg 0 + offset6 0) c), io1, mcr, tc + 1, cfg⟩ :=
    Steps.ldr (d := 1) (b := 0) (off := 0) (v := c) (w := 0x6200) (by decide) (hc.at (0x023D, 0x6200)) (by decide +kernel) hv
  have s2 : Steps 1 ⟨(Function.update reg 1 (c)), 0x023E, (withNzp psr (flagsOf (c))), mem, out, (log ++ readEvents (reg 0 + offset6 0) c), io1, mcr, tc + 1, cfg⟩
      ⟨(Function.update (Function.update reg 1 (c)) 2 (c &&& reg 3)), 0x023F, (withNzp psr (flagsOf (c &&& reg 3))), mem, out, (log ++ readEvents (reg 0 + offset6 0) c), io1, mcr, tc + 2, cfg⟩ :=
    Steps.cast (Steps.andReg (d := 2) (s1 := 1) (s2 := 3) (w := 0x5443) (by decide) (hc.at (0x023E, 0x5443)) (by decide +kernel)) (by rw [withNzp_withNzp]; rfl)
  have s3 : Steps 1 ⟨(Function.update (Function.update reg 1 (c)) 2 (c &&& reg 3)), 0x023F, (withNzp psr (flagsOf (c &&& reg 3))), mem, out, (log ++ readEvents (reg 0 + offset6 0) c), io1, mcr, tc + 2, cfg⟩
      ⟨(Function.update (Function.update reg 1 (c)) 2 (c &&& reg 3)), 0x0240, (withNzp psr (flagsOf (c &&& reg 3))), mem, out, (log ++ readEvents (reg 0 + offset6 0) c), io1, mcr, tc + 3, cfg⟩ :=
    Steps.brNot (nzp := 0b010) (off := 20) (w := 0x0414) (by decide) (hc.at (0x023F, 0x0414)) (by decide +kernel) (zNot hn)
  have s4 : Steps 1 ⟨(Function.update (Function.update reg 1 (c)) 2 (c &&& reg 3)), 0x0240, (withNzp psr (flagsOf (c &&& reg 3))), mem, out, (log ++ readEvents (reg 0 + offset6 0) c), io1, mcr, tc + 3, cfg⟩
      ⟨(Function.update (Function.update (Function.update reg 1 (c)) 2 (c &&& reg 3)) 4 (0x8000)), 0x0241, (withNzp psr (flagsOf (0x8000))), mem, out, (log ++ readEvents (reg 0 + offset6 0) c), io1, mcr, tc + 4, cfg⟩ :=
    Steps.cast (Steps.ldiDsr (d := 4) (off := 26) (w := 0xA81A) (by decide) (hc.at (0x0240, 0xA81A)) (by decide +kernel) (by decide) (hc.at (0x025B, 0xFE04))) (by rw [withNzp_withNzp]; rfl)
  have s5 : Steps 1 ⟨(Function.update (Function.update (Function.update reg 1 (c)) 2 (c &&& reg 3)) 4 (0x8000)), 0x0241, (withNzp psr (flagsOf (0x8000))), mem, out, (log ++ readEvents (reg 0 + offset6 0) c), io1, mcr, tc + 4, cfg⟩
      ⟨(Function.update (Function.update (Function.update reg 1 (c)) 2 (c &&& reg 3)) 4 (0x8000)), 0x0242, (withNzp psr (flagsOf (0x8000))), mem, out, (log ++ readEvents (reg 0 + offset6 0) c), io1, mcr, tc + 5, cfg⟩ :=
    Steps.brNot (nzp := 0b011) (off := -2) (w := 0x07FE) (by decide) (hc.at (0x0241, 0x07FE)) (by decide +kernel) (by rw [branchTaken_withNzp]; decide)
  have s6 : Steps 1 ⟨(Function.update (Function.update (Function.update reg 1 (c)) 2 (c &&& reg 3)) 4 (0x8000)), 0x0242, (withNzp psr (flagsOf (0x8000))), mem, out, (log ++ readEvents (reg 0 + offset6 0) c), io1, mcr, tc + 5, cfg⟩
      ⟨(Function.update (Function.update (Function.update reg 1 (c)) 2 (c &&& reg 3)) 4 (0x8000)), 0x0243, (withNzp psr (flagsOf (0x8000))), mem, (out ++ [(c &&& reg 3)]), ((log ++ readEvents (reg 0 + offset6 0) c) ++ [PortEvent.write ddrAddr ((c &&& reg 3))]), io1, mcr, tc + 6, cfg⟩ :=
    Steps.stiDdr (r := 2) (off := 25) (w := 0xB419) (by decide) (hc.at (0x0242, 0xB419)) (by decide +kernel) (by decide) (hc.at (0x025C, 0xFE06))
  have s7 : Steps 1 ⟨(Function.update (Function.update (Function.update reg 1 (c)) 2 (c &&& reg 3)) 4 (0x8000)), 0x0243, (withNzp psr (flagsOf (0x8000))), mem, (out ++ [(c &&& reg 3)]), ((log ++ readEvents (reg 0 + offset6 0) c) ++ [PortEvent.write ddrAddr ((c &&& reg 3))]), io1, mcr, tc + 6, cfg⟩
      ⟨(Function.update (Function.update (Function.update (Function.update reg 1 (c)) 2 (c &&& reg 3)) 4 (0x8000)) 2 ((c &&& reg 3) &&& imm5 0)), 0x0244, (withNzp psr (flagsOf ((c &&& reg 3) &&& imm5 0))), mem, (out ++ [(c &&& reg 3)]), ((log ++ readEvents (reg 0 + offset6 0) c) ++ [PortEvent.write ddrAddr ((c &&& reg 3))]), io1, mcr, tc + 7, cfg⟩ :=
    Steps.cast (Steps.andImm (d := 2) (s1 := 2) (v := 0) (w := 0x54A0) (by decide) (hc.at (0x0243, 0x54A0)) (by decide +kernel)) (by rw [withNzp_withNzp]; rfl)
  have s8 : Steps 1 ⟨(Function.update (Function.update (Function.update (Function.update reg 1 (c)) 2 (c &&& reg 3)) 4 (0x8000)) 2 ((c &&& reg 3) &&& imm5 0)), 0x0244, (withNzp psr (flagsOf ((c &&& reg 3) &&& imm5 0))), mem, (out ++ [(c &&& reg 3)]), ((log ++ readEvents (reg 0 + offset6 0) c) ++ [PortEvent.write ddrAddr ((c &&& reg 3))]), io1, mcr, tc + 7, cfg⟩
      ⟨(Function.update (Function.update (Function.update (Function.update (Function.update reg 1 (c)) 2 (c &&& reg 3)) 4 (0x8000)) 2 ((c &&& reg 3) &&& imm5 0)) 5 (reg 5 &&& imm5 0)), 0x0245, (withNzp psr (flagsOf (reg 5 &&& imm5 0))), mem, (out ++ [(c &&& reg 3)]), ((log ++ readEvents (reg 0 + offset6 0) c) ++ [PortEvent.write ddrAddr ((c &&& reg 3))]), io1, mcr, tc + 8, cfg⟩ :=
    Steps.cast (Steps.andImm (d := 5) (s1 := 5) (v := 0) (w := 0x5B60) (by decide) (hc.at (0x0244, 0x5B60)) (by decide +kernel)) (by rw [withNzp_withNzp]; rfl)
  have s9 : Steps 1 ⟨(Function.update (Function.update (Function.update (Function.update (Function.update reg 1 (c)) 2 (c &&& reg 3)) 4 (0x8000)) 2 ((c &&& reg 3) &&& imm5 0)) 5 (reg 5 &&& imm5 0)), 0x0245, (withNzp psr (flagsOf (reg 5 &&& imm5 0))), mem, (out ++ [(c &&& reg 3)]), ((log ++ readEvents (reg 0 + offset6 0) c) ++ [PortEvent.write ddrAddr ((c &&& reg 3))]), io1, mcr, tc + 8, cfg⟩
      ⟨(Function.update (Function.update (Function.update (Function.update (Function.update reg 1 (c)) 2 (c &&& reg 3)) 4 (0x8000)) 2 ((c &&& reg 3) &&& imm5 0)) 5 ((reg 5 &&& imm5 0) + imm5 8)), 0x0246, (withNzp psr (flagsOf ((reg 5 &&& imm5 0) + imm5 8))), mem, (out ++ [(c &&& reg 3)]), ((log ++ readEvents (reg 0 + offset6 0) c) ++ [PortEvent.write ddrAddr ((c &&& reg 3))]), io1, mcr, tc + 9, cfg⟩ :=
    Steps.cast (Steps.addImm (d := 5) (s1 := 5) (v := 8) (w := 0x1B68) (by decide) (hc.at (0x0245, 0x1B68)) (by decide +kernel)) (by rw [withNzp_withNzp, Function.update_idem]; rfl)
  exact s1.trans (s2.trans (s3.trans (s4.trans (s5.trans (s6.trans (s7.trans (s8.trans s9)))))))

/-- PUTSP: one shift, bit 15 of R1 being zero. -/
theorem putsp_shift_zero (hc : codeIn mem) (hb : (reg 1 + imm5 0).getLsbD 15 = false) :
    Steps 5 ⟨reg, 0x0246, psr, mem, out, log, io, mcr, tc, cfg⟩
      ⟨(Function.update (Function.update (Function.update reg 2 (reg 2 + reg 2)) 1 ((reg 1 + imm5 0) + (reg 1 + imm5 0))) 5 (reg 5 + imm5 (-1))), 0x024C, (withNzp psr (flagsOf (reg 5 + imm5 (-1)))), mem, out, log, io, mcr, tc + 5, cfg⟩ := by
  have s1 : Steps 1 ⟨reg, 0x0246, psr, mem, out, log, io, mcr, tc, cfg⟩
      ⟨(Function.update reg 2 (reg 2 + reg 2)), 0x0247, (withNzp psr (flagsOf (reg 2 + reg 2))), mem, out, log, io, mcr, tc + 1, cfg⟩ :=
    Steps.addReg (d := 2) (s1 := 2) (s2 := 2) (w := 0x1482) (by decide) (hc.at (0x0246, 0x1482)) (by decide +kernel)
  have s2 : Steps 1 ⟨(Function.update reg 2 (reg 2 + reg 2)), 0x0247, (withNzp psr (flagsOf (reg 2 + reg 2))), mem, out, log, io, mcr, tc + 1, cfg⟩
      ⟨(Function.update (Function.update reg 2 (reg 2 + reg 2)) 1 (reg 1 + imm5 0)), 0x0248, (withNzp psr (flagsOf (reg 1 + imm5 0))), mem, out, log, io, mcr, tc + 2, cfg⟩ :=
    Steps.cast (Steps.addImm (d := 1) (s1 := 1) (v := 0) (w := 0x1260) (by decide) (hc.at (0x0247, 0x1260)) (by decide +kernel)) (by rw [withNzp_withNzp]; rfl)
  have s3 : Steps 1 ⟨(Function.update (Function.update reg 2 (reg 2 + reg 2)) 1 (reg 1 + imm5 0)), 0x0248, (withNzp psr (flagsOf (reg 1 + imm5 0))), mem, out, log, io, mcr, tc + 2, cfg⟩
      ⟨(Function.update (Function.update reg 2 (reg 2 + reg 2)) 1 (reg 1 + imm5 0)), 0x024A, (withNzp psr (flagsOf (reg 1 + imm5 0))), mem, out, log, io, mcr, tc + 3, cfg⟩ :=
    Steps.brTaken (nzp := 0b011) (off := 1) (w := 0x0601) (by decide) (hc.at (0x0248, 0x0601)) (by decide +kernel) (zpTaken hb)
  have s4 : Steps 1 ⟨(Function.update (Function.update reg 2 (reg 2 + reg 2)) 1 (reg 1 + imm5 0)), 0x024A, (withNzp psr (flagsOf (reg 1 + imm5 0))), mem, out, log, io, mcr, tc + 3, cfg⟩
      ⟨(Function.update (Function.update reg 2 (reg 2 + reg 2)) 1 ((reg 1 + imm5 0) + (reg 1 + imm5 0))), 0x024B, (withNzp psr (flagsOf ((reg 1 + imm5 0) + (reg 1 + imm5 0)))), mem, out, log, io, mcr, tc + 4, cfg⟩ :=
    Steps.cast (Steps.addReg (d := 1) (s1 := 1) (s2 := 1) (w := 0x1241) (by decide) (hc.at (0x024A, 0x1241)) (by decide +kernel)) (by rw [withNzp_withNzp, Function.update_idem]; rfl)
  have s5 : Steps 1 ⟨(Function.update (Function.update reg 2 (reg 2 + reg 2)) 1 ((reg 1 + imm5 0) + (reg 1 + imm5 0))), 0x024B, (withNzp psr (flagsOf ((reg 1 + imm5 0) + (reg 1 + imm5 0)))), mem, out, log, io, mcr, tc + 4, cfg⟩
      ⟨(Function.update (Function.update (Function.update reg 2 (reg 2 + reg 2)) 1 ((reg 1 + imm5 0) + (reg 1 + imm5 0))) 5 (reg 5 + imm5 (-1))), 0x024C, (withNzp psr (flagsOf (reg 5 + imm5 (-1)))), mem, out, log, io, mcr, tc + 5, cfg⟩ :=
    Steps.cast (Steps.addImm (d := 5) (s1 := 5) (v := -1) (w := 0x1B7F) (by decide) (hc.at (0x024B, 0x1B7F)) (by decide +kernel)) (by rw [withNzp_withNzp]; rfl)
  exact s1.trans (s2.trans (s3.trans (s4.trans s5)))

/-- PUTSP: one shift, bit 15 of R1 being one. -/
theorem putsp_shift_one (hc : codeIn mem) (hb : (reg 1 + imm5 0).getLsbD 15 = true) :
    Steps 6 ⟨reg, 0x0246, psr, mem, out, log, io, mcr, tc, cfg⟩
      ⟨(Function.update (Function.update (Function.update (Function.update (Function.update reg 2 (reg 2 + reg 2)) 1 (reg 1 + imm5 0)) 2 ((reg 2 + reg 2) + imm5 1)) 1 ((reg 1 + imm5 0) + (reg 1 + imm5 0))) 5 (reg 5 + imm5 (-1))), 0x024C, (withNzp psr (flagsOf (reg 5 + imm5 (-1)))), mem, out, log, io, mcr, tc + 6, cfg⟩ := by
  have s1 : Steps 1 ⟨reg, 0x0246, psr, mem, out, log, io, mcr, tc, cfg⟩
      ⟨(Function.update reg 2 (reg 2 + reg 2)), 0x0247, (withNzp psr (flagsOf (reg 2 + reg 2))), mem, out, log, io, mcr, tc + 1, cfg⟩ :=
    Steps.addReg (d := 2) (s1 := 2) (s2 := 2) (w := 0x1482) (by decide) (hc.at (0x0246, 0x1482)) (by decide +kernel)
  have s2 : Steps 1 ⟨(Function.update reg 2 (reg 2 + reg 2)), 0x0247, (withNzp psr (flagsOf (reg 2 + reg 2))), mem, out, log, io, mcr, tc + 1, cfg⟩
      ⟨(Function.update (Function.update reg 2 (reg 2 + reg 2)) 1 (reg 1 + imm5 0)), 0x0248, (withNzp psr (flagsOf (reg 1 + imm5 0))), mem, out, log, io, mcr, tc + 2, cfg⟩ :=
    Steps.cast (Steps.addImm (d := 1) (s1 := 1) (v := 0) (w := 0x1260) (by decide) (hc.at (0x0247, 0x1260)) (by decide +kernel)) (by rw [withNzp_withNzp]; rfl)
  have s3 : Steps 1 ⟨(Function.update (Function.update reg 2 (reg 2 + reg 2)) 1 (reg 1 + imm5 0)), 0x0248, (withNzp psr (flagsOf (reg 1 + imm5 0))), mem, out, log, io, mcr, tc + 2, cfg⟩
      ⟨(Function.update (Function.update reg 2 (reg 2 + reg 2)) 1 (reg 1 + imm5 0)), 0x0249, (withNzp psr (flagsOf (reg 1 + imm5 0))), mem, out, log, io, mcr, tc + 3, cfg⟩ :=
    Steps.brNot (nzp := 0b011) (off := 1) (w := 0x0601) (by decide) (hc.at (0x0248, 0x0601)) (by decide +kernel) (zpNot hb)
  have s4 : Steps 1 ⟨(Function.update (Function.update reg 2 (reg 2 + reg 2)) 1 (reg 1 + imm5 0)), 0x0249, (withNzp psr (flagsOf (reg 1 + imm5 0))), mem, out, log, io, mcr, tc + 3, cfg⟩
      ⟨(Function.update (Function.update (Function.update reg 2 (reg 2 + reg 2)) 1 (reg 1 + imm5 0)) 2 ((reg 2 + reg 2) + imm5 1)), 0x024A, (withNzp psr (flagsOf ((reg 2 + reg 2) + imm5 1))), mem, out, log, io, mcr, tc + 4, cfg⟩ :=
    Steps.cast (Steps.addImm (d := 2) (s1 := 2) (v := 1) (w := 0x14A1) (by decide) (hc.at (0x0249, 0x14A1)) (by decide +kernel)) (by rw [withNzp_withNzp]; rfl)
  have s5 : Steps 1 ⟨(Function.update (Function.update (Function.update reg 2 (reg 2 + reg 2)) 1 (reg 1 + imm5 0)) 2 ((reg 2 + reg 2) + imm5 1)), 0x024A, (withNzp psr (flagsOf ((reg 2 + reg 2) + imm5 1))), mem, out, log, io, mcr, tc + 4, cfg⟩
      ⟨(Function.update (Function.update (Function.update (Function.update reg 2 (reg 2 + reg 2)) 1 (reg 1 + imm5 0)) 2 ((reg 2 + reg 2) + imm5 1)) 1 ((reg 1 + imm5 0) + (reg 1 + imm5 0))), 0x024B, (withNzp psr (flagsOf ((reg 1 + imm5 0) + (reg 1 + imm5 0)))), mem, out, log, io, mcr, tc + 5, cfg⟩ :=
    Steps.cast (Steps.addReg (d := 1) (s1 := 1) (s2 := 1) (w := 0x1241) (by decide) (hc.at (0x024A, 0x1241)) (by decide +kernel)) (by rw [withNzp_withNzp]; rfl)
  have s6 : Steps 1 ⟨(Function.update (Function.update (Function.update (Function.update reg 2 (reg 2 + reg 2)) 1 (reg 1 + imm5 0)) 2 ((reg 2 + reg 2) + imm5 1)) 1 ((reg 1 + imm5 0) + (reg 1 + imm5 0))), 0x024B, (withNzp psr (flagsOf ((reg 1 + imm5 0) + (reg 1 + imm5 0)))), mem, out, log, io, mcr, tc + 5, cfg⟩
      ⟨(Function.update (Function.update (Function.update (Function.update (Function.update reg 2 (reg 2 + reg 2)) 1 (reg 1 + imm5 0)) 2 ((reg 2 + reg 2) + imm5 1)) 1 ((reg 1 + imm5 0) + (reg 1 + imm5 0))) 5 (reg 5 + imm5 (-1))), 0x024C, (withNzp psr (flagsOf (reg 5 + imm5 (-1)))), mem, out, log, io, mcr, tc + 6, cfg⟩ :=
    Steps.cast (Steps.addImm (d := 5) (s1 := 5) (v := -1) (w := 0x1B7F) (by decide) (hc.at (0x024B, 0x1B7F)) (by decide +kernel)) (by rw [withNzp_withNzp]; rfl)
  exact s1.trans (s2.trans (s3.trans (s4.trans (s5.trans s6))))

/-- PUTSP: a zero high byte ends the string. -/
theorem putsp_high_zero (hc : codeIn mem) (hn : reg 2 + imm5 0 = 0) :
    Steps 2 ⟨reg, 0x024D, psr, mem, out, log, io, mcr, tc, cfg⟩
      ⟨(Function.update reg 2 (reg 2 + imm5 0)), 0x0254, (withNzp psr (flagsOf (reg 2 + imm5 0))), mem, out, log, io, mcr, tc + 2, cfg⟩ := by
  have s1 : Steps 1 ⟨reg, 0x024D, psr, mem, out, log, io, mcr, tc, cfg⟩
      ⟨(Function.update reg 2 (reg 2 + imm5 0)), 0x024E, (withNzp psr (flagsOf (reg 2 + imm5 0))), mem, out, log, io, mcr, tc + 1, cfg⟩ :=
    Steps.addImm (d := 2) (s1 := 2) (v := 0) (w := 0x14A0) (by decide) (hc.at (0x024D, 0x14A0)) (by decide +kernel)
  have s2 : Steps 1 ⟨(Function.update reg 2 (reg 2 + imm5 0)), 0x024E, (withNzp psr (flagsOf (reg 2 + imm5 0))), mem, out, log, io, mcr, tc + 1, cfg⟩
      ⟨(Function.update reg 2 (reg 2 + imm5 0)), 0x0254, (withNzp psr (flagsOf (reg 2 + imm5 0))), mem, out, log, io, mcr, tc + 2, cfg⟩ :=
    Steps.brTaken (nzp := 0b010) (off := 5) (w := 0x0405) (by decide) (hc.at (0x024E, 0x0405)) (by decide +kernel) (zTaken hn)
  exact s1.trans s2

/-- PUTSP: the high byte is shown and the pointer advances. -/
theorem putsp_high (hc : codeIn mem) (hn : reg 2 + imm5 0 ≠ 0) :
    Steps 7 ⟨reg, 0x024D, psr, mem, out, log, io, mcr, tc, cfg⟩
      ⟨(Function.update (Function.update (Function.update reg 2 (reg 2 + imm5 0)) 4 (0x8000)) 0 (reg 0 + imm5 1)), 0x023D, (withNzp psr (flagsOf (reg 0 + imm5 1))), mem, (out ++ [(reg 2 + imm5 0)]), (log ++ [PortEvent.write ddrAddr ((reg 2 + imm5 0))]), io, mcr, tc + 7, cfg⟩ := by
  have s1 : Steps 1 ⟨reg, 0x024D, psr, mem, out, log, io, mcr, tc, cfg⟩
      ⟨(Function.update reg 2 (reg 2 + imm5 0)), 0x024E, (withNzp psr (flagsOf (reg 2 + imm5 0))), mem, out, log, io, mcr, tc + 1, cfg⟩ :=
    Steps.addImm (d := 2) (s1 := 2) (v := 0) (w := 0x14A0) (by decide) (hc.at (0x024D, 0x14A0)) (by decide +kernel)
  have s2 : Steps 1 ⟨(Function.update reg 2 (reg 2 + imm5 0)), 0x024E, (withNzp psr (flagsOf (reg 2 + imm5 0))), mem, out, log, io, mcr, tc + 1, cfg⟩
      ⟨(Function.update reg 2 (reg 2 + imm5 0)), 0x024F, (withNzp psr (flagsOf (reg 2 + imm5 0))), mem, out, log, io, mcr, tc + 2, cfg⟩ :=
    Steps.brNot (nzp := 0b010) (off := 5) (w := 0x0405) (by decide) (hc.at (0x024E, 0x0405)) (by decide +kernel) (zNot hn)
  have s3 : Steps 1 ⟨(Function.update reg 2 (reg 2 + imm5 0)), 0x024F, (withNzp psr (flagsOf (reg 2 + imm5 0))), mem, out, log, io, mcr, tc + 2, cfg⟩
      ⟨(Function.update (Function.update reg 2 (reg 2 + imm5 0)) 4 (0x8000)), 0x0250, (withNzp psr (flagsOf (0x8000))), mem, out, log, io, mcr, tc + 3, cfg⟩ :=
    Steps.cast (Steps.ldiDsr (d := 4) (off := 11) (w := 0xA80B) (by decide) (hc.at (0x024F, 0xA80B)) (by decide +kernel) (by decide) (hc.at (0x025B, 0xFE04))) (by rw [withNzp_withNzp]; rfl)
  have s4 : Steps 1 ⟨(Function.update (Function.update reg 2 (reg 2 + imm5 0)) 4 (0x8000)), 0x0250, (withNzp psr (flagsOf (0x8000))), mem, out, log, io, mcr, tc + 3, cfg⟩
      ⟨(Function.update (Function.update reg 2 (reg 2 + imm5 0)) 4 (0x8000)), 0x0251, (withNzp psr (flagsOf (0x8000))), mem, out, log, io, mcr, tc + 4, cfg⟩ :=
    Steps.brNot (nzp := 0b011) (off := -2) (w := 0x07FE) (by decide) (hc.at (0x0250, 0x07FE)) (by decide +kernel) (by rw [branchTaken_withNzp]; decide)
  have s5 : Steps 1 ⟨(Function.update (Function.update reg 2 (reg 2 + imm5 0)) 4 (0x8000)), 0x0251, (withNzp psr (flagsOf (0x8000))), mem, out, log, io, mcr, tc + 4, cfg⟩
      ⟨(Function.update (Function.update reg 2 (reg 2 + imm5 0)) 4 (0x8000)), 0x0252, (withNzp psr (flagsOf (0x8000))), mem, (out ++ [(reg 2 + imm5 0)]), (log ++ [PortEvent.write ddrAddr ((reg 2 + imm5 0))]), io, mcr, tc + 5, cfg⟩ :=
    Steps.stiDdr (r := 2) (off := 10) (w := 0xB40A) (by decide) (hc.at (0x0251, 0xB40A)) (by decide +kernel) (by decide) (hc.at (0x025C, 0xFE06))
  have s6 : Steps 1 ⟨(Function.update (Function.update reg 2 (reg 2 + imm5 0)) 4 (0x8000)), 0x0252, (withNzp psr (flagsOf (0x8000))), mem, (out ++ [(reg 2 + imm5 0)]), (log ++ [PortEvent.write ddrAddr ((reg 2 + imm5 0))]), io, mcr, tc + 5, cfg⟩
      ⟨(Function.update (Function.update (Function.update reg 2 (reg 2 + imm5 0)) 4 (0x8000)) 0 (reg 0 + imm5 1)), 0x0253, (withNzp psr (flagsOf (reg 0 + imm5 1))), mem, (out ++ [(reg 2 + imm5 0)]), (log ++ [PortEvent.write ddrAddr ((reg 2 + imm5 0))]), io, mcr, tc + 6, cfg⟩ :=
    Steps.cast (Steps.addImm (d := 0) (s1 := 0) (v := 1) (w := 0x1021) (by decide) (hc.at (0x0252, 0x1021)) (by decide +kernel)) (by rw [withNzp_withNzp]; rfl)
  have s7 : Steps 1 ⟨(Function.update (Function.update (Function.update reg 2 (reg 2 + imm5 0)) 4 (0x8000)) 0 (reg 0 + imm5 1)), 0x0253, (withNzp psr (flagsOf (reg 0 + imm5 1))), mem, (out ++ [(reg 2 + imm5 0)]), (log ++ [PortEvent.write ddrAddr ((reg 2 + imm5 0))]), io, mcr, tc + 6, cfg⟩
      ⟨(Function.update (Function.update (Function.update reg 2 (reg 2 + imm5 0)) 4 (0x8000)) 0 (reg 0 + imm5 1)), 0x023D, (withNzp psr (flagsOf (reg 0 + imm5 1))), mem, (out ++ [(reg 2 + imm5 0)]), (log ++ [PortEvent.write ddrAddr ((reg 2 + imm5 0))]), io, mcr, tc + 7, cfg⟩ :=
    Steps.brTaken (nzp := 0b111) (off := -23) (w := 0x0FE9) (by decide) (hc.at (0x0253, 0x0FE9)) (by decide +kernel) (allTaken)
  exact s1.trans (s2.trans (s3.trans (s4.trans (s5.trans (s6.trans s7)))))

/-- PUTSP: the restored registers and the return. -/
theorem putsp_done (hc : codeIn mem) {x0 x1 x2 x3 x4 x5 : Word}
    (h0 : Memory.readWord mem 0x025E = x0)
    (h1 : Memory.readWord mem 0x025F = x1)
    (h2 : Memory.readWord mem 0x0260 = x2)
    (h3 : Memory.readWord mem 0x0261 = x3)
    (h4 : Memory.readWord mem 0x0262 = x4)
    (h5 : Memory.readWord mem 0x0263 = x5) :
    Steps 7 ⟨reg, 0x0254, psr, mem, out, log, io, mcr, tc, cfg⟩
      ⟨(Function.update (Function.update (Function.update (Function.update (Function.update (Function.update reg 0 (x0)) 1 (x1)) 2 (x2)) 3 (x3)) 4 (x4)) 5 (x5)), reg 7, (withNzp psr (flagsOf (x5))), mem, out, log, io, mcr, tc + 7, cfg⟩ := by
  have s1 : Steps 1 ⟨reg, 0x0254, psr, mem, out, log, io, mcr, tc, cfg⟩
      ⟨(Function.update reg 0 (x0)), 0x0255, (withNzp psr (flagsOf (x0))), mem, out, log, io, mcr, tc + 1, cfg⟩ :=
    Steps.ld (d := 0) (off := 9) (v := x0) (w := 0x2009) (by decide) (hc.at (0x0254, 0x2009)) (by decide +kernel) (by decide) (h0)
  have s2 : Steps 1 ⟨(Function.update reg 0 (x0)), 0x0255, (withNzp psr (flagsOf (x0))), mem, out, log, io, mcr, tc + 1, cfg⟩
      ⟨(Function.update (Function.update reg 0 (x0)) 1 (x1)), 0x0256, (withNzp psr (flagsOf (x1))), mem, out, log, io, mcr, tc + 2, cfg⟩ :=
    Steps.cast (Steps.ld (d := 1) (off := 9) (v := x1) (w := 0x2209) (by decide) (hc.at (0x0255, 0x2209)) (by decide +kernel) (by decide) (h1)) (by rw [withNzp_withNzp]; rfl)
  have s3 : Steps 1 ⟨(Function.update (Function.update reg 0 (x0)) 1 (x1)), 0x0256, (withNzp psr (flagsOf (x1))), mem, out, log, io, mcr, tc + 2, cfg⟩
      ⟨(Function.update (Function.update (Function.update reg 0 (x0)) 1 (x1)) 2 (x2)), 0x0257, (withNzp psr (flagsOf (x2))), mem, out, log, io, mcr, tc + 3, cfg⟩ :=
    Steps.cast (Steps.ld (d := 2) (off := 9) (v := x2) (w := 0x2409) (by decide) (hc.at (0x0256, 0x2409)) (by decide +kernel) (by decide) (h2)) (by rw [withNzp_withNzp]; rfl)
  have s4 : Steps 1 ⟨(Function.update (Function.update (Function.update reg 0 (x0)) 1 (x1)) 2 (x2)), 0x0257, (withNzp psr (flagsOf (x2))), mem, out, log, io, mcr, tc + 3, cfg⟩
      ⟨(Function.update (Function.update (Function.update (Function.update reg 0 (x0)) 1 (x1)) 2 (x2)) 3 (x3)), 0x0258, (withNzp psr (flagsOf (x3))), mem, out, log, io, mcr, tc + 4, cfg⟩ :=
    Steps.cast (Steps.ld (d := 3) (off := 9) (v := x3) (w := 0x2609) (by decide) (hc.at (0x0257, 0x2609)) (by decide +kernel) (by decide) (h3)) (by rw [withNzp_withNzp]; rfl)
  have s5 : Steps 1 ⟨(Function.update (Function.update (Function.update (Function.update reg 0 (x0)) 1 (x1)) 2 (x2)) 3 (x3)), 0x0258, (withNzp psr (flagsOf (x3))), mem, out, log, io, mcr, tc + 4, cfg⟩
      ⟨(Function.update (Function.update (Function.update (Function.update (Function.update reg 0 (x0)) 1 (x1)) 2 (x2)) 3 (x3)) 4 (x4)), 0x0259, (withNzp psr (flagsOf (x4))), mem, out, log, io, mcr, tc + 5, cfg⟩ :=
    Steps.cast (Steps.ld (d := 4) (off := 9) (v := x4) (w := 0x2809) (by decide) (hc.at (0x0258, 0x2809)) (by decide +kernel) (by decide) (h4)) (by rw [withNzp_withNzp]; rfl)
  have s6 : Steps 1 ⟨(Function.update (Function.update (Function.update (Function.update (Function.update reg 0 (x0)) 1 (x1)) 2 (x2)) 3 (x3)) 4 (x4)), 0x0259, (withNzp psr (flagsOf (x4))), mem, out, log, io, mcr, tc + 5, cfg⟩
      ⟨(Function.update (Function.update (Function.update (Function.update (Function.update (Function.update reg 0 (x0)) 1 (x1)) 2 (x2)) 3 (x3)) 4 (x4)) 5 (x5)), 0x025A, (withNzp psr (flagsOf (x5))), mem, out, log, io, mcr, tc + 6, cfg⟩ :=
    Steps.cast (Steps.ld (d := 5) (off := 9) (v := x5) (w := 0x2A09) (by decide) (hc.at (0x0259, 0x2A09)) (by decide +kernel) (by decide) (h5)) (by rw [withNzp_withNzp]; rfl)
  have s7 : Steps 1 ⟨(Function.update (Function.update (Function.update (Function.update (Function.update (Function.update reg 0 (x0)) 1 (x1)) 2 (x2)) 3 (x3)) 4 (x4)) 5 (x5)), 0x025A, (withNzp psr (flagsOf (x5))), mem, out, log, io, mcr, tc + 6, cfg⟩
      ⟨(Function.update (Function.update (Function.update (Function.update (Function.update (Function.update reg 0 (x0)) 1 (x1)) 2 (x2)) 3 (x3)) 4 (x4)) 5 (x5)), reg 7, (withNzp psr (flagsOf (x5))), mem, out, log, io, mcr, tc + 7, cfg⟩ :=
    Steps.ret  (w := 0xC1C0) (by decide) (hc.at (0x025A, 0xC1C0)) (by decide +kernel)
  exact s1.trans (s2.trans (s3.trans (s4.trans (s5.trans (s6.trans s7)))))

/-- HALT: R0 is cleared. -/
theorem halt_clear (hc : codeIn mem) :
    Steps 1 ⟨reg, 0x0264, psr, mem, out, log, io, mcr, tc, cfg⟩
      ⟨(Function.update reg 0 (reg 0 &&& imm5 0)), 0x0265, (withNzp psr (flagsOf (reg 0 &&& imm5 0))), mem, out, log, io, mcr, tc + 1, cfg⟩ := by
  have s1 : Steps 1 ⟨reg, 0x0264, psr, mem, out, log, io, mcr, tc, cfg⟩
      ⟨(Function.update reg 0 (reg 0 &&& imm5 0)), 0x0265, (withNzp psr (flagsOf (reg 0 &&& imm5 0))), mem, out, log, io, mcr, tc + 1, cfg⟩ :=
    Steps.andImm (d := 0) (s1 := 0) (v := 0) (w := 0x5020) (by decide) (hc.at (0x0264, 0x5020)) (by decide +kernel)
  exact s1

end Sys2Proof.Machine
end

