-- ==== Sys2Proof/Laws/RoutineLoops.lean ====
section
/-! SUPPORT. The loops of the reference routines: the polls of GETC and IN, the characters of PUTS, and the shift rounds and
words of PUTSP (R300, R302 to R304). -/

namespace Sys2Proof.Machine

variable {reg : RegIdx → Word} {psr mcr : Word} {mem : Memory} {out : List Word} {io io' : Ports} {log : List PortEvent}
  {tc : Nat} {cfg : Config}

theorem add_offset6_zero (v : Word) : v + offset6 0 = v := by
  rw [show offset6 0 = 0 from by decide]
  simp

theorem add_imm5_one (v : Word) : v + imm5 1 = v + 1 := by rw [show imm5 1 = 1 from by decide]

theorem stringEvents_cons (bytes : Word → List Word) (a w : Word) (ws : List Word) :
    stringEvents bytes a (w :: ws) =
      readEvents a w ++ (bytes w).map (PortEvent.write ddrAddr) ++ stringEvents bytes (a + 1) ws := rfl

/-! ## The loops -/

/-- GETC: every poll of a keyboard that is not ready, then the key and the return. -/
theorem getc_steps (hc : codeIn mem) {ready key : Word} (hr : ready.getLsbD 15 = true) {polls : List Word}
    (hp : ∀ w ∈ polls, w.getLsbD 15 = false) (hk : ReadsAll mem mcr (keyAnswers polls ready key) io io') :
    Steps (4 + 2 * polls.length) ⟨reg, 0x0200, psr, mem, out, log, io, mcr, tc, cfg⟩
      ⟨Function.update reg 0 key, reg 7, withNzp psr (flagsOf key), mem, out, log ++ keyReads polls ready key, io', mcr,
        tc + (4 + 2 * polls.length), cfg⟩ := by
  induction polls generalizing reg psr log io tc with
  | nil =>
    obtain ⟨io1, h1, io2, h2, rfl⟩ := hk
    exact (getc_key hc h1 h2 hr).cast (by simp only [List.append_assoc]; rfl)
  | cons v vs ih =>
    obtain ⟨io1, h1, h2⟩ := hk
    have h := (getc_poll (reg := reg) (psr := psr) (out := out) (log := log) (tc := tc) (cfg := cfg) hc h1
      (hp v (by simp))).trans (ih (fun w hw => hp w (by simp [hw])) h2)
    refine h.cast ?_
    rw [Function.update_idem, withNzp_withNzp, List.append_assoc, List.length_cons]
    congr 1
    omega

/-- IN after R1 is saved: the polls, then the key, its echo and the return. -/
theorem in_steps (hc : codeIn mem) {ready key x : Word} (hs : Memory.readWord mem 0x0235 = x)
    (hr : ready.getLsbD 15 = true) {polls : List Word} (hp : ∀ w ∈ polls, w.getLsbD 15 = false)
    (hk : ReadsAll mem mcr (keyAnswers polls ready key) io io') :
    Steps (8 + 2 * polls.length) ⟨reg, 0x0229, psr, mem, out, log, io, mcr, tc, cfg⟩
      ⟨Function.update (Function.update reg 0 key) 1 x, reg 7, withNzp psr (flagsOf x), mem, out ++ [key],
        log ++ (keyReads polls ready key ++ [PortEvent.write ddrAddr key]), io', mcr, tc + (8 + 2 * polls.length), cfg⟩ := by
  induction polls generalizing reg psr log io tc with
  | nil =>
    obtain ⟨io1, h1, io2, h2, rfl⟩ := hk
    exact (in_key hc h1 h2 hr hs).cast (by simp only [List.append_assoc]; rfl)
  | cons v vs ih =>
    obtain ⟨io1, h1, h2⟩ := hk
    have h := (in_poll (reg := reg) (psr := psr) (out := out) (log := log) (tc := tc) (cfg := cfg) hc h1
      (hp v (by simp))).trans (ih (fun w hw => hp w (by simp [hw])) h2)
    refine h.cast ?_
    rw [Function.update_idem, withNzp_withNzp, List.append_assoc, List.length_cons]
    congr 1
    omega

/-- PUTS: the characters and the terminator; the registers R0, R1 and R2 are scratch. -/
theorem puts_loop (hc : codeIn mem) {chars : List Word} (hn : ∀ c ∈ chars, c ≠ 0) (h3 : reg 3 = 0x00FF)
    (hs : ReadsAll mem mcr (placedAt (reg 0) (chars ++ [0])) io io') :
    ∃ reg' f, Steps (2 + 8 * chars.length) ⟨reg, 0x0214, psr, mem, out, log, io, mcr, tc, cfg⟩
        ⟨reg', 0x021C, withNzp psr f, mem, out ++ chars.map (· &&& 0x00FF),
          log ++ stringEvents charBytes (reg 0) (chars ++ [0]), io', mcr, tc + (2 + 8 * chars.length), cfg⟩ ∧
      ∀ r, 3 ≤ r.val → reg' r = reg r := by
  induction chars generalizing reg psr out log io tc with
  | nil =>
    obtain ⟨io1, h1, rfl⟩ := hs
    rw [← add_offset6_zero (reg 0)] at h1
    refine ⟨Function.update reg 1 0, flagsOf 0, (puts_end hc h1).cast ?_, ?_⟩
    · rw [add_offset6_zero, List.map_nil, List.append_nil, List.nil_append, stringEvents_cons]
      simp [charBytes, stringEvents, placedAt]
    · intro r hr
      rw [Function.update_of_ne]
      rintro rfl
      simp at hr
  | cons c cs ih =>
    obtain ⟨io1, h1, h2⟩ := hs
    rw [← add_offset6_zero (reg 0)] at h1
    have h := puts_char (reg := reg) (psr := psr) (out := out) (log := log) (tc := tc) (cfg := cfg) hc (hn c (by simp)) h1
    generalize hR : (Function.update _ (0 : RegIdx) (reg 0 + imm5 1) : RegIdx → Word) = R at h
    have hR0 : R 0 = reg 0 + 1 := by rw [← hR, Function.update_self, add_imm5_one]
    have hRr : ∀ r : RegIdx, 3 ≤ r.val → R r = reg r := by
      intro r hr
      rw [← hR]
      repeat rw [Function.update_of_ne (by rintro rfl; simp at hr)]
    rw [← hR0] at h2
    obtain ⟨reg', f, hst, hfr⟩ := ih (reg := R) (psr := withNzp psr (flagsOf (reg 0 + imm5 1)))
      (out := out ++ [c &&& reg 3]) (log := log ++ readEvents (reg 0 + offset6 0) c ++ [PortEvent.write ddrAddr (c &&& reg 3)])
      (tc := tc + 8) (fun x hx => hn x (by simp [hx])) (by rw [hRr 3 (by decide), h3]) h2
    refine ⟨reg', f, (h.trans hst).cast ?_, fun r hr => (hfr r hr).trans (hRr r hr)⟩
    rw [withNzp_withNzp, List.cons_append, stringEvents_cons, charBytes, if_neg (hn c (by simp)), hR0, h3, add_offset6_zero]
    simp only [List.map_cons, List.map_nil, List.append_assoc, List.cons_append, List.nil_append, List.length_cons]
    congr 1
    omega

/-- A count of 1 to 8 less one, and whether BRp goes on. -/
theorem count_down (n : Nat) (h1 : 1 ≤ n) (h8 : n ≤ 8) :
    BitVec.ofNat 16 n + imm5 (-1) = BitVec.ofNat 16 (n - 1) ∧
      ∀ psr, branchTaken 0b001 (withNzp psr (flagsOf (BitVec.ofNat 16 n + imm5 (-1)))) = decide (1 < n) := by
  have h : ∀ n : Fin 9, 1 ≤ n.val → BitVec.ofNat 16 n.val + imm5 (-1) = BitVec.ofNat 16 (n.val - 1) ∧
      ((0b001#3).getLsbD 2 && (flagsOf (BitVec.ofNat 16 n.val + imm5 (-1))).getLsbD 2 ||
        (0b001#3).getLsbD 1 && (flagsOf (BitVec.ofNat 16 n.val + imm5 (-1))).getLsbD 1 ||
        (0b001#3).getLsbD 0 && (flagsOf (BitVec.ofNat 16 n.val + imm5 (-1))).getLsbD 0) = decide (1 < n.val) := by
    decide +kernel
  have hn := h ⟨n, by omega⟩ h1
  exact ⟨hn.1, fun psr => by rw [branchTaken_withNzp]; exact hn.2⟩

theorem add_imm5_zero (v : Word) : v + imm5 0 = v := by
  rw [show imm5 0 = 0 from by decide]
  simp

theorem and_imm5_zero (v : Word) : v &&& imm5 0 = 0 := by
  rw [show imm5 0 = 0 from by decide]
  exact BitVec.and_zero

/-- PUTSP: one shift, in numbers: R2 takes the top bit of R1, R1 moves up by one, R5 counts down. -/
theorem putsp_shift (hc : codeIn mem) :
    ∃ k reg', Steps k ⟨reg, 0x0246, psr, mem, out, log, io, mcr, tc, cfg⟩
        ⟨reg', 0x024C, withNzp psr (flagsOf (reg 5 + imm5 (-1))), mem, out, log, io, mcr, tc + k, cfg⟩ ∧
      reg' 5 = reg 5 + imm5 (-1) ∧ (reg' 1).toNat = 2 * (reg 1).toNat % 65536 ∧
      (reg' 2).toNat = (2 * (reg 2).toNat + (reg 1).toNat / 32768) % 65536 ∧
      ∀ r : RegIdx, r ≠ 1 → r ≠ 2 → r ≠ 5 → reg' r = reg r := by
  have hb : (reg 1).getLsbD 15 = decide (32768 ≤ (reg 1).toNat) := by
    have h := BitVec.msb_eq_decide (reg 1)
    rwa [BitVec.msb_eq_getLsbD_last] at h
  have hlt := (reg 1).isLt
  have h1 : imm5 1 = 1 := by decide
  cases hbit : (reg 1).getLsbD 15 with
  | true =>
    have hge : 32768 ≤ (reg 1).toNat := of_decide_eq_true (hb.symm.trans hbit)
    refine ⟨6, _, putsp_shift_one hc (by rw [add_imm5_zero]; exact hbit), ?_, ?_, ?_, ?_⟩
    · simp
    · simp [add_imm5_zero, BitVec.toNat_add]; omega
    · simp [add_imm5_zero, BitVec.toNat_add, h1]; omega
    · intro r a b c; simp [a, b, c]
  | false =>
    have hge : ¬ 32768 ≤ (reg 1).toNat := of_decide_eq_false (hb.symm.trans hbit)
    refine ⟨5, _, putsp_shift_zero hc (by rw [add_imm5_zero]; exact hbit), ?_, ?_, ?_, ?_⟩
    · simp
    · simp [add_imm5_zero, BitVec.toNat_add]; omega
    · simp [BitVec.toNat_add]; omega
    · intro r a b c; simp [a, b, c]

/-- PUTSP: the rounds that are left when R5 is `n`: R2 ends as the high byte of the word whose bits R1 and R2 hold. -/
theorem putsp_rounds (hc : codeIn mem) (w n : Nat) (hw : w < 65536) (h1 : 1 ≤ n) (h8 : n ≤ 8) (h5 : reg 5 = BitVec.ofNat 16 n)
    (hr1 : (reg 1).toNat = w * 2 ^ (8 - n) % 65536) (hr2 : (reg 2).toNat = w / 2 ^ (8 + n)) :
    ∃ k reg' f, Steps k ⟨reg, 0x0246, psr, mem, out, log, io, mcr, tc, cfg⟩
        ⟨reg', 0x024D, withNzp psr f, mem, out, log, io, mcr, tc + k, cfg⟩ ∧
      (reg' 2).toNat = w / 256 ∧ ∀ r : RegIdx, r ≠ 1 → r ≠ 2 → r ≠ 5 → reg' r = reg r := by
  induction n generalizing reg psr tc with
  | zero => omega
  | succ n ih =>
    obtain ⟨k, R, hs, R5, R1, R2, hfr⟩ := putsp_shift (reg := reg) (psr := psr) (out := out) (log := log) (io := io)
      (mcr := mcr) (tc := tc) (cfg := cfg) hc
    have hd := count_down (n + 1) h1 h8
    rw [← h5] at hd
    have R1' : (R 1).toNat = w * 2 ^ (8 - n) % 65536 := by
      rw [R1, hr1]
      have h7 : n ≤ 7 := by omega
      clear ih hs h8
      interval_cases n <;> omega
    have R2' : (R 2).toNat = w / 2 ^ (8 + n) := by
      rw [R2, hr1, hr2]
      have h7 : n ≤ 7 := by omega
      clear ih hs h8
      interval_cases n <;> omega
    by_cases hn : n = 0
    · subst hn
      have hb := Steps.brNot (reg := R) (out := out) (log := log) (io := io) (mcr := mcr) (tc := tc + k) (cfg := cfg)
        (pc := 0x024C) (w := 0x03F9) (nzp := 0b001) (off := -7) (by decide) (hc.at (0x024C, 0x03F9)) (by decide +kernel)
        (hd.2 psr)
      exact ⟨_, R, _, hs.trans hb |>.cast (by congr 1; omega), R2', hfr⟩
    · have hb := Steps.brTaken (reg := R) (out := out) (log := log) (io := io) (mcr := mcr) (tc := tc + k) (cfg := cfg)
        (pc := 0x024C) (w := 0x03F9) (nzp := 0b001) (off := -7) (by decide) (hc.at (0x024C, 0x03F9)) (by decide +kernel)
        ((hd.2 psr).trans (by simp; omega))
      obtain ⟨k', R', f, hs', hR, hfr'⟩ := ih (reg := R) (psr := withNzp psr (flagsOf (reg 5 + imm5 (-1))))
        (tc := tc + k + 1) (by omega) (by omega) (by rw [R5, hd.1]; rfl) R1' R2'
      refine ⟨_, R', f, ((hs.trans hb).trans hs').cast ?_, hR, fun r a b c => (hfr' r a b c).trans (hfr r a b c)⟩
      rw [withNzp_withNzp]
      congr 1
      omega

/-- PUTSP: the high byte of a word whose low byte has been shown stands in R2. -/
theorem putsp_shifted (hc : codeIn mem) {c : Word} (h3 : reg 3 = 0x00FF) (hr : Reads mem mcr (reg 0) io c io')
    (hlo : c &&& 0x00FF ≠ 0) :
    ∃ k Q f, Steps k ⟨reg, 0x023D, psr, mem, out, log, io, mcr, tc, cfg⟩
        ⟨Q, 0x024D, withNzp psr f, mem, out ++ [c &&& 0x00FF],
          log ++ readEvents (reg 0) c ++ [PortEvent.write ddrAddr (c &&& 0x00FF)], io', mcr, tc + k, cfg⟩ ∧
      Q 2 = c >>> 8 ∧ ∀ r : RegIdx, r ≠ 1 → r ≠ 2 → r ≠ 4 → r ≠ 5 → Q r = reg r := by
  rw [← add_offset6_zero (reg 0)] at hr
  have hl := putsp_low (reg := reg) (psr := psr) (out := out) (log := log) (tc := tc) (cfg := cfg) hc hr
    (by rw [h3]; exact hlo)
  rw [add_offset6_zero] at hl
  generalize hR : (Function.update _ (5 : RegIdx) _ : RegIdx → Word) = R at hl
  have hR5 : R 5 = BitVec.ofNat 16 8 := by
    rw [← hR, Function.update_self, and_imm5_zero]
    decide
  have hR1 : R 1 = c := by rw [← hR]; simp
  have hR2 : R 2 = 0 := by rw [← hR, Function.update_of_ne (by decide), Function.update_self, and_imm5_zero]
  have hRr : ∀ r : RegIdx, r ≠ 1 → r ≠ 2 → r ≠ 4 → r ≠ 5 → R r = reg r := by
    intro r a b d e; rw [← hR]; simp [a, b, d, e]
  obtain ⟨k, Q, f, hq, hQ2, hQr⟩ := putsp_rounds (reg := R) (psr := withNzp psr (flagsOf ((reg 5 &&& imm5 0) + imm5 8)))
    (out := out ++ [c &&& reg 3]) (log := log ++ readEvents (reg 0) c ++ [PortEvent.write ddrAddr (c &&& reg 3)])
    (io := io') (mcr := mcr) (tc := tc + 9) (cfg := cfg) hc c.toNat 8 c.isLt (by omega) (by omega) hR5
    (by rw [hR1]; have := c.isLt; omega) (by rw [hR2]; have := c.isLt; simp; omega)
  refine ⟨_, Q, f, (hl.trans hq).cast ?_, ?_, fun r a b d e => (hQr r a b e).trans (hRr r a b d e)⟩
  · rw [withNzp_withNzp, h3]
    congr 1
    omega
  · apply BitVec.eq_of_toNat_eq
    rw [hQ2, BitVec.toNat_ushiftRight, Nat.shiftRight_eq_div_pow]

/-- PUTSP: the word that ends the string. -/
theorem putsp_last (hc : codeIn mem) {c : Word} (h3 : reg 3 = 0x00FF) (hr : Reads mem mcr (reg 0) io c io')
    (he : endsPacked c) :
    ∃ k reg' f, Steps k ⟨reg, 0x023D, psr, mem, out, log, io, mcr, tc, cfg⟩
        ⟨reg', 0x0254, withNzp psr f, mem, out ++ packedBytes c,
          log ++ (readEvents (reg 0) c ++ (packedBytes c).map (PortEvent.write ddrAddr)), io', mcr, tc + k, cfg⟩ ∧
      ∀ r : RegIdx, 6 ≤ r.val → reg' r = reg r := by
  by_cases hlo : c &&& 0x00FF = 0
  · rw [← add_offset6_zero (reg 0)] at hr
    refine ⟨3, Function.update (Function.update reg 1 c) 2 (c &&& reg 3), flagsOf (c &&& reg 3),
      (putsp_low_zero hc hr (by rw [h3]; exact hlo)).cast ?_, ?_⟩
    · rw [packedBytes, if_pos hlo, List.map_nil, List.append_nil, List.append_nil, add_offset6_zero]
    · intro r hr
      repeat rw [Function.update_of_ne (by rintro rfl; simp at hr)]
  · have hhi : c >>> 8 = 0 := he.resolve_left hlo
    obtain ⟨k, Q, f, hq, hQ2, hQr⟩ := putsp_shifted (psr := psr) (out := out) (log := log) (tc := tc) (cfg := cfg) hc h3 hr hlo
    have hz := putsp_high_zero (reg := Q) (psr := withNzp psr f) (out := out ++ [c &&& 0x00FF])
      (log := log ++ readEvents (reg 0) c ++ [PortEvent.write ddrAddr (c &&& 0x00FF)]) (io := io') (mcr := mcr)
      (tc := tc + k) (cfg := cfg) hc (by rw [add_imm5_zero, hQ2, hhi])
    refine ⟨_, Function.update Q 2 (Q 2 + imm5 0), flagsOf (Q 2 + imm5 0), (hq.trans hz).cast ?_, fun r hr => ?_⟩
    · rw [packedBytes, if_neg hlo, if_pos hhi, withNzp_withNzp, List.map_singleton, ← List.append_assoc]
      congr 1
      omega
    · rw [Function.update_of_ne (by rintro rfl; simp at hr)]
      exact hQr r (by rintro rfl; simp at hr) (by rintro rfl; simp at hr) (by rintro rfl; simp at hr)
        (by rintro rfl; simp at hr)

/-- PUTSP: a word that does not end the string: both its bytes are shown and the pointer advances. -/
theorem putsp_word (hc : codeIn mem) {c : Word} (h3 : reg 3 = 0x00FF) (hr : Reads mem mcr (reg 0) io c io')
    (hn : ¬ endsPacked c) :
    ∃ k R f, Steps k ⟨reg, 0x023D, psr, mem, out, log, io, mcr, tc, cfg⟩
        ⟨R, 0x023D, withNzp psr f, mem, out ++ packedBytes c,
          log ++ (readEvents (reg 0) c ++ (packedBytes c).map (PortEvent.write ddrAddr)), io', mcr, tc + k, cfg⟩ ∧
      R 0 = reg 0 + 1 ∧ ∀ r : RegIdx, r = 3 ∨ 6 ≤ r.val → R r = reg r := by
  have hlo : c &&& 0x00FF ≠ 0 := fun h => hn (Or.inl h)
  have hhi : c >>> 8 ≠ 0 := fun h => hn (Or.inr h)
  obtain ⟨k, Q, f, hq, hQ2, hQr⟩ := putsp_shifted (psr := psr) (out := out) (log := log) (tc := tc) (cfg := cfg) hc h3 hr hlo
  have hz := putsp_high (reg := Q) (psr := withNzp psr f) (out := out ++ [c &&& 0x00FF])
    (log := log ++ readEvents (reg 0) c ++ [PortEvent.write ddrAddr (c &&& 0x00FF)]) (io := io') (mcr := mcr)
    (tc := tc + k) (cfg := cfg) hc (by rw [add_imm5_zero, hQ2]; exact hhi)
  have hQ0 : Q 0 = reg 0 := hQr 0 (by decide) (by decide) (by decide) (by decide)
  generalize hP : (Function.update _ (0 : RegIdx) (Q 0 + imm5 1) : RegIdx → Word) = P at hz
  refine ⟨_, P, flagsOf (Q 0 + imm5 1), (hq.trans hz).cast ?_, by rw [← hP, Function.update_self, hQ0, add_imm5_one],
    fun r hr => ?_⟩
  · rw [packedBytes, if_neg hlo, if_neg hhi, withNzp_withNzp, add_imm5_zero, hQ2]
    simp only [List.map_cons, List.map_nil, List.append_assoc, List.cons_append, List.nil_append]
    congr 1
    omega
  · have h0 : r ≠ 0 ∧ r ≠ 1 ∧ r ≠ 2 ∧ r ≠ 4 ∧ r ≠ 5 := by
      rcases hr with rfl | hr
      · decide
      · refine ⟨?_, ?_, ?_, ?_, ?_⟩ <;> (rintro rfl; simp at hr)
    rw [← hP]
    simp [h0, hQr r h0.2.1 h0.2.2.1 h0.2.2.2.1 h0.2.2.2.2]

/-- PUTSP: the words of the packed string; R0, R1, R2, R4 and R5 are scratch. -/
theorem putsp_loop (hc : codeIn mem) {ws : List Word} {last : Word} (hn : ∀ w ∈ ws, ¬ endsPacked w) (he : endsPacked last)
    (h3 : reg 3 = 0x00FF) (hs : ReadsAll mem mcr (placedAt (reg 0) (ws ++ [last])) io io') :
    ∃ k reg' f, Steps k ⟨reg, 0x023D, psr, mem, out, log, io, mcr, tc, cfg⟩
        ⟨reg', 0x0254, withNzp psr f, mem, out ++ (ws ++ [last]).flatMap packedBytes,
          log ++ stringEvents packedBytes (reg 0) (ws ++ [last]), io', mcr, tc + k, cfg⟩ ∧
      ∀ r : RegIdx, 6 ≤ r.val → reg' r = reg r := by
  induction ws generalizing reg psr out log io tc with
  | nil =>
    obtain ⟨io1, h1, rfl⟩ := hs
    obtain ⟨k, reg', f, hst, hfr⟩ := putsp_last (reg := reg) (psr := psr) (out := out) (log := log) (tc := tc) (cfg := cfg)
      hc h3 h1 he
    refine ⟨k, reg', f, hst.cast ?_, hfr⟩
    rw [List.nil_append, stringEvents_cons, List.flatMap_singleton]
    simp [stringEvents, placedAt]
  | cons c cs ih =>
    obtain ⟨io1, h1, h2⟩ := hs
    obtain ⟨k, R, f, hst, hR0, hRr⟩ := putsp_word (reg := reg) (psr := psr) (out := out) (log := log) (tc := tc) (cfg := cfg)
      hc h3 h1 (hn c (by simp))
    rw [← hR0] at h2
    obtain ⟨k', reg', f', hst', hfr⟩ := ih (reg := R) (psr := withNzp psr f) (out := out ++ packedBytes c)
      (log := log ++ (readEvents (reg 0) c ++ (packedBytes c).map (PortEvent.write ddrAddr))) (tc := tc + k)
      (fun w hw => hn w (by simp [hw])) (by rw [hRr 3 (Or.inl rfl), h3]) h2
    refine ⟨_, reg', f', (hst.trans hst').cast ?_, fun r hr => (hfr r hr).trans (hRr r (Or.inr hr))⟩
    rw [withNzp_withNzp, List.cons_append, stringEvents_cons, List.flatMap_cons, hR0]
    simp only [List.append_assoc]
    congr 1
    omega

end Sys2Proof.Machine
end

