-- ==== Sys2Proof/Laws/RoutineCalls.lean ====
section
/-! SUPPORT. What installing a firmware leaves in memory, and what a whole call of each reference routine does (R300 to R305,
R307), from its straight-line parts and loops. -/

namespace Sys2Proof.Machine

/-! ## Installing a firmware -/

/-- After the pairs are written, each address holds what the list gives it last, or what it held before. -/
theorem readWord_writePairs {m : Memory} (hw : Memory.wf m = true) {ps : List (Word × Word)}
    (hp : ∀ p ∈ ps, p.1.toNat < 0xFE00) (a : Word) :
    Memory.readWord (Memory.writePairs m ps) a.toNat = (installedWord ps a).getD (Memory.readWord m a.toNat) := by
  induction ps generalizing m with
  | nil => rfl
  | cons p ps ih =>
    have hb := hp p (by simp)
    rw [show Memory.writePairs m (p :: ps) = Memory.writePairs (Memory.writeWord m p.1.toNat p.2) ps from rfl,
      ih (Memory.wf_writeWord hw hb _) (fun q hq => hp q (by simp [hq])), Memory.readWord_writeWord hw hb, installedWord]
    cases installedWord ps a with
    | some w => rfl
    | none =>
      simp only [Option.getD_none]
      by_cases h : p.1 = a
      · simp [h]
      · rw [if_neg (fun e => h (BitVec.eq_of_toNat_eq e.symm)), if_neg h, Option.getD_none]

/-- Initialisation leaves its firmware intact (R321). -/
theorem initialized_intact {s : State} (hw : Memory.wf s.mem = true) (hf : firmwareFits s.cfg.trapFirmware = true)
    (scratch : List Word) : intact s.cfg.trapFirmware scratch (initialized s) := by
  intro a w h _
  have hp : ∀ p ∈ s.cfg.trapFirmware, p.1.toNat < 0xFE00 := fun p hp => by
    have := of_decide_eq_true (List.all_eq_true.mp hf p hp)
    simpa [windowBase, BitVec.lt_def] using this
  have e := readWord_writePairs hw hp a
  rw [h] at e
  exact e

/-- Every contract of every firmware speaks of some state: the one that initialisation leaves, with pc at the service. -/
theorem initialized_atService {s : State} (hw : Memory.wf s.mem = true) (hf : firmwareFits s.cfg.trapFirmware = true)
    (scratch : List Word) (vect : Nat) :
    atService s.cfg.trapFirmware scratch vect
      ((initialized s).jumpTo (Memory.readWord (initialized s).mem vect)) := by
  refine ⟨Memory.wf_writePairs hw fun p hp => ?_, rfl, ?_, initialized_intact hw hf scratch, rfl⟩
  · have := of_decide_eq_true (List.all_eq_true.mp hf p hp)
    simpa [windowBase, BitVec.lt_def] using this
  · show (s.mcr ||| 0x8000).getLsbD 15 = true
    rw [BitVec.getLsbD_or, show (0x8000 : Word).getLsbD 15 = true by decide, Bool.or_true]

/-- Every word that the reference image lists is the one it installs: no address is listed twice. -/
theorem installedWord_reference {p : Word × Word} (hp : p ∈ referenceFirmware) :
    installedWord referenceFirmware p.1 = some p.2 := by
  have h : referenceFirmware.all (fun p => decide (installedWord referenceFirmware p.1 = some p.2)) = true := by
    decide +kernel
  exact of_decide_eq_true (List.all_eq_true.mp h p hp)

/-- What a list installs is one of its pairs. -/
theorem mem_of_installedWord {ps : List (Word × Word)} {a w : Word} (h : installedWord ps a = some w) : (a, w) ∈ ps := by
  induction ps with
  | nil => cases h
  | cons p ps ih =>
    rw [installedWord] at h
    split at h
    · cases h; exact List.mem_cons_of_mem _ (ih ‹_›)
    · split at h
      · cases h; subst ‹p.1 = a›; exact List.mem_cons_self ..
      · cases h

/-- The reference firmware is intact exactly where its code is in memory. -/
theorem intact_reference {s : State} : intact referenceFirmware saveWords s ↔ codeIn s.mem := by
  constructor
  · intro h p hp hs
    exact h p.1 p.2 (installedWord_reference hp) hs
  · intro h a w hi hs
    exact h (a, w) (mem_of_installedWord hi) hs

/-! ## Entering a routine, and writing its save words -/

/-- The code is in memory when a routine is entered. -/
theorem atService.code {s : State} {v : Nat} (h : atService referenceFirmware saveWords v s) : codeIn s.mem :=
  intact_reference.mp h.2.2.2.1

/-- The pc is the address that the reference image holds for the vector. -/
theorem atService.pc_eq {s : State} {v : Nat} (h : atService referenceFirmware saveWords v s) {a : Word}
    (hv : referenceFirmware[v - 0x20]? = some (BitVec.ofNat 16 v, a)) (hs : BitVec.ofNat 16 v ∉ saveWords)
    (hn : v < 65536) : s.pc = a := by
  have : Memory.readWord s.mem (BitVec.ofNat 16 v).toNat = a := h.code (BitVec.ofNat 16 v, a) (List.mem_of_getElem? hv) hs
  rw [h.2.2.2.2, ← this]
  simp [Nat.mod_eq_of_lt hn]

theorem sameButSaves.refl (m : Memory) : sameButSaves m m := fun _ _ => rfl

/-- The word at `k` after the writes of the pairs, `v` being the word before. -/
def savedAt (k : Nat) : Word → List (Word × Word) → Word
  | v, [] => v
  | v, p :: ps => savedAt k (if k = p.1.toNat then p.2 else v) ps

/-- Writing save words keeps the code and every word but the save words, and each word reads back. -/
theorem saves_spec {m m' : Memory} (hw : Memory.wf m' = true) (hc : codeIn m') (hm : sameButSaves m m')
    {ps : List (Word × Word)} (hp : ∀ p ∈ ps, p.1 ∈ saveWords) :
    codeIn (Memory.writePairs m' ps) ∧ sameButSaves m (Memory.writePairs m' ps) ∧
      ∀ k, Memory.readWord (Memory.writePairs m' ps) k = savedAt k (Memory.readWord m' k) ps := by
  induction ps generalizing m' with
  | nil => exact ⟨hc, hm, fun _ => rfl⟩
  | cons p ps ih =>
    have ha := hp p (List.mem_cons_self ..)
    have hb := saveWords_below p.1 ha
    obtain ⟨h1, h2, h3⟩ := ih (Memory.wf_writeWord hw hb _) (hc.write hw ha _) (hm.write hw ha _)
      (fun q hq => hp q (List.mem_cons_of_mem _ hq))
    exact ⟨h1, h2, fun k => (h3 k).trans (by rw [Memory.readWord_writeWord hw hb]; rfl)⟩

/-- The words outside the save words, as addresses. -/
theorem sameButSaves.word {m m' : Memory} (h : sameButSaves m m') {a : Word} (ha : a ∉ saveWords) :
    Memory.readWord m' a.toNat = Memory.readWord m a.toNat :=
  h a.toNat fun b hb e => ha (by rw [← BitVec.eq_of_toNat_eq e]; exact hb)

/-- A run of `n` steps that ends at the caller, with R0, the flags and the device transactions as named, is a call. -/
theorem referenceCall_of {s u : State} {n v : Nat} {r0 cc : Word} {saves : List (Word × Word)} {es : List PortEvent}
    {emitted : List Word} {reg' : RegIdx → Word} (h : atService referenceFirmware saveWords v s)
    (hst : Steps n (viewOf s) ⟨reg', s.reg 7, withNzp s.psr (flagsOf cc), Memory.writePairs s.mem saves, s.out ++ emitted,
      s.portLog ++ es, portsOf u, s.mcr, s.tc + n, s.cfg⟩)
    (h0 : reg' 0 = r0) (hr : ∀ r, r ≠ 0 → reg' r = s.reg r) (hm : sameButSaves s.mem (Memory.writePairs s.mem saves)) :
    ∃ t, referenceCall n r0 cc saves es emitted u s t := by
  obtain ⟨t, h1, h2, h3⟩ := hst s rfl ⟨h.2.1, h.2.2.1⟩
  simp only [viewOf, View.mk.injEq, portsOf, Ports.mk.injEq] at h2
  obtain ⟨rfl, e1, e2, e8, e3, e4, e9, e5, e6, e7⟩ := h2
  refine ⟨t, ?_, e1, ⟨h0, hr, e2, e7, e8, fun a ha => by rw [e8]; exact hm.word ha⟩, ⟨e3, e4⟩, e9, e5, h3.1, e6⟩
  have := h1 0
  rw [Nat.zero_add] at this
  rw [this]
  rfl

/-- Taking a key reads devices only. -/
theorem keyAnswers_window (polls : List Word) (ready key : Word) :
    ∀ p ∈ keyAnswers polls ready key, ¬ p.1 < windowBase := by
  intro p hp
  simp only [keyAnswers, List.mem_append, List.mem_map, List.mem_cons, List.not_mem_nil, or_false] at hp
  have h1 : ¬ kbsrAddr < windowBase := by decide
  have h2 : ¬ kbdrAddr < windowBase := by decide
  rcases hp with ⟨_, _, rfl⟩ | rfl | rfl <;> assumption

/-! ## The calls -/

/-- GETC (R300). -/
theorem getc_call {s u : State} {polls : List Word} {ready key : Word} (h : atService referenceFirmware saveWords 0x20 s)
    (hk : keyComes polls ready key s u) :
    ∃ t, referenceCall (4 + 2 * polls.length) key key [] (keyReads polls ready key) [] u s t := by
  have hpc : s.pc = 0x0200 := h.pc_eq (by decide +kernel) (by decide) (by decide)
  refine referenceCall_of h (reg' := Function.update s.reg 0 key) ?_ (Function.update_self ..)
    (fun r hr => Function.update_of_ne hr ..) (sameButSaves.refl s.mem)
  rw [viewOf, hpc, List.append_nil]
  exact getc_steps h.code hk.2.1 hk.1 hk.2.2.readsAll

/-- OUT (R301). -/
theorem out_call {s : State} (h : atService referenceFirmware saveWords 0x21 s) :
    ∃ t, referenceCall 6 (s.reg 0) (s.reg 1) (outSaves s) [.write ddrAddr (s.reg 0)] [s.reg 0] s s t := by
  have hpc : s.pc = 0x0206 := h.pc_eq (by decide +kernel) (by decide) (by decide)
  refine referenceCall_of h (reg' := s.reg) ?_ rfl (fun r hr => rfl)
    (saves_spec h.1 h.code (sameButSaves.refl s.mem) (by simp [outSaves, saveWords])).2.1
  rw [viewOf, hpc]
  exact out_steps h.1 h.code

/-- IN (R303). -/
theorem in_call {s u : State} {polls : List Word} {ready key : Word} (h : atService referenceFirmware saveWords 0x23 s)
    (hk : keyComes polls ready key s u) :
    ∃ t, referenceCall (9 + 2 * polls.length) key (s.reg 1) (inSaves s) (keyReads polls ready key ++ [.write ddrAddr key])
      [key] u s t := by
  have hpc : s.pc = 0x0228 := h.pc_eq (by decide +kernel) (by decide) (by decide)
  obtain ⟨hc, hm, rd⟩ := saves_spec h.1 h.code (sameButSaves.refl s.mem) (ps := inSaves s) (by simp [inSaves, saveWords])
  have hr : ReadsAll (Memory.writePairs s.mem (inSaves s)) s.mcr (keyAnswers polls ready key) (portsOf s) (portsOf u) :=
    hk.2.2.readsAll.device (keyAnswers_window polls ready key) _
  have h1 : Steps 1 (viewOf s) ⟨s.reg, 0x0229, s.psr, Memory.writePairs s.mem (inSaves s), s.out, s.portLog, portsOf s, s.mcr,
      s.tc + 1, s.cfg⟩ := by
    rw [viewOf, hpc]
    exact Steps.st (r := 1) (off := 12) (w := 0x320C) (by decide) (h.code.at (0x0228, 0x320C)) (by decide +kernel) (by decide)
  refine referenceCall_of h (reg' := Function.update s.reg 0 key) ?_ (Function.update_self ..)
    (fun r hr => Function.update_of_ne hr ..) hm
  have ht := h1.trans (in_steps hc (x := s.reg 1) (rd 0x0235) hk.2.1 hk.1 hr)
  rw [Nat.add_right_comm] at ht
  refine ht.cast ?_
  congr 1
  · rw [Function.update_comm (by decide)]; simp
  · omega

/-- PUTS (R302). -/
theorem puts_call {s u : State} {chars : List Word} (h : atService referenceFirmware saveWords 0x22 s)
    (hs : stringAtR0 endsChars chars 0 (withSaves (putsSaves s) s) u) :
    ∃ t, referenceCall (12 + 8 * chars.length) (s.reg 0) (s.reg 3) (putsSaves s)
      (stringEvents charBytes (s.reg 0) (chars ++ [0])) (chars.map (· &&& 0x00FF)) u s t := by
  have hpc : s.pc = 0x020F := h.pc_eq (by decide +kernel) (by decide) (by decide)
  have hsv := puts_save (reg := s.reg) (psr := s.psr) (out := s.out) (log := s.portLog) (io := portsOf s) (mcr := s.mcr)
    (tc := s.tc) (cfg := s.cfg) h.1 h.code
  obtain ⟨hc, hm, rd⟩ := saves_spec h.1 h.code (sameButSaves.refl s.mem) (ps := putsSaves s) (by simp [putsSaves, saveWords])
  have hr : ReadsAll (Memory.writePairs s.mem (putsSaves s)) s.mcr (placedAt (s.reg 0) (chars ++ [0])) (portsOf s)
    (portsOf u) := hs.2.2.readsAll
  change Steps 5 _ ⟨_, _, _, Memory.writePairs s.mem (putsSaves s), _, _, _, _, _, _⟩ at hsv
  obtain ⟨reg', f, hl, hfr⟩ := puts_loop (reg := Function.update s.reg 3 0x00FF) (psr := withNzp s.psr (flagsOf 0x00FF))
    (out := s.out) (log := s.portLog) (tc := s.tc + 5) (cfg := s.cfg) hc hs.1 (Function.update_self 3 0x00FF s.reg) hr
  have hd := puts_done (reg := reg') (psr := withNzp (withNzp s.psr (flagsOf 0x00FF)) f)
    (out := s.out ++ chars.map (· &&& 0x00FF)) (log := s.portLog ++ stringEvents charBytes (s.reg 0) (chars ++ [0]))
    (io := portsOf u) (mcr := s.mcr) (tc := s.tc + 5 + (2 + 8 * chars.length)) (cfg := s.cfg)
    hc (rd 0x224) (rd 0x225) (rd 0x226) (rd 0x227)
  have f4 : ∀ r : RegIdx, 4 ≤ r.val → reg' r = s.reg r := fun r hr =>
    (hfr r (by omega)).trans (Function.update_of_ne (by rintro rfl; simp at hr) ..)
  refine referenceCall_of h (reg' := s.reg) ?_ rfl (fun r hr => rfl) hm
  rw [viewOf, hpc, show 12 + 8 * chars.length = 5 + (2 + 8 * chars.length + 5) by omega]
  refine ((hsv.trans hl).trans hd).cast ?_
  rw [withNzp_withNzp, withNzp_withNzp]
  congr 1
  · funext r
    fin_cases r <;> simp [Function.update, savedAt, putsSaves] <;> exact f4 _ (by decide)
  · exact f4 7 (by decide)
  · omega

/-- PUTSP (R304). -/
theorem putsp_call {s u : State} {ws : List Word} {last : Word} (h : atService referenceFirmware saveWords 0x24 s)
    (hs : stringAtR0 endsPacked ws last (withSaves (putspSaves s) s) u) :
    ∃ n t, referenceCall n (s.reg 0) (s.reg 5) (putspSaves s) (stringEvents packedBytes (s.reg 0) (ws ++ [last]))
      ((ws ++ [last]).flatMap packedBytes) u s t := by
  have hpc : s.pc = 0x0236 := h.pc_eq (by decide +kernel) (by decide) (by decide)
  have hsv := putsp_save (reg := s.reg) (psr := s.psr) (out := s.out) (log := s.portLog) (io := portsOf s) (mcr := s.mcr)
    (tc := s.tc) (cfg := s.cfg) h.1 h.code
  obtain ⟨hc, hm, rd⟩ := saves_spec h.1 h.code (sameButSaves.refl s.mem) (ps := putspSaves s)
    (by simp [putspSaves, saveWords])
  have hr : ReadsAll (Memory.writePairs s.mem (putspSaves s)) s.mcr (placedAt (s.reg 0) (ws ++ [last])) (portsOf s)
    (portsOf u) := hs.2.2.readsAll
  change Steps 7 _ ⟨_, _, _, Memory.writePairs s.mem (putspSaves s), _, _, _, _, _, _⟩ at hsv
  obtain ⟨k, reg', f, hl, hfr⟩ := putsp_loop (reg := Function.update s.reg 3 0x00FF) (psr := withNzp s.psr (flagsOf 0x00FF))
    (out := s.out) (log := s.portLog) (tc := s.tc + 7) (cfg := s.cfg) hc hs.1 hs.2.1
    (Function.update_self 3 0x00FF s.reg) hr
  have hd := putsp_done (reg := reg') (psr := withNzp (withNzp s.psr (flagsOf 0x00FF)) f)
    (out := s.out ++ (ws ++ [last]).flatMap packedBytes) (log := s.portLog ++ stringEvents packedBytes (s.reg 0) (ws ++ [last]))
    (io := portsOf u) (mcr := s.mcr) (tc := s.tc + 7 + k) (cfg := s.cfg)
    hc (rd 0x25E) (rd 0x25F) (rd 0x260) (rd 0x261) (rd 0x262) (rd 0x263)
  have f6 : ∀ r : RegIdx, 6 ≤ r.val → reg' r = s.reg r := fun r hr =>
    (hfr r hr).trans (Function.update_of_ne (by rintro rfl; simp at hr) ..)
  refine ⟨_, referenceCall_of (n := 7 + (k + 7)) h (reg' := s.reg) ?_ rfl (fun r hr => rfl) hm⟩
  rw [viewOf, hpc]
  refine ((hsv.trans hl).trans hd).cast ?_
  rw [withNzp_withNzp, withNzp_withNzp]
  congr 1
  · funext r
    fin_cases r <;> simp [Function.update, savedAt, putspSaves] <;> exact f6 _ (by decide)
  · exact f6 7 (by decide)
  · omega

/-- HALT (R305). -/
theorem halt_call {s : State} (h : atService referenceFirmware saveWords 0x25 s) :
    ∃ t, stepWhileClocked 2 s = .next t ∧ t.pc = 0x0266 ∧ leaves 0 0 [] s t ∧ displayed [] [] s t ∧ sameAnswers s t ∧
      t.mcr = 0 ∧ t.run = .halted ∧ t.tc = s.tc + 2 := by
  have hpc : s.pc = 0x0264 := h.pc_eq (by decide +kernel) (by decide) (by decide)
  obtain ⟨t, h1, h2, h3⟩ := halt_clear (psr := s.psr) (out := s.out) (io := portsOf s) (log := s.portLog) (mcr := s.mcr)
    (tc := s.tc) (cfg := s.cfg) h.code s (by rw [viewOf, hpc]) ⟨h.2.1, h.2.2.1⟩
  simp only [viewOf, View.mk.injEq] at h2
  obtain ⟨e1, e2, e3, e4, e5, e6, e7, e8, e9, e10⟩ := h2
  rw [and_imm5_zero] at e1 e3
  generalize hg : emitTrace (.sti 0 1) (t.jumpTo (t.pc + 1)) = g
  have hv : viewOf g = viewOf (t.jumpTo (t.pc + 1)) := hg ▸ viewOf_emitTrace (.sti 0 1) (t.jumpTo (t.pc + 1))
  have hrun : g.run = .running := hg ▸ (looping_emitTrace (.sti 0 1) (s := t.jumpTo (t.pc + 1)) h3).1
  simp only [viewOf, View.mk.injEq] at hv
  obtain ⟨u1, u2, u3, u4, u5, u6, u7, u8, u9, u10⟩ := hv
  have hpc' : g.pc = 0x0266 := u2.trans (by rw [e2]; rfl)
  have hr : g.reg = Function.update s.reg 0 0 := u1.trans e1
  have hx : exec (.sti 0 1) (emitTrace (.sti 0 1) (t.jumpTo (t.pc + 1))) = .next { g with mcr := 0 } := by
    have q : Memory.readWord s.mem (0x267 : Word).toNat = 0xFFFE := h.code.at (0x267, 0xFFFE)
    have p4 : eaIndirect 1 g = (0xFFFE, g) := by
      rw [eaIndirect, eaPcRelative, hpc', show (0x266 : Word) + pcOffset9 1 = 0x267 by decide, memRead_below (by decide),
        show g.mem = s.mem from u4.trans e4, q]
    rw [hg, exec, execSti, p4, hr, Function.update_self]
    rfl
  have hs := stepWhileClocked_succ h3 (w := 0xB001) (i := .sti 0 1) (by rw [e2]; decide)
    (by rw [e2, e4]; exact h.code.at (0x265, 0xB001)) (by decide +kernel) hx 0
  have hret : retire { g with mcr := 0 } = { g with mcr := 0, tc := g.tc + 1, run := .halted } := by
    rcases retire_spec { g with mcr := 0 } with ⟨h | h, _⟩ | ⟨_, _, h⟩
    · exact absurd (hrun.symm.trans h) (by decide)
    · exact absurd (hrun.symm.trans h) (by decide)
    · rw [h, checkClock, if_pos ⟨hrun, show (0 : Word).getLsbD 15 = false from rfl⟩]
  rw [hret] at hs
  refine ⟨_, ((h1 1).trans hs), hpc', ⟨?_, ?_, u3.trans e3, u10.trans e10, u4.trans e4, fun a _ => ?_⟩,
    ⟨(u5.trans e5).trans (List.append_nil _).symm, (u6.trans e6).trans (List.append_nil _).symm⟩, ?_, rfl, rfl,
    congrArg (· + 1) (u9.trans e9)⟩
  · exact (congrFun hr 0).trans (Function.update_self ..)
  · exact fun r hn => (congrFun hr r).trans (Function.update_of_ne hn ..)
  · exact congrArg (Memory.readWord · a.toNat) (u4.trans e4)
  · have hp := u7.trans e7
    simp only [portsOf, Ports.mk.injEq] at hp
    exact hp

/-! ## Strings read word by word -/

/-- A state whose run the loop has followed from `s` is one the run loop brings `s` to. -/
theorem runsTo_of {s x : State} {k : Nat} (hk : ∀ n, stepWhileClocked (n + k) s = stepWhileClocked n x) (hl : looping x)
    (hm : sameButSaves s.mem x.mem) : runsTo saveWords s x :=
  ⟨⟨k, by have h := hk 0; rwa [Nat.zero_add] at h⟩, hl.1, hl.2, fun _ ha => hm.word ha⟩

theorem sameAnswers_of {s t : State} (h : portsOf t = portsOf s) : sameAnswers s t := by
  simp only [portsOf, Ports.mk.injEq] at h
  exact h

/-- A routine of the reference firmware shows strings as its contract says if, in terms of what a routine works on: it comes to
the head of a loop; there it has shown the words so far; from there a word that ends the string is followed by the return, and
any other brings it back to the head of the loop. -/
theorem stringContract_of_loop {ends : Word → Prop} {bytes : Word → List Word} {vect : Nat}
    (Head : State → List Word → View → Prop)
    (start : ∀ s, atService referenceFirmware saveWords vect s →
      ∃ k b, Steps k (viewOf s) b ∧ Head s [] b ∧ b.io = portsOf s)
    (shown : ∀ s ws b, Head s ws b → sameButSaves s.mem b.mem ∧ b.out = s.out ++ ws.flatMap bytes ∧
      b.log = s.portLog ++ stringEvents bytes (s.reg 0) ws)
    (last : ∀ s ws b w io', Head s ws b → Reads b.mem b.mcr (s.reg 0 + BitVec.ofNat 16 ws.length) b.io w io' → ends w →
      ∃ k c, Steps k b c ∧ c.pc = s.reg 7 ∧ sameButSaves s.mem c.mem ∧ c.out = s.out ++ (ws ++ [w]).flatMap bytes ∧
        c.log = s.portLog ++ stringEvents bytes (s.reg 0) (ws ++ [w]) ∧ c.io = io')
    (next : ∀ s ws b w io', Head s ws b → Reads b.mem b.mcr (s.reg 0 + BitVec.ofNat 16 ws.length) b.io w io' → ¬ ends w →
      ∃ k c, Steps k b c ∧ Head s (ws ++ [w]) c ∧ c.io = io') :
    stringContract ends bytes vect referenceFirmware saveWords := by
  refine ⟨fun s ws x => (∃ k, ∀ n, stepWhileClocked (n + k) s = stepWhileClocked n x) ∧ looping x ∧ Head s ws (viewOf x),
    fun s h => ?_, ?_⟩
  · obtain ⟨k, b, hs, hh, hio⟩ := start s h
    obtain ⟨x, hx, rfl, hl⟩ := hs s rfl ⟨h.2.1, h.2.2.1⟩
    exact ⟨x, ⟨⟨k, hx⟩, hl, hh⟩, sameAnswers_of hio⟩
  · rintro s ws x ⟨⟨k, hx⟩, hl, hh⟩
    obtain ⟨hm, ho, hg⟩ := shown s ws _ hh
    have hr : Reads x.mem x.mcr _ (portsOf x) _ _ := Reads.of_memRead (s.reg 0 + BitVec.ofNat 16 ws.length) x
    refine ⟨runsTo_of hx hl hm, ⟨ho, hg⟩, fun he => ?_, fun hn => ?_⟩
    · obtain ⟨j, c, hc, hpc, hm', ho', hg', hio⟩ := last s ws _ _ _ hh hr he
      obtain ⟨t, ht, rfl, hl'⟩ := hc x rfl hl
      exact ⟨t, ⟨runsTo_of (fun n => by rw [← Nat.add_assoc, hx, ht]) hl' hm', hpc⟩, sameAnswers_of hio, ho', hg'⟩
    · obtain ⟨j, c, hc, hh', hio⟩ := next s ws _ _ _ hh hr hn
      obtain ⟨y, hy, rfl, hl'⟩ := hc x rfl hl
      exact ⟨y, ⟨⟨j + k, fun n => by rw [← Nat.add_assoc, hx, hy]⟩, hl', hh'⟩, sameAnswers_of hio⟩

/-- One more word of a string: its transactions follow those of the words before it. -/
theorem stringEvents_append (bytes : Word → List Word) (a w : Word) (ws : List Word) :
    stringEvents bytes a (ws ++ [w]) = stringEvents bytes a ws ++
      (readEvents (a + BitVec.ofNat 16 ws.length) w ++ (bytes w).map (PortEvent.write ddrAddr)) := by
  induction ws generalizing a with
  | nil => simp [stringEvents, placedAt]
  | cons v vs ih =>
    rw [List.cons_append, stringEvents_cons, stringEvents_cons, ih (a + 1), List.append_assoc,
      show a + 1 + BitVec.ofNat 16 vs.length = a + BitVec.ofNat 16 (v :: vs).length by
        rw [List.length_cons, BitVec.ofNat_add, BitVec.add_assoc]; congr 1; exact BitVec.add_comm ..]
    simp only [List.append_assoc]

end Sys2Proof.Machine
end

