-- ==== Sys2Proof/Tests/Slice0.lean ====
section
/-! SUPPORT. Tests: the well-formedness checks, words written out from the layouts of R102, one-step cases of
spec/95_test_vectors.md (V<n>), and for every obligation with hypotheses a state that meets them. -/

namespace Sys2Proof.Tests

open Sys2Proof.Machine

/-! ## Helpers -/

/-- A running engine with the given pc, PSR and memory words, everything else as at reset. -/
def engine (pc psr : Word) (words : List (Word × Word)) : State :=
  { State.reset with run := .running, mcr := 0x8000, pc := pc, psr := psr, mem := Memory.writePairs [] words }

/-- The same with the word `w` at 0x3000, where pc points. -/
def at3000 (w : Word) : State := engine 0x3000 0 [(0x3000, w)]

/-- The engine with another JMPT parameter. -/
def withJmpt (j : JmptSemantics) (s : State) : State := { s with cfg := { s.cfg with jmptSemantics := j } }

/-- One step gives a next state, of which `p` holds. -/
def stepGives (s : State) (p : State → Bool) : Bool :=
  match step s with
  | .next t => p t
  | .fault _ => false
  | .refused _ => false

/-- The word decodes to the instruction. -/
def decodesTo (w : Word) (i : Instr) : Bool :=
  match decode w with
  | .ok j => decide (j = i)
  | .error _ => false

/-- The word decodes to no instruction, for the given reason. -/
def failsWith (w : Word) (e : DecodeError) : Bool :=
  match decode w with
  | .ok _ => false
  | .error f => decide (f = e)

/-! ## Well-formedness: each check refuses what lies one outside its range, and accepts the end of the range -/

theorem test_wf_addImm : (Instr.addImm 0 0 16).wellFormed = false ∧ (Instr.addImm 0 0 (-16)).wellFormed = true := by decide
theorem test_wf_andImm : (Instr.andImm 0 0 (-17)).wellFormed = false ∧ (Instr.andImm 0 0 15).wellFormed = true := by decide
theorem test_wf_br : (Instr.br 7 256).wellFormed = false ∧ (Instr.br 7 255).wellFormed = true := by decide
theorem test_wf_nop : (Instr.nop (-257)).wellFormed = false ∧ (Instr.nop (-256)).wellFormed = true := by decide
theorem test_wf_jsr : (Instr.jsr 1024).wellFormed = false ∧ (Instr.jsr (-1024)).wellFormed = true := by decide
theorem test_wf_ld : (Instr.ld 0 256).wellFormed = false ∧ (Instr.ld 0 (-256)).wellFormed = true := by decide
theorem test_wf_ldi : (Instr.ldi 0 (-257)).wellFormed = false ∧ (Instr.ldi 0 255).wellFormed = true := by decide
theorem test_wf_ldr : (Instr.ldr 0 0 32).wellFormed = false ∧ (Instr.ldr 0 0 (-32)).wellFormed = true := by decide
theorem test_wf_lea : (Instr.lea 0 256).wellFormed = false ∧ (Instr.lea 0 255).wellFormed = true := by decide
theorem test_wf_st : (Instr.st 0 (-257)).wellFormed = false ∧ (Instr.st 0 (-256)).wellFormed = true := by decide
theorem test_wf_sti : (Instr.sti 0 256).wellFormed = false ∧ (Instr.sti 0 (-256)).wellFormed = true := by decide
theorem test_wf_str : (Instr.str 0 0 (-33)).wellFormed = false ∧ (Instr.str 0 0 31).wellFormed = true := by decide
theorem test_wf_trap : (Instr.trap 256).wellFormed = false ∧ (Instr.trap 255).wellFormed = true := by decide

/-! ## Decoding: the bits are those of the instruction's layout in R102 -/

theorem test_decode_addReg : decodesTo 0b0001_001_010_0_00_011 (.addReg 1 2 3) = true := by decide
theorem test_decode_addImm : decodesTo 0b0001_110_101_1_10000 (.addImm 6 5 (-16)) = true := by decide
theorem test_decode_andReg : decodesTo 0b0101_100_011_0_00_111 (.andReg 4 3 7) = true := by decide
theorem test_decode_andImm : decodesTo 0b0101_000_111_1_01111 (.andImm 0 7 15) = true := by decide
theorem test_decode_not : decodesTo 0b1001_100_101_111111 (.notReg 4 5) = true := by decide
theorem test_decode_br : decodesTo 0b0000_101_111111110 (.br 0b101 (-2)) = true := by decide
theorem test_decode_nop : decodesTo 0b0000_000_011111111 (.nop 255) = true := by decide
theorem test_decode_jmp : decodesTo 0b1100_000_010_000000 (.jmp 2) = true := by decide
theorem test_decode_ret : decodesTo 0b1100_000_111_000000 .ret = true := by decide
theorem test_decode_jmpt : decodesTo 0b1100_000_111_000001 (.jmpt 7) = true := by decide
theorem test_decode_jsr : decodesTo 0b0100_1_01111111111 (.jsr 1023) = true := by decide
theorem test_decode_jsrr : decodesTo 0b0100_0_00_110_000000 (.jsrr 6) = true := by decide
theorem test_decode_ld : decodesTo 0b0010_001_100000000 (.ld 1 (-256)) = true := by decide
theorem test_decode_ldi : decodesTo 0b1010_010_000000001 (.ldi 2 1) = true := by decide
theorem test_decode_ldr : decodesTo 0b0110_011_100_011111 (.ldr 3 4 31) = true := by decide
theorem test_decode_lea : decodesTo 0b1110_101_111111111 (.lea 5 (-1)) = true := by decide
theorem test_decode_st : decodesTo 0b0011_001_011111111 (.st 1 255) = true := by decide
theorem test_decode_sti : decodesTo 0b1011_111_000000011 (.sti 7 3) = true := by decide
theorem test_decode_str : decodesTo 0b0111_101_110_100000 (.str 5 6 (-32)) = true := by decide
theorem test_decode_trap : decodesTo 0b1111_0000_10000000 (.trap 0x80) = true := by decide
theorem test_decode_rti : decodesTo 0b1000_000000000000 .rti = true := by decide
theorem test_decode_reserved : decodesTo 0b1101_100000000001 (.reserved 0x801) = true := by decide

/-- The ignored bits of JSRR and TRAP (R118; V50, V82). -/
theorem test_decode_ignored_bits :
    decodesTo 0b0100_0_11_000_000001 (.jsrr 0) = true ∧ decodesTo 0b1111_1111_00100101 (.trap 0x25) = true := by decide

/-- Each word fails one validity check (R113 to R116; V9 to V11, V17, V21, V22, V37, V38, V89, V90). -/
theorem test_decode_refuses_operate : failsWith 0x128B .operateReservedBits = true ∧
    failsWith 0x1293 .operateReservedBits = true ∧ failsWith 0x548B .operateReservedBits = true := by decide
theorem test_decode_refuses_not : failsWith 0x997E .notLowBits = true ∧ failsWith 0x995F .notLowBits = true := by decide
theorem test_decode_refuses_jmp : failsWith 0xC280 .jumpReservedBits = true ∧ failsWith 0xC082 .jumpReservedBits = true := by
  decide
theorem test_decode_refuses_rti : failsWith 0x8001 .rtiReservedBits = true ∧ failsWith 0x8800 .rtiReservedBits = true := by
  decide

/-- The host's numbering of a row's word: 16 bits, bit 0 the least significant. -/
theorem test_table_word : decodeTableWord 16 0x1283 = some (.addReg 1 2 3) ∧ decodeTableWord 16 0x8001 = none := by decide

/-! ## One step: the cases of spec/95_test_vectors.md -/

theorem test_addReg_overflows_to_negative_V2 : stepGives (((at3000 0x1283).setReg 2 0x7FFF).setReg 3 0x0001)
    (fun t => decide (t.reg 1 = 0x8000 ∧ t.psr = 0x0004 ∧ t.pc = 0x3001 ∧ t.tc = 1)) = true := by decide
theorem test_addReg_wraps_to_zero_V4 : stepGives (((at3000 0x1283).setReg 2 0x8000).setReg 3 0x8000)
    (fun t => decide (t.reg 1 = 0x0000 ∧ t.psr = 0x0002)) = true := by decide
theorem test_addImm_sign_extends_V5 : stepGives ((at3000 0x103F).setReg 0 0x0000)
    (fun t => decide (t.reg 0 = 0xFFFF ∧ t.psr = 0x0004)) = true := by decide
theorem test_addImm_least_immediate_V7 : stepGives ((at3000 0x1030).setReg 0 0x0010)
    (fun t => decide (t.reg 0 = 0x0000 ∧ t.psr = 0x0002)) = true := by decide
theorem test_andReg_V13 : stepGives (((at3000 0x5483).setReg 2 0xF0F0).setReg 3 0x0FF0)
    (fun t => decide (t.reg 2 = 0x00F0 ∧ t.psr = 0x0001)) = true := by decide
theorem test_andImm_sign_extends_V15 : stepGives ((at3000 0x503F).setReg 0 0x8001)
    (fun t => decide (t.reg 0 = 0x8001 ∧ t.psr = 0x0004)) = true := by decide
theorem test_not_V18 : stepGives ((at3000 0x997F).setReg 5 0x0000)
    (fun t => decide (t.reg 4 = 0xFFFF ∧ t.reg 5 = 0x0000 ∧ t.psr = 0x0004)) = true := by decide
theorem test_br_taken_V23 : stepGives (engine 0x0063 2 [(0x0063, 0x0C0A)]) (fun t => decide (t.pc = 0x006E)) = true := by
  decide
theorem test_br_wraps_below_zero_V27 : stepGives (engine 0x0000 4 [(0x0000, 0x09FE)])
    (fun t => decide (t.pc = 0xFFFF ∧ t.psr = 4)) = true := by decide
theorem test_br_without_flags_V26 : stepGives (engine 0x3000 0 [(0x3000, 0x0E05)])
    (fun t => decide (t.pc = 0x3001)) = true := by decide
theorem test_jmp_keeps_user_mode_V36 : stepGives ((engine 0x3000 0x8001 [(0x3000, 0xC080)]).setReg 2 0x0200)
    (fun t => decide (t.pc = 0x0200 ∧ t.psr = 0x8001)) = true := by decide
theorem test_ret_V35 : stepGives ((at3000 0xC1C0).setReg 7 0x3050) (fun t => decide (t.pc = 0x3050)) = true := by decide
theorem test_jmpt_refused_V39 : stepGives ((at3000 0xC0C1).setReg 3 0x3000)
    (fun t => decide (t.run = .refused ∧ t.pc = 0x3001 ∧ t.tc = 0 ∧ t.fault = none)) = true := by decide
theorem test_jmpt_to_user_V41 : stepGives (withJmpt .jumpToUser ((engine 0x3000 2 [(0x3000, 0xC0C1)]).setReg 3 0x3000))
    (fun t => decide (t.pc = 0x3000 ∧ t.psr = 0x8002)) = true := by decide
theorem test_jsr_V44 : stepGives (engine 0x0063 0 [(0x0063, 0x4FCE)])
    (fun t => decide (t.pc = 0x0032 ∧ t.reg 7 = 0x0064)) = true := by decide
theorem test_jsr_least_offset_V46 : stepGives (at3000 0x4C00)
    (fun t => decide (t.pc = 0x2C01 ∧ t.reg 7 = 0x3001)) = true := by decide
theorem test_jsrr_through_r7_V48 : stepGives ((at3000 0x41C0).setReg 7 0x6000)
    (fun t => decide (t.pc = 0x3001 ∧ t.reg 7 = 0x3001)) = true := by decide
theorem test_ld_V51 : stepGives (engine 0x3000 0 [(0x3000, 0x2202), (0x3003, 0x8000)])
    (fun t => decide (t.reg 1 = 0x8000 ∧ t.psr = 4)) = true := by decide
theorem test_ld_from_the_keyboard_V54 : stepGives { engine 0xFDFF 0 [(0xFDFF, 0x2002)] with kbdIn := [0x41] }
    (fun t => decide (t.pc = 0xFE00 ∧ t.reg 0 = 0x0041 ∧ t.psr = 1 ∧ t.kbdIn = [])) = true := by decide
theorem test_ldi_reads_dsr_V55 : stepGives (engine 0x3001 0 [(0x3001, 0xA401), (0x3003, 0xFE04)])
    (fun t => decide (t.reg 2 = 0x8000 ∧ t.psr = 4)) = true := by decide
theorem test_ldi_reads_mcr_V57 : stepGives (engine 0x3000 0 [(0x3000, 0xA401), (0x3002, 0xFFFE)])
    (fun t => decide (t.reg 2 = 0x8000)) = true := by decide
theorem test_ldr_base_is_destination_V60 : stepGives ((engine 0x3000 0 [(0x3000, 0x6240), (0x4000, 0x1234)]).setReg 1 0x4000)
    (fun t => decide (t.reg 1 = 0x1234 ∧ t.psr = 1)) = true := by decide
theorem test_ldr_wraps_V61 : stepGives ((engine 0x3000 0 [(0x3000, 0x6701), (0x0000, 0x0005)]).setReg 4 0xFFFF)
    (fun t => decide (t.reg 3 = 0x0005)) = true := by decide
theorem test_lea_touches_no_device_V68 : stepGives (engine 0xFDFF 0 [(0xFDFF, 0xE002)])
    (fun t => decide (t.reg 0 = 0xFE02 ∧ t.psr = 4 ∧ t.portLog = [])) = true := by decide
theorem test_lea_zero_V67 : stepGives (engine 0x0000 0 [(0x0000, 0xE1FF)])
    (fun t => decide (t.reg 0 = 0x0000 ∧ t.psr = 2)) = true := by decide
theorem test_st_over_itself_V69 : stepGives ((engine 0x3004 0 [(0x3004, 0x33FF)]).setReg 1 0x0007)
    (fun t => decide (t.mem = [(0x6008, 0x07)] ∧ t.psr = 0)) = true := by decide
theorem test_sti_halts_the_clock_V72 : stepGives ((engine 0x3000 0 [(0x3000, 0xB001), (0x3002, 0xFFFE)]).setReg 0 0x0000)
    (fun t => decide (t.mcr = 0x0000 ∧ t.run = .halted ∧ t.tc = 1)) = true := by decide
theorem test_sti_V74 : stepGives ((engine 0x3000 0 [(0x3000, 0xB001), (0x3002, 0x4000)]).setReg 0 0xABCD)
    (fun t => decide (Memory.readWord t.mem 0x4000 = 0xABCD ∧ Memory.readWord t.mem 0x3002 = 0x4000)) = true := by decide
theorem test_str_V75 : stepGives (((at3000 0x7B80).setReg 6 0x2FFF).setReg 5 0x1234)
    (fun t => decide (Memory.readWord t.mem 0x2FFF = 0x1234)) = true := by decide
theorem test_str_to_the_display_V77 : stepGives (((at3000 0x7040).setReg 1 0xFE06).setReg 0 0x0148)
    (fun t => decide (t.out = [0x0148] ∧ t.portLog = [.write 0xFE06 0x0148])) = true := by decide
theorem test_trap_V79 : stepGives (engine 0x3001 0 [(0x3001, 0xF022), (0x0022, 0x020F)])
    (fun t => decide (t.pc = 0x020F ∧ t.reg 7 = 0x3002)) = true := by decide
theorem test_trap_keeps_user_mode_V83 : stepGives (engine 0x3000 0x8004 [(0x3000, 0xF025), (0x0025, 0x0264)])
    (fun t => decide (t.pc = 0x0264 ∧ t.psr = 0x8004)) = true := by decide
theorem test_rti_pops_the_whole_psr_V87 :
    stepGives ((engine 0x3000 0 [(0x3000, 0x8000), (0x2FFE, 0x4000), (0x2FFF, 0x0707)]).setReg 6 0x2FFE)
      (fun t => decide (t.pc = 0x4000 ∧ t.psr = 0x0707 ∧ t.reg 6 = 0x3000)) = true := by decide
theorem test_rti_in_user_mode_V86 : stepGives ((engine 0x3000 0x8002 [(0x3000, 0x8000)]).setReg 6 0x2FFE)
    (fun t => decide (t.pc = 0x3001 ∧ t.psr = 0x8002 ∧ t.reg 6 = 0x2FFE)) = true := by decide
theorem test_reserved_V101 : stepGives (engine 0x3000 0x8001 [(0x3000, 0xDFFF)])
    (fun t => decide (t.run = .faulted ∧ t.fault = some ⟨0x3000, 0xDFFF⟩ ∧ t.tc = 0 ∧ t.pc = 0x3001)) = true := by decide
theorem test_decode_fault_V89 : stepGives (at3000 0x8001)
    (fun t => decide (t.run = .faulted ∧ t.fault = some ⟨0x3000, 0x8001⟩ ∧ t.tc = 0 ∧ t.trace = [])) = true := by decide

/-! ## Witnesses: states and operands that meet the hypotheses of each obligation -/

theorem witness_decode_of_encode :
    (Instr.addImm 7 7 (-16)).wellFormed = true ∧ (Instr.br 0 255).wellFormed = true ∧ (Instr.jmp 7).wellFormed = true := by
  decide
theorem witness_encode_of_decode : decode 0x4FFF = .ok (.jsr (-1)) ∧ decode 0x47FF = .ok (.jsrr 7) ∧
    decode 0xFFFF = .ok (.trap 0xFF) ∧ decode 0xD000 = .ok (.reserved 0) := ⟨rfl, rfl, rfl, rfl⟩
theorem witness_signed_fields :
    (sext 5 (-16)).toInt = -16 ∧ (sext 6 31).toInt = 31 ∧ (sext 9 (-256)).toInt = -256 ∧ (sext 11 1023).toInt = 1023 ∧
    (sext 5 16).toInt = -16 ∧ (sext 6 (-33)).toInt = 31 ∧ (sext 9 256).toInt = -256 ∧ (sext 11 (-1025)).toInt = 1023 := by
  decide
theorem witness_step_faults : (at3000 0xC200).enabled = true ∧
    stepGives (at3000 0xC200) (fun t => decide (t.run = .faulted)) = true ∧
    stepGives (at3000 0xC1C0) (fun t => decide (t.run ≠ .faulted)) = true := by decide
theorem witness_setcc : (0x8000 : Word).toInt < 0 ∧ (0xFFFF : Word).toInt < 0 ∧ (0 : Word).toInt = 0 ∧
    0 < (1 : Word).toInt ∧ 0 < (0x7FFF : Word).toInt := by decide
theorem witness_mutators : psrPriv (withPriv 0x7FFF true) = true ∧ (withPriv 0x7FFF true).getLsbD 14 = true ∧
    psrPl (withPl 0xFFFF 0) = 0 ∧ (withPl 0xFFFF 0).getLsbD 7 = true ∧ (withPl 0xFFFF 0).getLsbD 11 = true ∧
    psrNzp (withNzp 0xFFFF 0) = 0 ∧ (withNzp 0xFFFF 0).getLsbD 3 = true := by decide
theorem witness_branch : branchTaken 0b111 0x0002 = true ∧ branchTaken 0b101 0x0002 = false ∧ psrNzp 0xFFF8 = 0 := by decide

/-- Both sides of the window's edge. -/
theorem witness_addresses : (0xFDFF : Word).toNat < 0xFE00 ∧ 0xFE00 ≤ (0xFE00 : Word).toNat ∧ (0 : Word).toNat < 0xFE00 ∧
    0xFE00 ≤ (0xFFFF : Word).toNat := by decide
theorem witness_write_below_the_window :
    Memory.wf (engine 0 0 [(0xFDFE, 1), (0xFDFF, 2)]).mem = true ∧
    (memRead 0xFDFF (memWrite 0xFDFF 0x1234 (engine 0 0 [(0xFDFE, 1), (0xFDFF, 2)]))).1 = 0x1234 ∧
    (memRead 0xFDFE (memWrite 0xFDFF 0x1234 (engine 0 0 [(0xFDFE, 1), (0xFDFF, 2)]))).1 = 1 := by decide
theorem witness_write_in_the_window :
    (memWrite 0xFE00 7 (at3000 0)).mem = (at3000 0).mem ∧ (memWrite 0xFE00 7 (at3000 0)).portLog = [.write 0xFE00 7] ∧
    (memWrite 0xFFFE 7 (at3000 0)).mcr = 7 ∧ (memWrite 0xFE06 7 (at3000 0)).out = [7] := by decide
theorem witness_device_answers : (devRead 0xFE00 { State.reset with kbdIn := [5, 6] }).1 = 5 ∧
    (devRead 0xFE06 { State.reset with devIn := [9] }).1 = 9 ∧ State.reset.kbdIn = [] ∧ State.reset.devIn = [] ∧
    0xFE00 ≤ (0xFE06 : Word).toNat ∧ (0xFE06 : Word) ∉ [0xFE00, 0xFE02, 0xFE04, 0xFFFE] := by decide
theorem witness_device_writes : 0xFE00 ≤ (0xFE04 : Word).toNat ∧ (0xFE04 : Word) ≠ 0xFFFE ∧ (0xFE04 : Word) ≠ 0xFE06 := by
  decide

/-- Writing zero over a word gives the list that never held it. -/
theorem witness_canonical_memories : Memory.wf (Memory.writePairs [] [(3, 0x1234), (5, 1), (3, 0)]) = true ∧
    Memory.writePairs [] [(3, 0x1234), (5, 1), (3, 0)] = Memory.writePairs [] [(5, 1)] := by decide

/-- A store to the last word below the window; ST with offset 0 and with one that wraps to it, STI's pointer and STR's base. -/
theorem witness_store_then_fetch : Memory.wf (engine 0xFDFF 0 [(0xFE00 - 2, 0xFDFF)]).mem = true ∧
    (0xFDFF : Word).toNat < 0xFE00 ∧ (engine 0xFDFF 0 []).pc.toNat < 0xFE00 ∧ (0xFDFF : Word) + pcOffset9 0 = 0xFDFF ∧
    (0xFDFF : Word) + pcOffset9 512 = 0xFDFF ∧
    (memRead (0xFDFF + pcOffset9 (-1)) (engine 0xFDFF 0 [(0xFE00 - 2, 0xFDFF)])).1 = 0xFDFF ∧
    ((engine 0xFDFF 0 []).setReg 3 0xFDFE).reg 3 + offset6 1 = 0xFDFF := by decide
theorem witness_jmpt_settings : (withJmpt .jump State.reset).cfg.jmptSemantics = .jump ∧
    (withJmpt .jumpToUser State.reset).cfg.jmptSemantics = .jumpToUser ∧ (withJmpt .jumpToUser State.reset).userMode = false ∧
    (withJmpt .jumpToUser (engine 0 0x8000 [])).userMode = true ∧ State.reset.cfg.jmptSemantics = .refuse := by decide
theorem witness_jsrr_settings : State.reset.cfg.jsrrLinkFirst = true ∧
    { State.reset with cfg := { State.reset.cfg with jsrrLinkFirst := false } }.cfg.jsrrLinkFirst = false := by decide

/-- TRAP's vectors at both ends of the table, moved by a store. -/
theorem witness_trap_vectors : stepGives (memWrite 0x00FF 0x5000 (at3000 0xF0FF)) (fun t => decide (t.pc = 0x5000)) = true ∧
    stepGives (memWrite 0x0000 0x6000 (at3000 0xF000)) (fun t => decide (t.pc = 0x6000)) = true ∧
    Memory.wf (at3000 0xF0FF).mem = true := by decide
theorem witness_rti_modes : State.reset.userMode = false ∧ (engine 0 0x8000 []).userMode = true := by decide

/-- The clauses of the step: an undecodable word, an operation, a stopped clock, a fault and a refusal; and Halted. -/
theorem witness_step_clauses : (at3000 0x1283).enabled = true ∧ { at3000 0x1283 with run := .halted }.enabled = true ∧
    failsWith (memRead 0x3000 (at3000 0x8001)).1 .rtiReservedBits = true ∧
    stepGives (at3000 0x1283) (fun t => decide (t.run = .running ∧ t.tc = 1)) = true ∧
    stepGives { at3000 0x1283 with mcr := 0 } (fun t => decide (t.run = .halted ∧ t.tc = 1)) = true ∧
    stepGives (at3000 0xD000) (fun t => decide (t.run = .faulted ∧ t.tc = 0)) = true ∧
    stepGives (at3000 0xC001) (fun t => decide (t.run = .refused ∧ t.tc = 0)) = true := by decide
theorem witness_decode_faults : decodeFaults (fetch (at3000 0xD000)).1 = true ∧ decodeFaults (fetch (at3000 0x8001)).1 = true ∧
    (at3000 0xD000).enabled = true := by decide
theorem witness_not_enabled : State.reset.run = .uninitialized ∧ { State.reset with run := .faulted }.run = .faulted ∧
    { State.reset with run := .refused }.run = .refused := by decide
theorem witness_counted : (at3000 0x1283).cfg.traced = true ∧
    { at3000 0x1283 with cfg := { State.reset.cfg with traced := false } }.cfg.traced = false ∧
    stepGives (at3000 0x1283) (fun t => decide (t.trace = [⟨0, .addReg 1 2 3⟩])) = true ∧
    stepGives { at3000 0x1283 with cfg := { State.reset.cfg with traced := false } } (fun t => decide (t.trace = [])) = true := by
  decide

/-- A refused JMPT has its event and no count (log entry 28). -/
theorem witness_refused_jmpt : stepGives (at3000 0xC0C1)
    (fun t => decide (t.run = .refused ∧ t.tc = 0 ∧ t.trace = [⟨0, .jmpt 3⟩])) = true := by decide
theorem witness_invariant : (at3000 0x1283).Inv := ⟨by decide, by decide, by decide⟩
theorem witness_invariant_step : ∃ t, step (at3000 0x1283) = .next t := ⟨_, rfl⟩
theorem witness_host_transactions : (∃ t, load 0xFDFF [1, 2, 3, 4] (at3000 0) = .next (t, true)) ∧
    (∃ t, hostRun 1 (at3000 0x1283) = .next t) ∧ (∃ t, hostStop (at3000 0) = .next t) ∧
    (∃ o, runWithObserver (fun k _ => decide (k = 1)) 3 (at3000 0x1283) = .next o ∧ o.calls = 2 ∧ o.state.tc = 1) :=
  ⟨⟨_, rfl⟩, ⟨_, rfl⟩, ⟨_, rfl⟩, ⟨_, rfl, rfl, rfl⟩⟩
theorem witness_host_initialise : ∃ t, initializeEngine (at3000 0) = .next t := by
  have h : firmwareFits (at3000 0).cfg.trapFirmware = true := by decide +kernel
  exact ⟨initialized (at3000 0), if_pos (e := .refused .bulkWriteReachesWindow) h⟩
theorem witness_user_step : (engine 0x3000 0x8000 [(0x3000, 0x1283)]).userMode = true ∧
    ∃ t, step (engine 0x3000 0x8000 [(0x3000, 0x1283)]) = .next t := ⟨rfl, _, rfl⟩
theorem witness_mode_independent : readsPrivilege (.trap 0x25) = false ∧ ∃ t, exec (.trap 0x25) State.reset = .next t :=
  ⟨rfl, _, rfl⟩

/-- Two different states that are equal but for the trace. -/
theorem witness_untraced : withoutTrace { at3000 0x1283 with cfg := { State.reset.cfg with traced := false } } =
      withoutTrace { at3000 0x1283 with trace := [⟨0, .ret⟩] } ∧
    { at3000 0x1283 with cfg := { State.reset.cfg with traced := false } } ≠ { at3000 0x1283 with trace := [⟨0, .ret⟩] } :=
  ⟨rfl, fun h => List.cons_ne_nil _ _ (congrArg State.trace h).symm⟩
theorem witness_flag_setters : setsFlags (.lea 0 0) = true ∧ setsFlags (.trap 0) = false ∧ (Instr.trap 0) ≠ .rti ∧
    (∃ t, exec (.lea 0 0) State.reset = .next t) ∧ (∃ t, exec (.trap 0) State.reset = .next t) :=
  ⟨rfl, rfl, by decide, ⟨_, rfl⟩, ⟨_, rfl⟩⟩
theorem witness_written_registers : (6 : RegIdx) ∉ writtenRegs (.jsr 0) ∧ (∃ t, exec (.jsr 0) State.reset = .next t) ∧
    (engine 0 0x8000 []).userMode = true ∧ ∃ t, exec .rti (engine 0 0x8000 []) = .next t :=
  ⟨by decide, ⟨_, rfl⟩, rfl, _, rfl⟩
theorem witness_nonstore : isStore (.ldi 0 0) = false ∧ ∃ t, exec (.ldi 0 0) State.reset = .next t := ⟨rfl, _, rfl⟩

/-- What initialisation, the loader and the run loop ask for. -/
theorem witness_initialise : Memory.wf State.reset.mem = true ∧ State.reset.run = .uninitialized ∧
    (∀ p ∈ State.reset.cfg.trapFirmware, p.1.toNat < 0xFE00) ∧ (State.reset.cfg.trapFirmware.map Prod.fst).Nodup := by
  have h : State.reset.cfg.trapFirmware.all (fun p => decide (p.1.toNat < 0xFE00)) = true := by decide +kernel
  exact ⟨rfl, rfl, fun p hp => of_decide_eq_true (List.all_eq_true.mp h p hp), by decide +kernel⟩
theorem witness_initialised_values : stepGives { initialized State.reset with pc := 0x0264 }
    (fun t => decide (t.reg 0 = 0 ∧ t.psr = 2 ∧ t.run = .running ∧ t.pc = 0x0265)) = true := by decide +kernel

/-- The two cells of a word. -/
def cellsOf (p : Word × Word) : Memory :=
  [(2 * p.1.toNat, p.2.extractLsb' 0 8), (2 * p.1.toNat + 1, p.2.extractLsb' 8 8)]

/-- The firmware's words in their places, and the string "Hi" at 0x4000. -/
@[irreducible] def servingMem : Memory :=
  ((referenceFirmware ++ [(0x4000, 0x0048), (0x4001, 0x0069)]).flatMap cellsOf).filter (fun c => decide (c.2 ≠ 0))

/-- A running engine at the routine of a vector, R0 at the string, with two polls before the key 'A'. -/
def serving (vect : Nat) : State :=
  { engine (Memory.readWord servingMem vect) 0 [] with
    mem := servingMem, regs := #v[0x4000, 0, 0, 0, 0, 0, 0xFDFF, 0x3001], kbdIn := [0, 0x8000, 0x41, 7] }

theorem witness_intact (vect : Nat) : intact referenceFirmware saveWords (serving vect) := by
  have h : referenceFirmware.all (fun p => decide (Memory.readWord servingMem p.1.toNat = p.2)) = true := by
    decide +kernel
  exact intact_reference.mpr fun p hp _ => of_decide_eq_true (List.all_eq_true.mp h p hp)

/-- Every routine has a state at which it is called. -/
theorem witness_at_service :
    ∀ vect ∈ [0x20, 0x21, 0x22, 0x23, 0x24, 0x25], atService referenceFirmware saveWords vect (serving vect) := by
  have h : Memory.wf servingMem = true := by decide +kernel
  exact fun v _ => ⟨h, rfl, (by decide : (0x8000 : Word).getLsbD 15 = true), witness_intact v, rfl⟩

theorem witness_key_comes (vect : Nat) : ∃ u, keyComes [0] 0x8000 0x41 (serving vect) u ∧ u.kbdIn = [7] :=
  ⟨_, ⟨by simp, by decide, rfl, rfl, rfl, rfl⟩, rfl⟩

/-- The engine at the routine of a vector, with another string address and a host answer for DDR and unnamed addresses. -/
def servingAt (vect : Nat) (r0 ans : Word) : State :=
  { serving vect with regs := #v[r0, 0, 0, 0, 0, 0, 0xFDFF, 0x3001], devIn := [ans] }

/-- "Hi" in the user region, the vector table's own words, and a string in the save words that PUTS has just written. -/
theorem witness_puts_string : (∃ u, stringAtR0 endsChars [0x0048, 0x0069] 0 (withSaves (putsSaves (serving 0x22)) (serving 0x22)) u) ∧
    (∃ u, stringAtR0 endsChars [0x0236, 0x0264] 0
      (withSaves (putsSaves (servingAt 0x22 0x0024 0)) (servingAt 0x22 0x0024 0)) u) ∧
    ∃ u, stringAtR0 endsChars [0x0224] 0 (withSaves (putsSaves (servingAt 0x22 0x0224 0)) (servingAt 0x22 0x0224 0)) u := by
  refine ⟨⟨_, by simp [endsChars], rfl, ?_, ?_, ?_, rfl⟩, ⟨_, by simp [endsChars], rfl, ?_, ?_, ?_, rfl⟩,
    ⟨_, by simp [endsChars], rfl, ?_, ?_, rfl⟩⟩ <;> decide +kernel

/-- A string in the device window: DSR's word, then a host answer; and one that wraps from 0xFFFF to 0x0000. -/
theorem witness_puts_devices : (∃ u, stringAtR0 endsChars [0x8000] 0
      (withSaves (putsSaves (servingAt 0x22 0xFE04 0)) (servingAt 0x22 0xFE04 0)) u) ∧
    ∃ u, stringAtR0 endsChars [0x0041] 0
      (withSaves (putsSaves (servingAt 0x22 0xFFFF 0x41)) (servingAt 0x22 0xFFFF 0x41)) u := by
  refine ⟨⟨_, by simp [endsChars], rfl, ?_, ?_, rfl⟩, ⟨_, by simp [endsChars], rfl, ?_, ?_, rfl⟩⟩ <;> decide +kernel

/-- A packed string whose first word ends it, with a zero high byte; and one of two full bytes before a zero low byte. -/
theorem witness_putsp_string : (∃ u, stringAtR0 endsPacked [] 0x0048
      (withSaves (putspSaves (serving 0x24)) (serving 0x24)) u) ∧
    ∃ u, stringAtR0 endsPacked [0x0236, 0x0264] 0
      (withSaves (putspSaves (servingAt 0x24 0x0024 0)) (servingAt 0x24 0x0024 0)) u := by
  refine ⟨⟨_, by simp, Or.inr (by decide), ?_, rfl⟩, ⟨_, by simp [endsPacked], Or.inl (by decide), ?_, ?_, ?_, rfl⟩⟩ <;>
    decide +kernel
theorem witness_packed : packedBytes 0x6948 = [0x48, 0x69] ∧ packedBytes 0x0021 = [0x21] ∧ packedBytes 0x4100 = [] ∧
    ¬ endsPacked 0x6948 ∧ charBytes 0x0100 = [0x00] ∧ charBytes 0 = [] := by
  refine ⟨?_, ?_, ?_, ?_, ?_, ?_⟩ <;> simp [packedBytes, endsPacked, charBytes]

/-- Of two pairs with one address the later stands (log entry 34), in the installed word as in the write. -/
theorem test_later_pair_stands : installedWord [(0x0020, 0x0200), (0x0020, 0x0206)] 0x0020 = some 0x0206 ∧
    Memory.readWord (Memory.writePairs [] [(0x0020, 0x0200), (0x0020, 0x0206)]) 0x0020 = 0x0206 := by decide

/-- The last step of HALT clears the clock bit and stops the run, with nothing shown. -/
theorem test_halt_stops_the_run_R305 : stepGives { serving 0x25 with pc := 0x0265, regs := Vector.replicate 8 0 }
    (fun t => decide (t.run = .halted ∧ t.mcr = 0 ∧ t.pc = 0x0266 ∧ t.portLog = [])) = true := by decide +kernel
theorem witness_load_even : Memory.wf State.reset.mem = true ∧ State.reset.run ≠ .faulted ∧ State.reset.run ≠ .refused ∧
    [0x34#8, 0x12#8].length % 2 = 0 ∧ [1#8].length % 2 = 1 ∧ [0x34#8, 0x12#8][2 * 0]? = some 0x34#8 ∧
    [0x34#8, 0x12#8][2 * 0 + 1]? = some 0x12#8 ∧ (0xFDFF : Word).toNat + 0 < 0xFE00 := by decide

/-- The last word that fits, and the first that does not. -/
theorem witness_load_edges : (∃ t, load 0xFDFF [0x34, 0x12] State.reset = .next (t, false) ∧
      Memory.readWord t.mem 0xFDFF = 0x1234) ∧
    (∃ t, load 0xFE00 [0x34, 0x12] State.reset = .next (t, true) ∧ t.mem = []) := ⟨⟨_, rfl, rfl⟩, ⟨_, rfl, rfl⟩⟩
theorem witness_run : (at3000 0).enabled = true ∧ (at3000 0).clockOn = true ∧ { at3000 0 with mcr := 0 }.clockOn = false ∧
    (∃ t, step { at3000 0 with run := .running } = .next t) := ⟨rfl, rfl, rfl, _, rfl⟩
theorem witness_observer : (at3000 0).run = .running ∧ (at3000 0).clockOn = true ∧
    (fun k _ => decide (k = 1) : Nat → State → Bool) 1 (at3000 0) = true ∧
    (fun k _ => decide (k = 1) : Nat → State → Bool) 0 (at3000 0) = false ∧
    ¬ ({ at3000 0 with mcr := 0 }.run = .running ∧ { at3000 0 with mcr := 0 }.clockOn = true) := by decide

/-- The word placed by the host is what the next step runs, from reset and from a running engine. -/
theorem test_fetch_word_runs : stepGives (State.reset.withFetchWord 16 0x103F)
      (fun t => decide (t.reg 0 = 0xFFFF ∧ t.pc = 1 ∧ t.tc = 1)) = true ∧
    stepGives ((at3000 0).withFetchWord 16 0xE002) (fun t => decide (t.reg 0 = 0x3003)) = true := by decide

end Sys2Proof.Tests
end

section
/-! PROOFS. The step of R241 and the refusal of JMPT: one equation per ending of a step, then the two obligations on them. -/

namespace Sys2Proof.Machine

/-! ## The fetch and the trace port, as far as a step's ending reads them -/

@[simp] theorem fetch_run (s : State) : (fetch s).2.run = s.run := by simp [fetch_snd]

@[simp] theorem fetch_cfg (s : State) : (fetch s).2.cfg = s.cfg := by simp [fetch_snd]

@[simp] theorem emitTrace_run (i : Instr) (s : State) : (emitTrace i s).run = s.run := by
  rcases emitTrace_spec i s with h | ⟨_, _, h⟩ <;> rw [h]

@[simp] theorem emitTrace_cfg (i : Instr) (s : State) : (emitTrace i s).cfg = s.cfg := by
  rcases emitTrace_spec i s with h | ⟨_, _, h⟩ <;> rw [h]

/-- When the trace port speaks: under the traced executor, for every instruction that invokes an operation (R251). -/
theorem emitTrace_eq (i : Instr) (s : State) :
    emitTrace i s =
      if i.isReserved = false ∧ s.cfg.traced = true then { s with trace := s.trace ++ [⟨s.tc, i⟩] } else s := by
  simp only [emitTrace, Bool.and_eq_true, Bool.not_eq_true', and_comm]

/-- A step is enabled in Running and in Halted only (R248). -/
theorem State.enabled_iff (s : State) : s.enabled = true ↔ s.run = .running ∨ s.run = .halted := by
  simp [State.enabled]

/-! ## How an operation ends -/

/-- JMPT under `refuse` is the refusal, whatever its base register (R166). -/
theorem exec_jmpt_of_refuse (base : RegIdx) {s : State} (h : s.cfg.jmptSemantics = .refuse) :
    exec (.jmpt base) s = .next (refuseStep s) := by
  simp only [exec, execJmpt, h]

/-- From an enabled engine, the operations that end in Faulted are those of the reserved row. -/
theorem exec_run_faulted_iff {i : Instr} {s u : State} (hs : s.enabled = true) (hu : exec i s = .next u) :
    u.run = .faulted ↔ i.isReserved = true := by
  rw [State.enabled_iff] at hs
  rw [exec_run hu]
  by_cases hr : i.isReserved = true
  · simp [hr]
  · rw [if_neg hr]
    split_ifs
    · simp [hr]
    · rcases hs with hs | hs <;> simp [hs, hr]

/-- From an enabled engine, the operations that end in Refused are JMPT under `refuse`. -/
theorem exec_run_refused_iff {i : Instr} {s u : State} (hs : s.enabled = true) (hu : exec i s = .next u) :
    u.run = .refused ↔ (∃ b, i = .jmpt b) ∧ s.cfg.jmptSemantics = .refuse := by
  rw [State.enabled_iff] at hs
  rw [exec_run hu]
  by_cases hr : i.isReserved = true
  · have hj : ¬ ∃ b, i = .jmpt b := by rintro ⟨b, rfl⟩; cases hr
    simp [hr, hj]
  · rw [if_neg hr]
    split_ifs with hj
    · exact iff_of_true rfl hj.symm
    · exact iff_of_false (by rcases hs with hs | hs <;> simp [hs]) fun h => hj h.symm

/-- From an enabled engine, an operation that ends in Refused changed nothing but the run state (R241). -/
theorem eq_refuseStep_of_run_refused {i : Instr} {s u : State} (hs : s.enabled = true) (hu : exec i s = .next u)
    (hr : u.run = .refused) : u = refuseStep s := by
  obtain ⟨⟨b, rfl⟩, hc⟩ := (exec_run_refused_iff hs hu).mp hr
  rw [exec_jmpt_of_refuse b hc] at hu
  cases hu
  rfl

/-! ## The end of a step -/

/-- After a fault or a refusal neither the count nor the clock check happens. -/
theorem retire_of_stopped {u : State} (h : u.run = .faulted ∨ u.run = .refused) : retire u = u := by
  rcases retire_spec u with ⟨_, e⟩ | ⟨hf, hr, _⟩
  · exact e
  · exact absurd h (not_or.mpr ⟨hf, hr⟩)

/-- Otherwise the operation is counted, and a running engine whose clock bit is clear halts. -/
theorem retire_of_going {u : State} (hf : u.run ≠ .faulted) (hr : u.run ≠ .refused) :
    retire u = { u with
      tc := u.tc + 1
      run := if u.mcr.getLsbD 15 = false ∧ u.run = .running then .halted else u.run } := by
  rcases retire_spec u with ⟨h, _⟩ | ⟨_, _, e⟩
  · exact absurd h (not_or.mpr ⟨hf, hr⟩)
  · rw [e]
    rcases checkClock_spec { u with tc := u.tc + 1 } with ⟨hrun, hclock, e'⟩ | ⟨hn, e'⟩
    · rw [e', if_pos ⟨hclock, hrun⟩]
    · rw [e', if_neg fun h => hn h.symm]

/-! ## The step, by what the fetched word decodes to -/

theorem step_of_decode_error {s : State} {e : DecodeError} (hs : s.enabled = true) (hd : decode (fetch s).1 = .error e) :
    step s = .next (takeDecodeFault s.pc (fetch s).1 (fetch s).2) := by
  simp only [step_enabled hs, cycle, hd]

theorem step_of_decode_ok {s u : State} {i : Instr} (hs : s.enabled = true) (hd : decode (fetch s).1 = .ok i)
    (hu : exec i (emitTrace i (fetch s).2) = .next u) : step s = .next (retire u) := by
  simp only [step_enabled hs, cycle, hd, hu, retireOutcome]

/-! ## The obligations -/

/-- Settles O25: JMPT under `refuse` is `refuseStep`, which updates the run state alone. -/
theorem jmptIsRefusedUnderRefuse : Obligations.JmptIsRefusedUnderRefuse := by
  unfold Obligations.JmptIsRefusedUnderRefuse
  intro base s h
  exact ⟨refuseStep s, exec_jmpt_of_refuse base h, rfl, rfl, rfl, fun _ => rfl, fun _ => rfl,
    ⟨rfl, rfl, rfl, rfl, rfl, rfl⟩, rfl, rfl, rfl, rfl⟩

/-- Settles O37: by what the fetched word decodes to, and then by how its operation ended. -/
theorem stepRunsTheDecodedInstruction : Obligations.StepRunsTheDecodedInstruction := by
  unfold Obligations.StepRunsTheDecodedInstruction
  intro s hs
  refine ⟨fun e hd => step_of_decode_error hs hd, fun i hd => ?_⟩
  obtain ⟨u, hu⟩ := exec_next i (emitTrace i (fetch s).2)
  have hstep : step s = .next (retire u) := step_of_decode_ok hs hd hu
  have hg : (emitTrace i (fetch s).2).enabled = true := by
    rw [State.enabled_iff] at hs ⊢
    simpa using hs
  have hfaulted := exec_run_faulted_iff hg hu
  have hrefused := exec_run_refused_iff hg hu
  have hleft := eq_refuseStep_of_run_refused hg hu
  rw [emitTrace_cfg, fetch_cfg] at hrefused
  rw [emitTrace_eq] at hu hleft
  refine ⟨u, hu, hfaulted, hrefused, fun hf => ?_, fun hr => ⟨hleft hr, ?_⟩, fun hf hr => ?_⟩
  · rw [hstep, retire_of_stopped (Or.inl hf)]
  · rw [hstep, retire_of_stopped (Or.inr hr)]
  · rw [hstep, retire_of_going hf hr]

end Sys2Proof.Machine
end

section
/-! PROOFS. The processor status word: what each mutator does to each bit, and the three obligations on the flags and fields
(spec/10_state.md R24 to R32, spec/41_control.md R160). -/

namespace Sys2Proof.Machine

/-! ## The mutators, bit by bit (R32) -/

/-- A field that reaches the top of a word reads the word's bits at every index, 0 past the top. -/
theorem getLsbD_topField (w : Word) {lo len : Nat} (h : lo + len = 16) (i : Nat) :
    (w.extractLsb' lo len).getLsbD i = w.getLsbD (lo + i) := by
  rw [BitVec.getLsbD_extractLsb']
  by_cases hi : i < len
  · rw [decide_eq_true hi, Bool.true_and]
  · rw [w.getLsbD_of_ge (lo + i) (by omega), Bool.and_false]

theorem getLsbD_withNzp (psr : Word) (f : BitVec 3) (n : Nat) :
    (withNzp psr f).getLsbD n = if n < 3 then f.getLsbD n else psr.getLsbD n := by
  rw [withNzp, BitVec.getLsbD_append, getLsbD_topField psr rfl]
  by_cases h : n < 3
  · rw [if_pos h, if_pos h]
  · rw [if_neg h, if_neg h, Nat.add_sub_cancel' (by omega)]

theorem getLsbD_withPriv (psr : Word) (user : Bool) (n : Nat) :
    (withPriv psr user).getLsbD n = if n < 15 then psr.getLsbD n else (decide (n = 15) && user) := by
  rw [withPriv, BitVec.getLsbD_append]
  by_cases h : n < 15
  · simp [h]
  · have he : n - 15 = 0 ↔ n = 15 := by omega
    simp [h, BitVec.getLsbD_ofBool, he]

theorem getLsbD_withPl (psr : Word) (pl : BitVec 3) {n : Nat} (h : n < 8 ∨ 10 < n) :
    (withPl psr pl).getLsbD n = psr.getLsbD n := by
  rw [withPl, BitVec.getLsbD_append, BitVec.getLsbD_append, getLsbD_topField psr (lo := 11) rfl]
  rcases h with h | h
  · simp [h]
  · rw [if_neg (by omega), if_neg (by omega), show 11 + (n - 8 - 3) = n by omega]

@[simp] theorem psrPriv_withPriv (psr : Word) (user : Bool) : psrPriv (withPriv psr user) = user := by
  simp only [psrPriv, getLsbD_withPriv, Nat.lt_irrefl, if_false, decide_true, Bool.true_and]

theorem psrPl_withPl (psr : Word) (pl : BitVec 3) : psrPl (withPl psr pl) = pl := by
  rw [psrPl, withPl, extract_append_left _ _ _ 0 _ rfl, extract_append_right _ _ _ _ (by omega), extract_all]

/-! ## The fields that a mutator leaves, and mutators that commute -/

@[simp] theorem psrPriv_withNzp (psr : Word) (f : BitVec 3) : psrPriv (withNzp psr f) = psrPriv psr := by
  rw [psrPriv, getLsbD_withNzp, if_neg (by omega), psrPriv]

@[simp] theorem psrNzp_withPriv (psr : Word) (user : Bool) : psrNzp (withPriv psr user) = psrNzp psr := by
  apply BitVec.eq_of_getLsbD_eq
  intro n hn
  have hn' : 0 + n < 15 := by omega
  simp only [psrNzp, BitVec.getLsbD_extractLsb', getLsbD_withPriv, if_pos hn']

/-- The mode and the flags lie in different bits. -/
theorem withNzp_withPriv (psr : Word) (f : BitVec 3) (user : Bool) :
    withNzp (withPriv psr user) f = withPriv (withNzp psr f) user := by
  apply BitVec.eq_of_getLsbD_eq
  intro n _
  simp only [getLsbD_withNzp, getLsbD_withPriv]
  by_cases h : n < 3
  · have h' : n < 15 := by omega
    simp only [if_pos h, if_pos h']
  · simp only [if_neg h]

/-! ## Flags and branches -/

/-- The flags of a result are those of its signed reading (R29). -/
theorem flagsOf_eq (v : Word) :
    flagsOf v = if v.toInt < 0 then 0b100#3 else if v.toInt = 0 then 0b010#3 else 0b001#3 := by
  have hneg : v.getLsbD 15 = true ↔ v.toInt < 0 := by
    rw [← decide_eq_true_iff (p := v.toInt < 0), ← BitVec.msb_eq_toInt]; rfl
  have hzero : v = 0 ↔ v.toInt = 0 := by
    rw [← BitVec.toInt_inj]; rfl
  simp only [flagsOf, hneg, hzero]

/-- The flags of a result are one flag (R30). -/
theorem flagsOf_mem (v : Word) : flagsOf v ∈ [0b100#3, 0b010#3, 0b001#3] := by
  rw [flagsOf_eq]
  split_ifs <;> decide

/-- A branch looks at PSR[2:0] alone. -/
theorem branchTaken_eq_nzp (nzp : BitVec 3) (psr : Word) :
    branchTaken nzp psr = ((nzp.getLsbD 2 && (psrNzp psr).getLsbD 2) || (nzp.getLsbD 1 && (psrNzp psr).getLsbD 1) ||
      (nzp.getLsbD 0 && (psrNzp psr).getLsbD 0)) := by
  simp [branchTaken, psrN, psrZ, psrP, psrNzp]

/-- Two flag masks share a bit exactly when their conjunction is not empty. -/
theorem shares_flag_iff : ∀ f g : BitVec 3,
    ((f.getLsbD 2 && g.getLsbD 2) || (f.getLsbD 1 && g.getLsbD 1) || (f.getLsbD 0 && g.getLsbD 0)) = true ↔ f &&& g ≠ 0 := by
  decide

@[simp] theorem branchTaken_withPriv (nzp : BitVec 3) (psr : Word) (user : Bool) :
    branchTaken nzp (withPriv psr user) = branchTaken nzp psr := by
  simp only [branchTaken_eq_nzp, psrNzp_withPriv]

theorem branchTaken_iff (nzp : BitVec 3) (psr : Word) : branchTaken nzp psr = true ↔ nzp &&& psrNzp psr ≠ 0 := by
  rw [branchTaken_eq_nzp, shares_flag_iff]

/-! ## The obligations -/

/-- Settles O8: PSR[2:0] is `flagsOf v` by `psrNzp_withNzp`, and the bits above come from the old word. -/
theorem setccSetsTheFlagOfTheSignedResult : Obligations.SetccSetsTheFlagOfTheSignedResult := by
  unfold Obligations.SetccSetsTheFlagOfTheSignedResult
  intro s v
  have hflags : psrNzp (s.setcc v).psr = flagsOf v := psrNzp_withNzp s.psr (flagsOf v)
  rw [hflags, flagsOf_eq]
  refine ⟨fun h => if_pos h, fun h => ?_, fun h => ?_, fun n hn => ?_, rfl⟩
  · rw [if_neg (by omega), if_pos h]; rfl
  · rw [if_neg (by omega), if_neg (by omega)]; rfl
  · rw [State.setcc_psr, getLsbD_withNzp, if_neg (by omega)]

/-- Settles O9, from the value of each bit after each mutator. -/
theorem psrMutatorsPreserveOtherBits : Obligations.PsrMutatorsPreserveOtherBits := by
  unfold Obligations.PsrMutatorsPreserveOtherBits
  intro psr
  refine ⟨fun u => ⟨psrPriv_withPriv psr u, fun n hn => ?_⟩,
    fun pl => ⟨psrPl_withPl psr pl, fun n hn => getLsbD_withPl psr pl hn⟩,
    fun f => ⟨psrNzp_withNzp psr f, fun n hn => ?_⟩⟩
  · rw [getLsbD_withPriv, if_pos hn]
  · rw [getLsbD_withNzp, if_neg (by omega)]

/-- Settles O10: the resolver asks whether the mask and the flags share a bit. -/
theorem branchIsTakenWhenARequestedFlagIsSet : Obligations.BranchIsTakenWhenARequestedFlagIsSet := by
  unfold Obligations.BranchIsTakenWhenARequestedFlagIsSet
  intro nzp psr
  refine ⟨branchTaken_iff nzp psr, rfl, fun h => ?_⟩
  rw [← Bool.not_eq_true, branchTaken_iff, h]
  decide

end Sys2Proof.Machine
end

section
/-! PROOFS. What an operation does to the PSR and to the general registers, said once over all instructions, and that the mode
passes through every shared operation untouched: the obligations on flags, registers, stores and the mode
(spec/10_state.md R22, R25, R30, spec/60_exceptions.md R290, R291). -/

namespace Sys2Proof.Machine

/-! ## Pops and the parts of a step, as far as these obligations read them -/

@[simp] theorem fetch_psr (s : State) : (fetch s).2.psr = s.psr := by simp [fetch_snd]

@[simp] theorem emitTrace_psr (i : Instr) (s : State) : (emitTrace i s).psr = s.psr := by
  rcases emitTrace_spec i s with h | ⟨_, _, h⟩ <;> rw [h]

/-- The end of a step writes the count, which does not fall, and the run state: nothing else. -/
theorem retire_update (u : State) : ∃ n r, u.tc ≤ n ∧ retire u = { u with tc := n, run := r } := by
  rcases retire_spec u with ⟨_, h⟩ | ⟨hf, hr, _⟩
  · exact ⟨u.tc, u.run, le_rfl, h⟩
  · exact ⟨u.tc + 1, _, Nat.le_succ _, retire_of_going hf hr⟩

@[simp] theorem retire_psr (u : State) : (retire u).psr = u.psr := by
  obtain ⟨n, r, _, h⟩ := retire_update u
  rw [h]

theorem State.reg_withPsr (s : State) (psr : Word) (r : RegIdx) : ({ s with psr := psr } : State).reg r = s.reg r := rfl

theorem popWord_reg (s : State) {r : RegIdx} (hr : r ≠ 6) : (popWord s).2.reg r = s.reg r := by
  rw [popWord_snd, State.reg_setReg_of_ne _ _ hr, memRead_reg]

/-- The return from interrupt writes no general register but R6. -/
theorem returnFromInterrupt_reg (s : State) {r : RegIdx} (hr : r ≠ 6) : (returnFromInterrupt s).reg r = s.reg r := by
  simp only [returnFromInterrupt, State.reg_withPsr, popWord_reg _ hr, State.reg_jumpTo]

/-! ## What an operation does to the PSR -/

theorem loadInto_psr (dr : RegIdx) (a : Word) (s : State) :
    (loadInto dr a s).psr = withNzp s.psr (flagsOf (memRead a s).1) := by
  rw [loadInto, State.writeResult_psr, memRead_psr]

/-- RTI in user mode does nothing (R223). -/
theorem exec_rti_of_user {s : State} (h : s.userMode = true) : exec .rti s = .next s := by
  simp only [exec, execRti, h, if_true]

/-- Everything an operation can do to the PSR: set the flags of a result, leave it, set the mode bit (JMPT), or pop it (RTI,
from supervisor mode only). -/
theorem exec_psr {i : Instr} {s t : State} (h : exec i s = .next t) :
    (setsFlags i = true ∧ readsPrivilege i = false ∧ ∃ v, t.psr = withNzp s.psr (flagsOf v)) ∨
    (setsFlags i = false ∧ t.psr = s.psr) ∨
    (setsFlags i = false ∧ readsPrivilege i = true ∧ t.psr = withPriv s.psr true) ∨
    (i = .rti ∧ s.userMode = false) := by
  cases i with
  | addReg | addImm | andReg | andImm | notReg | lea => cases h; exact Or.inl ⟨rfl, rfl, _, rfl⟩
  | ld | ldr => cases h; exact Or.inl ⟨rfl, rfl, _, loadInto_psr _ _ _⟩
  | ldi dr off =>
    cases h
    refine Or.inl ⟨rfl, rfl, (memRead (eaIndirect off s).1 (eaIndirect off s).2).1, ?_⟩
    rw [loadInto_psr, eaIndirect, memRead_psr]
  | br m off => cases h; refine Or.inr (Or.inl ⟨rfl, ?_⟩); split <;> rfl
  | jsrr base => cases h; refine Or.inr (Or.inl ⟨rfl, ?_⟩); split <;> rfl
  | jmpt base =>
    simp only [exec, execJmpt] at h
    split at h <;> cases h
    · exact Or.inr (Or.inl ⟨rfl, rfl⟩)
    · exact Or.inr (Or.inl ⟨rfl, rfl⟩)
    · split
      · exact Or.inr (Or.inl ⟨rfl, rfl⟩)
      · exact Or.inr (Or.inr (Or.inl ⟨rfl, rfl, rfl⟩))
  | rti =>
    cases hu : s.userMode with
    | true => rw [exec_rti_of_user hu] at h; cases h; exact Or.inr (Or.inl ⟨rfl, rfl⟩)
    | false => exact Or.inr (Or.inr (Or.inr ⟨rfl, rfl⟩))
  | nop | jmp | ret | jsr | st | sti | str | trap | reserved =>
    cases h; refine Or.inr (Or.inl ⟨rfl, ?_⟩); simp [eaIndirect, enterTrap, takeDecodeFault]

/-- No operation leaves user mode (R291). -/
theorem exec_userMode {i : Instr} {s t : State} (h : exec i s = .next t) (hs : s.userMode = true) : t.userMode = true := by
  rcases exec_psr h with ⟨_, _, v, e⟩ | ⟨_, e⟩ | ⟨_, _, e⟩ | ⟨_, hsup⟩
  · rw [State.userMode, e, psrPriv_withNzp]; exact hs
  · rw [State.userMode, e]; exact hs
  · rw [State.userMode, e, psrPriv_withPriv]
  · rw [hs] at hsup; cases hsup

/-- An operation that does not look at the mode keeps it (R290). -/
theorem exec_psrPriv {i : Instr} {s t : State} (h : exec i s = .next t) (hi : readsPrivilege i = false) :
    psrPriv t.psr = psrPriv s.psr := by
  rcases exec_psr h with ⟨_, _, v, e⟩ | ⟨_, e⟩ | ⟨_, hr, _⟩ | ⟨rfl, _⟩
  · rw [e, psrPriv_withNzp]
  · rw [e]
  · rw [hi] at hr; cases hr
  · cases hi

/-! ## What an operation does to the general registers -/

/-- An operation writes no general register but those that R22 gives it. -/
theorem exec_reg {i : Instr} {s t : State} (h : exec i s = .next t) {r : RegIdx} (hr : r ∉ writtenRegs i) :
    t.reg r = s.reg r := by
  cases i with
  | addReg | addImm | andReg | andImm | notReg | lea =>
    cases h; rw [State.reg_writeResult, if_neg (List.ne_of_not_mem_cons hr)]
  | ld | ldi | ldr =>
    cases h; simp only [loadInto, eaIndirect, State.reg_writeResult, if_neg (List.ne_of_not_mem_cons hr), memRead_reg]
  | jsr off => cases h; exact s.reg_setReg_of_ne s.pc (List.ne_of_not_mem_cons hr)
  | jsrr base => cases h; split <;> exact s.reg_setReg_of_ne s.pc (List.ne_of_not_mem_cons hr)
  | trap vect =>
    cases h
    simp only [enterTrap, State.reg_jumpTo, memRead_reg, State.reg_link, if_neg (List.ne_of_not_mem_cons hr)]
  | rti =>
    cases h
    split
    · rfl
    · exact returnFromInterrupt_reg s (List.ne_of_not_mem_cons hr)
  | jmpt base =>
    simp only [exec, execJmpt] at h
    split at h <;> cases h
    · rfl
    · rfl
    · split <;> rfl
  | br m off => cases h; split <;> rfl
  | nop | jmp | ret | st | sti | str | reserved => cases h; simp [eaIndirect, takeDecodeFault, State.reg]

/-! ## The mode passes through every shared operation (R290) -/

section
variable (user : Bool) (s : State)

@[simp] theorem inMode_reg (r : RegIdx) : (inMode user s).reg r = s.reg r := rfl

@[simp] theorem inMode_pc : (inMode user s).pc = s.pc := rfl

@[simp] theorem inMode_cfg : (inMode user s).cfg = s.cfg := rfl

theorem readKeyboard_inMode (a : Word) :
    readKeyboard a (inMode user s) = ((readKeyboard a s).1, inMode user (readKeyboard a s).2) := by
  cases h : s.kbdIn <;> simp [readKeyboard, inMode, State.answered, h]

theorem readOtherDevice_inMode (a : Word) :
    readOtherDevice a (inMode user s) = ((readOtherDevice a s).1, inMode user (readOtherDevice a s).2) := by
  cases h : s.devIn <;> simp [readOtherDevice, inMode, State.answered, h]

theorem memRead_inMode (a : Word) : memRead a (inMode user s) = ((memRead a s).1, inMode user (memRead a s).2) := by
  simp only [memRead, devRead, readKeyboard_inMode, readOtherDevice_inMode]
  split_ifs <;> rfl

theorem memWrite_inMode (a v : Word) : memWrite a v (inMode user s) = inMode user (memWrite a v s) := by
  simp only [memWrite, devWrite]
  split_ifs <;> rfl

theorem writeResult_inMode (dr : RegIdx) (v : Word) : (inMode user s).writeResult dr v = inMode user (s.writeResult dr v) := by
  simp only [State.writeResult, State.setcc, inMode, State.setReg, withNzp_withPriv]

theorem loadInto_inMode (dr : RegIdx) (a : Word) : loadInto dr a (inMode user s) = inMode user (loadInto dr a s) := by
  simp only [loadInto, memRead_inMode, writeResult_inMode]

theorem enterTrap_inMode (vect : Word) : enterTrap vect (inMode user s) = inMode user (enterTrap vect s) := by
  have hlink : (inMode user s).link = inMode user s.link := rfl
  simp only [enterTrap, hlink, memRead_inMode]
  rfl

end

/-- An operation that does not look at the mode does the same in both (R290). -/
theorem exec_inMode {i : Instr} {s t : State} (user : Bool) (hi : readsPrivilege i = false) (h : exec i s = .next t) :
    exec i (inMode user s) = .next (inMode user t) := by
  cases i with
  | addReg | addImm | andReg | andImm | notReg | lea =>
    cases h
    simp only [exec, execAddReg, execAddImm, execAndReg, execAndImm, execNotReg, execLea, eaPcRelative, inMode_reg, inMode_pc,
      writeResult_inMode]
  | ld | ldi | ldr =>
    cases h
    simp only [exec, execLd, execLdi, execLdr, eaPcRelative, eaIndirect, eaBaseOffset, inMode_reg, inMode_pc, memRead_inMode,
      loadInto_inMode]
  | st | sti | str =>
    cases h
    simp only [exec, execSt, execSti, execStr, eaPcRelative, eaIndirect, eaBaseOffset, inMode_reg, inMode_pc, memRead_inMode,
      memWrite_inMode]
  | trap vect => cases h; simp only [exec, execTrap, enterTrap_inMode]
  | br m off =>
    cases h
    have hb : branchTaken m (inMode user s).psr = branchTaken m s.psr := branchTaken_withPriv m s.psr user
    simp only [exec, execBr, hb]
    split <;> rfl
  | jsrr base =>
    cases h
    cases hl : s.cfg.jsrrLinkFirst <;> simp only [exec, execJsrr, inMode_cfg, hl] <;> rfl
  | nop | jmp | ret | jsr | reserved => cases h; rfl
  | jmpt | rti => cases hi

/-! ## The obligations -/

/-- Settles O45: the fetch, the trace port and the end of a step leave the PSR, and no operation leaves user mode. -/
theorem userModeIsNeverLeftByAStep : Obligations.UserModeIsNeverLeftByAStep := by
  unfold Obligations.UserModeIsNeverLeftByAStep
  intro s t hs h
  rcases cycle_cases (step_cases h).2 with ⟨_, rfl⟩ | ⟨i, u, _, hu, rfl⟩
  · simpa [State.userMode, takeDecodeFault] using hs
  · have hmode : (emitTrace i (fetch s).2).userMode = true := by simpa [State.userMode] using hs
    simpa [State.userMode] using exec_userMode hu hmode

/-- Settles O46, from what an operation does in the other mode and to the mode. -/
theorem onlyRtiAndJmptDependOnTheMode : Obligations.OnlyRtiAndJmptDependOnTheMode := by
  unfold Obligations.OnlyRtiAndJmptDependOnTheMode
  intro i s t user hi h
  exact ⟨exec_inMode user hi h, exec_psrPriv h hi⟩

/-- Settles O48, by what the operation did to the PSR. -/
theorem onlyFlagSettersWriteTheFlags : Obligations.OnlyFlagSettersWriteTheFlags := by
  unfold Obligations.OnlyFlagSettersWriteTheFlags
  intro i s t h
  rcases exec_psr h with ⟨hf, _, v, e⟩ | ⟨hf, e⟩ | ⟨hf, _, e⟩ | ⟨rfl, _⟩
  · exact ⟨fun _ => by rw [e, psrNzp_withNzp]; exact flagsOf_mem v, by simp [hf]⟩
  · exact ⟨by simp [hf], fun _ _ => by rw [e]⟩
  · exact ⟨by simp [hf], fun _ _ => by rw [e, psrNzp_withPriv]⟩
  · exact ⟨by simp [setsFlags], fun _ hn => absurd rfl hn⟩

/-- Settles O49, by `exec_reg`; RTI in user mode is the identity. -/
theorem instructionsWriteOnlyTheirRegisters : Obligations.InstructionsWriteOnlyTheirRegisters := by
  unfold Obligations.InstructionsWriteOnlyTheirRegisters
  intro i s t h
  refine ⟨fun r hr => exec_reg h hr, ?_⟩
  rintro rfl hu r
  rw [exec_rti_of_user hu] at h
  cases h
  rfl

/-- Settles O50: an operation that is no store leaves the memory itself, `out` and MCR. -/
theorem onlyStoresWriteMemoryOutputOrMcr : Obligations.OnlyStoresWriteMemoryOutputOrMcr := by
  unfold Obligations.OnlyStoresWriteMemoryOutputOrMcr
  intro i s t hi h
  have hn : ∀ sr off, i ≠ .st sr off ∧ i ≠ .sti sr off ∧ ∀ b, i ≠ .str sr b off := by
    refine fun sr off => ⟨?_, ?_, fun b => ?_⟩ <;> rintro rfl <;> cases hi
  obtain ⟨hmem, hout, hmcr⟩ := exec_nonstore h hn
  exact ⟨fun k => by rw [hmem], hout, hmcr⟩

end Sys2Proof.Machine
end

section
/-! PROOFS. The reset state, the invariant, and what only grows: the obligations on the machine as a whole
(spec/10_state.md R36 to R40, R43, spec/50_execution_cycle.md R241, spec/60_exceptions.md R281). -/

namespace Sys2Proof.Machine

/-! ## The invariant -/

@[simp] theorem fetch_mem (s : State) : (fetch s).2.mem = s.mem := by simp [fetch_snd]

@[simp] theorem fetch_fault (s : State) : (fetch s).2.fault = s.fault := by simp [fetch_snd]

@[simp] theorem emitTrace_mem (i : Instr) (s : State) : (emitTrace i s).mem = s.mem := by
  rcases emitTrace_spec i s with h | ⟨_, _, h⟩ <;> rw [h]

@[simp] theorem emitTrace_fault (i : Instr) (s : State) : (emitTrace i s).fault = s.fault := by
  rcases emitTrace_spec i s with h | ⟨_, _, h⟩ <;> rw [h]

/-- No fault is recorded where a step is enabled. -/
theorem State.Inv.fault_of_enabled {s : State} (h : s.Inv) (hs : s.enabled = true) : s.fault.isSome = false := by
  rw [← Bool.not_eq_true, h.fault_iff]
  rcases (State.enabled_iff s).mp hs with hr | hr <;> simp [hr]

/-- From an enabled engine with an empty fault record, an operation leaves a record exactly when it ends in Faulted. -/
theorem exec_fault_iff {i : Instr} {s u : State} (hs : s.enabled = true) (hf : s.fault.isSome = false)
    (hu : exec i s = .next u) : u.fault.isSome = true ↔ u.run = .faulted := by
  rw [exec_run_faulted_iff hs hu]
  rcases exec_fault hu with ⟨hr, hsome⟩ | ⟨hr, hsame⟩
  · exact iff_of_true hsome hr
  · exact iff_of_false (by rw [hsame, hf]; exact Bool.false_ne_true) (by rw [hr]; exact Bool.false_ne_true)

/-- The end of a step gives the invariant its clock clause: an engine that still runs after it has its clock bit set. -/
theorem retire_inv {u : State} (hmem : Memory.wf u.mem = true) (hfault : u.fault.isSome = true ↔ u.run = .faulted) :
    (retire u).Inv := by
  by_cases hstop : u.run = .faulted ∨ u.run = .refused
  · rw [retire_of_stopped hstop]
    refine ⟨hmem, hfault, fun hrun => ?_⟩
    rcases hstop with h | h <;> rw [h] at hrun <;> cases hrun
  · obtain ⟨hf, hr⟩ := not_or.mp hstop
    rw [retire_of_going hf hr]
    refine ⟨hmem, ?_, fun hrun => ?_⟩
    · refine iff_of_false (fun h => hf (hfault.mp h)) fun h => ?_
      dsimp only at h
      split at h
      · cases h
      · exact hf h
    · dsimp only at hrun
      split at hrun
      · cases hrun
      · next hclock => exact eq_true_of_ne_false fun h => hclock ⟨h, hrun⟩

/-! ## What only grows -/

/-- From `s` to `t` the logs only grew, the counts did not fall, and the parameters stood. -/
def LogsGrow (s t : State) : Prop :=
  s.out <+: t.out ∧ s.trace <+: t.trace ∧ s.portLog <+: t.portLog ∧ s.tc ≤ t.tc ∧ s.draws ≤ t.draws ∧ t.cfg = s.cfg

theorem LogsGrow.refl (s : State) : LogsGrow s s := by simp [LogsGrow]

theorem LogsGrow.trans {s t u : State} (h : LogsGrow s t) (g : LogsGrow t u) : LogsGrow s u := by
  obtain ⟨ho, ht, hp, hc, hd, hf⟩ := h
  obtain ⟨ho', ht', hp', hc', hd', hf'⟩ := g
  exact ⟨ho.trans ho', ht.trans ht', hp.trans hp', hc.trans hc', hd.trans hd', hf'.trans hf⟩

theorem LogsGrow.withPsr {s t : State} (h : LogsGrow s t) (psr : Word) : LogsGrow s { t with psr := psr } := h

theorem jumpTo_logsGrow (s : State) (a : Word) : LogsGrow s (s.jumpTo a) := LogsGrow.refl s

theorem memRead_logsGrow (a : Word) (s : State) : LogsGrow s (memRead a s).2 := by
  rcases memRead_spec a s with h | ⟨_, _, h⟩ <;> rw [h]
  · exact LogsGrow.refl s
  · simp [LogsGrow, State.answered]

theorem memWrite_logsGrow (a v : Word) (s : State) : LogsGrow s (memWrite a v s) := by
  rcases memWrite_spec a v s with ⟨_, h⟩ | ⟨_, h⟩ | ⟨_, h⟩ | ⟨_, _, _, h⟩ <;> rw [h]
  · exact LogsGrow.refl s
  · exact LogsGrow.refl s
  · simp [LogsGrow]
  · simp [LogsGrow]

theorem loadInto_logsGrow (dr : RegIdx) (a : Word) (s : State) : LogsGrow s (loadInto dr a s) := memRead_logsGrow a s

theorem eaIndirect_logsGrow (off : Int) (s : State) : LogsGrow s (eaIndirect off s).2 := memRead_logsGrow _ s

theorem enterTrap_logsGrow (vect : Word) (s : State) : LogsGrow s (enterTrap vect s) := memRead_logsGrow vect s.link

theorem popWord_logsGrow (s : State) : LogsGrow s (popWord s).2 := memRead_logsGrow (s.reg 6) s

theorem returnFromInterrupt_logsGrow (s : State) : LogsGrow s (returnFromInterrupt s) := by
  rw [returnFromInterrupt]
  exact (((popWord_logsGrow s).trans (jumpTo_logsGrow _ _)).trans (popWord_logsGrow _)).withPsr _

theorem exec_logsGrow {i : Instr} {s t : State} (h : exec i s = .next t) : LogsGrow s t := by
  cases i with
  | addReg | addImm | andReg | andImm | notReg | lea | nop | jmp | ret | jsr | reserved => cases h; exact LogsGrow.refl s
  | ld | ldr => cases h; exact loadInto_logsGrow _ _ s
  | ldi dr off => cases h; exact (eaIndirect_logsGrow off s).trans (loadInto_logsGrow _ _ _)
  | st | str => cases h; exact memWrite_logsGrow _ _ s
  | sti sr off => cases h; exact (eaIndirect_logsGrow off s).trans (memWrite_logsGrow _ _ _)
  | trap => cases h; exact enterTrap_logsGrow _ s
  | br | jsrr => cases h; split <;> exact LogsGrow.refl s
  | rti =>
    cases h
    split
    · exact LogsGrow.refl s
    · exact returnFromInterrupt_logsGrow s
  | jmpt base =>
    simp only [exec, execJmpt] at h
    split at h <;> cases h
    · exact LogsGrow.refl s
    · exact LogsGrow.refl s
    · split <;> exact LogsGrow.refl s

theorem fetch_logsGrow (s : State) : LogsGrow s (fetch s).2 := memRead_logsGrow s.pc s

theorem emitTrace_logsGrow (i : Instr) (s : State) : LogsGrow s (emitTrace i s) := by
  rcases emitTrace_spec i s with h | ⟨_, _, h⟩ <;> rw [h]
  · exact LogsGrow.refl s
  · simp [LogsGrow]

theorem retire_logsGrow (u : State) : LogsGrow u (retire u) := by
  obtain ⟨n, r, hn, h⟩ := retire_update u
  rw [h]
  simpa [LogsGrow] using hn

/-! ## The obligations -/

/-- Settles O43: a decode fault records itself, and otherwise the operation keeps memory and record and `retire` the clock. -/
theorem everyStepKeepsTheInvariant : Obligations.EveryStepKeepsTheInvariant := by
  unfold Obligations.EveryStepKeepsTheInvariant
  intro s t hinv h
  obtain ⟨hs, hcycle⟩ := step_cases h
  rcases cycle_cases hcycle with ⟨_, rfl⟩ | ⟨i, u, _, hu, rfl⟩
  · refine ⟨?_, iff_of_true rfl rfl, fun hrun => by cases hrun⟩
    simpa [takeDecodeFault] using hinv.mem_wf
  · have henabled : (emitTrace i (fetch s).2).enabled = true := by simpa [State.enabled_iff] using hs
    have hfault : (emitTrace i (fetch s).2).fault.isSome = false := by simpa using hinv.fault_of_enabled hs
    have hmem : Memory.wf (emitTrace i (fetch s).2).mem = true := by simpa using hinv.mem_wf
    exact retire_inv (exec_wf hu hmem) (exec_fault_iff henabled hfault hu)

/-- Settles O51: every part of a step lets the logs only grow. -/
theorem logsOnlyGrowAndParametersStand : Obligations.LogsOnlyGrowAndParametersStand := by
  unfold Obligations.LogsOnlyGrowAndParametersStand
  intro s t h
  change LogsGrow s t
  rcases cycle_cases (step_cases h).2 with ⟨_, rfl⟩ | ⟨i, u, _, hu, rfl⟩
  · exact fetch_logsGrow s
  · exact (fetch_logsGrow s).trans ((emitTrace_logsGrow i _).trans ((exec_logsGrow hu).trans (retire_logsGrow u)))

/-- Settles O42: at reset the engine is neither Faulted nor running. -/
theorem theInvariantHoldsAtReset : Obligations.TheInvariantHoldsAtReset := by
  unfold Obligations.TheInvariantHoldsAtReset
  exact ⟨rfl, iff_of_false Bool.false_ne_true (by decide), fun hrun => by cases hrun⟩

/-- Settles O52: the register file and the memory read zero at every index, and the rest is the reset state's own text. -/
theorem resetZeroesTheMachine : Obligations.ResetZeroesTheMachine := by
  unfold Obligations.ResetZeroesTheMachine
  refine ⟨fun r => ?_, rfl, rfl, fun a => ?_, rfl, rfl, rfl, rfl, rfl⟩
  · simp [State.reg, State.reset]
  · simp only [State.reset, Memory.readWord, Memory.readByte_nil]
    rfl

end Sys2Proof.Machine
end

section
/-! PROOFS. Reads and writes through the multiplexer, address by address: the obligations on memory, on the device registers and
on the stores (spec/20_memory.md R60 to R75, R85, R88, spec/42_load_store.md R197 to R199). -/

namespace Sys2Proof.Machine

/-! ## The canonical form is unique (log entry 1) -/

/-- Of two canonical memories that read alike, the first key of the second is no later than the first key of the first. -/
theorem Memory.headKey_le {lo lo' b b' : Nat} {u u' : Byte} {m m' : Memory} (hm : Memory.wfFrom lo ((b, u) :: m) = true)
    (hm' : Memory.wfFrom lo' ((b', u') :: m') = true)
    (h : Memory.readByte ((b, u) :: m) b = Memory.readByte ((b', u') :: m') b) : b' ≤ b := by
  obtain ⟨_, _, hu, _⟩ := Memory.wfFrom_cons.mp hm
  obtain ⟨_, hb', hu', htail'⟩ := Memory.wfFrom_cons.mp hm'
  by_contra hlt
  have habsent : Memory.readByte ((b', u') :: m') b = unlistedByte :=
    Memory.readByte_below (Memory.wfFrom_cons.mpr ⟨le_rfl, hb', hu', htail'⟩) (by omega)
  rw [habsent, Memory.readByte_cons, if_pos rfl] at h
  exact hu h

/-- A canonical memory that lists a cell does not read like the empty one. -/
theorem Memory.readByte_headKey_ne {lo b : Nat} {u : Byte} {m : Memory} (hm : Memory.wfFrom lo ((b, u) :: m) = true) :
    Memory.readByte ((b, u) :: m) b ≠ unlistedByte := by
  obtain ⟨_, _, hu, _⟩ := Memory.wfFrom_cons.mp hm
  rwa [Memory.readByte_cons, if_pos rfl]

theorem Memory.eq_of_readByte_eq {lo lo' : Nat} {m m' : Memory} (hm : Memory.wfFrom lo m = true)
    (hm' : Memory.wfFrom lo' m' = true) (h : ∀ k, Memory.readByte m k = Memory.readByte m' k) : m = m' := by
  induction m generalizing lo lo' m' with
  | nil =>
    cases m' with
    | nil => rfl
    | cons c' m' => exact absurd (h c'.1).symm (Memory.readByte_headKey_ne hm')
  | cons c m ih =>
    cases m' with
    | nil => exact absurd (h c.1) (Memory.readByte_headKey_ne hm)
    | cons c' m' =>
      obtain ⟨b, u⟩ := c
      obtain ⟨b', u'⟩ := c'
      obtain rfl : b = b' := le_antisymm (Memory.headKey_le hm' hm (h b').symm) (Memory.headKey_le hm hm' (h b))
      obtain rfl : u = u' := by simpa using h b
      obtain ⟨_, _, _, htail⟩ := Memory.wfFrom_cons.mp hm
      obtain ⟨_, _, _, htail'⟩ := Memory.wfFrom_cons.mp hm'
      refine congrArg _ (ih htail htail' fun k => ?_)
      by_cases hk : b = k
      · subst hk
        rw [Memory.readByte_below htail b.lt_succ_self, Memory.readByte_below htail' b.lt_succ_self]
      · simpa only [Memory.readByte_cons, if_neg hk] using h k

/-! ## The edge of the device window (R61) -/

theorem below_iff (a : Word) : a < windowBase ↔ a.toNat < 0xFE00 := by
  simp [BitVec.lt_def]

theorem not_below_iff (a : Word) : ¬ a < windowBase ↔ 0xFE00 ≤ a.toNat := by
  rw [below_iff, not_lt]

theorem ne_mcrAddr_of_below {a : Word} (h : a < windowBase) : a ≠ mcrAddr := by
  rintro rfl
  exact absurd h (by decide)

theorem ne_ddrAddr_of_below {a : Word} (h : a < windowBase) : a ≠ ddrAddr := by
  rintro rfl
  exact absurd h (by decide)

/-! ## Device reads (R68 to R75) -/

theorem readKeyboard_of_cons {s : State} {v : Word} {rest : List Word} (a : Word) (h : s.kbdIn = v :: rest) :
    readKeyboard a s = (v, State.answered { s with kbdIn := rest } a v) := by
  simp only [readKeyboard, h]

theorem readKeyboard_of_nil {s : State} (a : Word) (h : s.kbdIn = []) :
    readKeyboard a s = (Config.kbdOracle s.draws a, s.answered a (Config.kbdOracle s.draws a)) := by
  simp only [readKeyboard, h]

theorem readOtherDevice_of_cons {s : State} {v : Word} {rest : List Word} (a : Word) (h : s.devIn = v :: rest) :
    readOtherDevice a s = (v, State.answered { s with devIn := rest } a v) := by
  simp only [readOtherDevice, h]

theorem readOtherDevice_of_nil {s : State} (a : Word) (h : s.devIn = []) :
    readOtherDevice a s = (Config.devReadOracle s.draws a, s.answered a (Config.devReadOracle s.draws a)) := by
  simp only [readOtherDevice, h]

theorem devRead_keyboard {a : Word} (h : a = kbsrAddr ∨ a = kbdrAddr) (s : State) : devRead a s = readKeyboard a s := if_pos h

theorem devRead_dsr (s : State) : devRead dsrAddr s = (dsrReady, s) := rfl

theorem devRead_mcr (s : State) : devRead mcrAddr s = (s.mcr, s) := rfl

theorem devRead_other {a : Word} (h : a ∉ [kbsrAddr, kbdrAddr, dsrAddr, mcrAddr]) (s : State) :
    devRead a s = readOtherDevice a s := by
  simp only [List.mem_cons, List.not_mem_nil, or_false, not_or] at h
  obtain ⟨hkbsr, hkbdr, hdsr, hmcr⟩ := h
  rw [devRead, if_neg (not_or.mpr ⟨hkbsr, hkbdr⟩), if_neg hdsr, if_neg hmcr]

/-! ## Device writes (R71, R73 to R75) -/

theorem devWrite_mcr (v : Word) (s : State) : devWrite mcrAddr v s = { s with mcr := v } := rfl

theorem devWrite_ddr (v : Word) (s : State) :
    devWrite ddrAddr v s = { s with out := s.out ++ [v], portLog := s.portLog ++ [.write ddrAddr v] } := rfl

theorem devWrite_other {a : Word} (hmcr : a ≠ mcrAddr) (hddr : a ≠ ddrAddr) (v : Word) (s : State) :
    devWrite a v s = { s with portLog := s.portLog ++ [.write a v] } := by
  rw [devWrite, if_neg hmcr, if_neg hddr]

/-! ## What a write through the multiplexer leaves in each field -/

theorem memWrite_mem_of_window {a : Word} (h : ¬ a < windowBase) (v : Word) (s : State) : (memWrite a v s).mem = s.mem := by
  rcases memWrite_spec a v s with ⟨hb, _⟩ | ⟨_, e⟩ | ⟨_, e⟩ | ⟨_, _, _, e⟩
  · exact absurd hb h
  all_goals rw [e]

theorem memWrite_mcr (a v : Word) (s : State) : (memWrite a v s).mcr = if a = mcrAddr then v else s.mcr := by
  rcases memWrite_spec a v s with ⟨hb, e⟩ | ⟨rfl, e⟩ | ⟨rfl, e⟩ | ⟨_, hmcr, _, e⟩ <;> rw [e]
  · rw [if_neg (ne_mcrAddr_of_below hb)]
  · rw [if_pos rfl]
  · rw [if_neg (by decide)]
  · rw [if_neg hmcr]

theorem memWrite_out (a v : Word) (s : State) : (memWrite a v s).out = if a = ddrAddr then s.out ++ [v] else s.out := by
  rcases memWrite_spec a v s with ⟨hb, e⟩ | ⟨rfl, e⟩ | ⟨rfl, e⟩ | ⟨_, _, hddr, e⟩ <;> rw [e]
  · rw [if_neg (ne_ddrAddr_of_below hb)]
  · rw [if_neg (by decide)]
  · rw [if_pos rfl]
  · rw [if_neg hddr]

theorem memWrite_portLog (a v : Word) (s : State) :
    (memWrite a v s).portLog = if a < windowBase ∨ a = mcrAddr then s.portLog else s.portLog ++ [.write a v] := by
  rcases memWrite_spec a v s with ⟨hb, e⟩ | ⟨rfl, e⟩ | ⟨rfl, e⟩ | ⟨hb, hmcr, _, e⟩ <;> rw [e]
  · rw [if_pos (Or.inl hb)]
  · rw [if_pos (Or.inr rfl)]
  · rw [if_neg (by decide)]
  · rw [if_neg (not_or.mpr ⟨hb, hmcr⟩)]

/-! ## A write below the window, and what is read after it (R65, R85, R88) -/

theorem readWord_memWrite {a : Word} (ha : a < windowBase) (v : Word) {s : State} (hw : Memory.wf s.mem = true) (b : Nat) :
    Memory.readWord (memWrite a v s).mem b = if b = a.toNat then v else Memory.readWord s.mem b := by
  rw [memWrite_below ha]
  exact Memory.readWord_writeWord hw ((below_iff a).mp ha) v b

theorem memWrite_sameMemoryExcept {a : Word} (ha : a < windowBase) (v : Word) {s : State} (hw : Memory.wf s.mem = true) :
    sameMemoryExcept a s (memWrite a v s) := by
  intro k hlow hhigh
  rw [memWrite_below ha]
  exact (Memory.readByte_writeWord hw ((below_iff a).mp ha) v k).trans (by rw [if_neg hhigh, if_neg hlow])

theorem fst_memRead_below {a : Word} (ha : a < windowBase) (s : State) : (memRead a s).1 = Memory.readWord s.mem a.toNat := by
  rw [memRead_below ha]

/-- A fetch gives the word written at its address, if memory still stands as the write left it. -/
theorem fetch_of_written {a : Word} (ha : a < windowBase) (v : Word) {s t : State} (hw : Memory.wf s.mem = true)
    (hpc : t.pc = a) (hmem : t.mem = (memWrite a v s).mem) : (fetch t).1 = v := by
  rw [fetch_fst, hpc, fst_memRead_below ha, hmem, readWord_memWrite ha v hw, if_pos rfl]

/-- Every write through the multiplexer stores one word as `wordStored` says (R71, R73 to R75, R197 to R199). -/
theorem memWrite_wordStored (a v : Word) {s : State} (hw : Memory.wf s.mem = true) : wordStored a v s (memWrite a v s) := by
  refine ⟨fun ha => ⟨?_, memWrite_sameMemoryExcept ha v hw⟩, fun ha k => ?_, memWrite_mcr a v s, memWrite_out a v s,
    memWrite_portLog a v s, ?_⟩
  · rw [readWord_memWrite ha v hw, if_pos rfl]
  · rw [memWrite_mem_of_window ha]
  · simp

/-! ## The stores, as writes through the multiplexer -/

theorem exec_st (sr : RegIdx) (off : Int) (s : State) :
    exec (.st sr off) s = .next (memWrite (s.pc + pcOffset9 off) (s.reg sr) s) := rfl

theorem exec_sti (sr : RegIdx) (off : Int) (s : State) :
    exec (.sti sr off) s = .next (memWrite (memRead (s.pc + pcOffset9 off) s).1 (s.reg sr)
      (memRead (s.pc + pcOffset9 off) s).2) := rfl

theorem exec_str (sr base : RegIdx) (off : Int) (s : State) :
    exec (.str sr base off) s = .next (memWrite (s.reg base + offset6 off) (s.reg sr) s) := rfl

/-! ## The obligations -/

/-- Settles O16: the first cells agree, since neither list can start at a later key than the other, and then the rests do. -/
theorem canonicalMemoriesThatReadAlikeAreEqual : Obligations.CanonicalMemoriesThatReadAlikeAreEqual := by
  unfold Obligations.CanonicalMemoriesThatReadAlikeAreEqual
  intro m m' hm hm' h
  exact Memory.eq_of_readByte_eq hm hm' h

/-- Settles O11: the multiplexer's two branches, the edge put as a number. -/
theorem readsChooseTheirSourceByAddress : Obligations.ReadsChooseTheirSourceByAddress := by
  unfold Obligations.ReadsChooseTheirSourceByAddress
  intro a s
  exact ⟨fun ha => memRead_below ((below_iff a).mpr ha) s, fun ha => memRead_window ((not_below_iff a).mpr ha) s⟩

/-- Settles O12: below the window, by reading each word and byte after the write. -/
theorem writesChooseTheirTargetByAddress : Obligations.WritesChooseTheirTargetByAddress := by
  unfold Obligations.WritesChooseTheirTargetByAddress
  intro a v s hw
  refine ⟨fun ha => ?_, fun ha => memWrite_window ((not_below_iff a).mpr ha) v s⟩
  have hb : a < windowBase := (below_iff a).mpr ha
  refine ⟨?_, memWrite_sameMemoryExcept hb v hw, ?_⟩
  · rw [readWord_memWrite hb v hw, if_pos rfl]
  · rw [memWrite_below hb]

/-- Settles O13: which register the address names, and for a host's answer whether one is ready. -/
theorem deviceReadsFollowTheRegisterMap : Obligations.DeviceReadsFollowTheRegisterMap := by
  unfold Obligations.DeviceReadsFollowTheRegisterMap
  refine ⟨devRead_dsr, devRead_mcr, fun a s ha => ?_, fun a s _ ha => ?_⟩
  · rw [devRead_keyboard ha]
    exact ⟨fun v rest h => readKeyboard_of_cons a h, fun h => ⟨_, readKeyboard_of_nil a h⟩⟩
  · rw [devRead_other ha]
    exact ⟨fun v rest h => readOtherDevice_of_cons a h, fun h => ⟨_, readOtherDevice_of_nil a h⟩⟩

/-- Settles O14, by which register the address names. -/
theorem deviceWritesFollowTheRegisterMap : Obligations.DeviceWritesFollowTheRegisterMap := by
  unfold Obligations.DeviceWritesFollowTheRegisterMap
  intro v s
  exact ⟨devWrite_mcr v s, devWrite_ddr v s, fun a _ hmcr hddr => devWrite_other hmcr hddr v s⟩

/-- Settles O15: both accesses are of the array, where a word read is the word written at its address, or the older one. -/
theorem readsGiveTheMostRecentWrite : Obligations.ReadsGiveTheMostRecentWrite := by
  unfold Obligations.ReadsGiveTheMostRecentWrite
  intro a b v s hw ha hb
  have ha' : a < windowBase := (below_iff a).mpr ha
  have hb' : b < windowBase := (below_iff b).mpr hb
  rw [fst_memRead_below hb', fst_memRead_below hb', readWord_memWrite ha' v hw]
  simp only [BitVec.toNat_inj]

/-- Settles O17: each store is one write at pc that leaves pc, and so does STI's pointer read before it. -/
theorem aStoreIsSeenByTheNextFetch : Obligations.AStoreIsSeenByTheNextFetch := by
  unfold Obligations.AStoreIsSeenByTheNextFetch
  intro s hw
  refine ⟨fun a v ha => fetch_of_written ((below_iff a).mpr ha) v hw rfl rfl, fun hpc sr off => ?_⟩
  have hb : s.pc < windowBase := (below_iff s.pc).mpr hpc
  refine ⟨fun h => ⟨_, exec_st sr off s, ?_⟩, fun h => ⟨_, exec_sti sr off s, ?_⟩,
    fun base h => ⟨_, exec_str sr base off s, ?_⟩⟩
  · rw [h]
    exact fetch_of_written hb _ hw (memWrite_pc _ _ s) rfl
  · rw [h]
    exact fetch_of_written hb _ (memRead_wf _ hw) ((memWrite_pc _ _ _).trans (memRead_pc _ s)) rfl
  · rw [h]
    exact fetch_of_written hb _ hw (memWrite_pc _ _ s) rfl

/-- Settles O32: each store is one write through the multiplexer; STI's is made after its pointer read. -/
theorem storesWriteOneWordAtTheirAddress : Obligations.StoresWriteOneWordAtTheirAddress := by
  unfold Obligations.StoresWriteOneWordAtTheirAddress
  intro sr off s hw
  exact ⟨⟨_, exec_st sr off s, memWrite_wordStored _ _ hw⟩,
    ⟨_, exec_sti sr off s, memWrite_wordStored _ _ (memRead_wf _ hw)⟩,
    fun base => ⟨_, exec_str sr base off s, memWrite_wordStored _ _ hw⟩⟩

end Sys2Proof.Machine
end

section
/-! PROOFS. The image loader: the words of a byte image, where a segment of words lands, and the three obligations on `load`
(spec/20_memory.md R80 to R84). -/

namespace Sys2Proof.Machine

/-! ## The words of an image (R80) -/

theorem length_imageWords (bytes : List Byte) : (imageWords bytes).length = bytes.length / 2 := by
  induction bytes using imageWords.induct with
  | case1 lo hi rest ih => simp only [imageWords, List.length_cons, ih]; omega
  | case2 b => simp [imageWords]
  | case3 => rfl

/-- Word `k` of an image is its bytes `2k` and `2k + 1`, the first in bits 7:0. -/
theorem getElem?_imageWords {bytes : List Byte} {k : Nat} {lo hi : Byte} (hlo : bytes[2 * k]? = some lo)
    (hhi : bytes[2 * k + 1]? = some hi) : (imageWords bytes)[k]? = some (hi ++ lo) := by
  induction bytes using imageWords.induct generalizing k with
  | case1 b b' rest ih =>
    cases k with
    | zero => cases hlo; cases hhi; rfl
    | succ k => exact ih hlo hhi
  | case2 b => cases hhi
  | case3 => cases hlo

/-! ## Where a segment of words lands (R84) -/

/-- A segment no longer than the room above its start keeps the canonical form, an empty one wherever it starts. -/
theorem Memory.wf_writeSegment_of_room {m : Memory} (hm : Memory.wf m = true) {a : Nat} {ws : List Word}
    (h : ws.length ≤ 0xFE00 - a) : Memory.wf (Memory.writeSegment m a ws) = true := by
  cases ws with
  | nil => exact hm
  | cons w ws =>
    rw [List.length_cons] at h
    exact Memory.wf_writeSegment hm (by rw [List.length_cons]; omega)

/-- A byte outside a segment reads as before. -/
theorem Memory.readByte_writeSegment {m : Memory} (hm : Memory.wf m = true) {a : Nat} {ws : List Word}
    (h : ws.length ≤ 0xFE00 - a) {k : Nat} (hk : k < 2 * a ∨ 2 * (a + ws.length) ≤ k) :
    Memory.readByte (Memory.writeSegment m a ws) k = Memory.readByte m k := by
  induction ws generalizing m a with
  | nil => rfl
  | cons w ws ih =>
    rw [List.length_cons] at h hk
    have ha : a < 0xFE00 := by omega
    rw [Memory.writeSegment, ih (Memory.wf_writeWord hm ha w) (by omega) (by omega), Memory.readByte_writeWord hm ha,
      if_neg (by omega), if_neg (by omega)]

/-- A word before a segment reads as before. -/
theorem Memory.readWord_writeSegment_below {m : Memory} (hm : Memory.wf m = true) {a : Nat} {ws : List Word}
    (h : ws.length ≤ 0xFE00 - a) {b : Nat} (hb : b < a) :
    Memory.readWord (Memory.writeSegment m a ws) b = Memory.readWord m b := by
  simp only [Memory.readWord]
  rw [Memory.readByte_writeSegment hm h (by omega), Memory.readByte_writeSegment hm h (by omega)]

/-- Word `k` of a segment is read `k` words above its start. -/
theorem Memory.readWord_writeSegment {m : Memory} (hm : Memory.wf m = true) {a : Nat} {ws : List Word}
    (h : ws.length ≤ 0xFE00 - a) {k : Nat} {w : Word} (hw : ws[k]? = some w) :
    Memory.readWord (Memory.writeSegment m a ws) (a + k) = w := by
  induction ws generalizing m a k with
  | nil => cases hw
  | cons v ws ih =>
    rw [List.length_cons] at h
    have ha : a < 0xFE00 := by omega
    have hm' : Memory.wf (Memory.writeWord m a v) = true := Memory.wf_writeWord hm ha v
    have hroom : ws.length ≤ 0xFE00 - (a + 1) := by omega
    cases k with
    | zero =>
      cases hw
      rw [Memory.writeSegment, Nat.add_zero a, Memory.readWord_writeSegment_below hm' hroom a.lt_succ_self,
        Memory.readWord_writeWord hm ha, if_pos rfl]
    | succ k =>
      rw [List.getElem?_cons_succ] at hw
      rw [Memory.writeSegment, show a + (k + 1) = a + 1 + k by omega]
      exact ih hm' hroom hw

/-! ## What a load does -/

/-- The words of an image that fit between the base and the device window (R81). -/
def fittingWords (base : Word) (bytes : List Byte) : List Word := (imageWords bytes).take (roomAbove base)

theorem length_fittingWords (base : Word) (bytes : List Byte) :
    (fittingWords base bytes).length = min (0xFE00 - base.toNat) (bytes.length / 2) := by
  rw [fittingWords, List.length_take, length_imageWords, roomAbove]

/-- The state and the report that the load of an image of even length leaves (R80, R81). -/
def loaded (base : Word) (bytes : List Byte) (s : State) : State × Bool :=
  ({ s with mem := Memory.writeSegment s.mem base.toNat (fittingWords base bytes) },
    decide (0xFE00 - base.toNat < bytes.length / 2))

theorem loadWords_of_even {bytes : List Byte} (h : bytes.length % 2 = 0) (base : Word) (s : State) :
    loadWords base bytes s = .next (loaded base bytes s) := by
  rw [loadWords, if_neg (by omega), length_imageWords]
  rfl

theorem loadWords_of_odd {bytes : List Byte} (h : bytes.length % 2 = 1) (base : Word) (s : State) :
    loadWords base bytes s = .refused .oddImage := if_pos h

/-- Outside the terminal states a load is enabled (R246). -/
theorem load_of_not_terminal {s : State} (hf : s.run ≠ .faulted) (hr : s.run ≠ .refused) (base : Word) (bytes : List Byte) :
    load base bytes s = loadWords base bytes s := by
  unfold load
  split
  · rfl
  · rfl
  · rfl
  · next h => exact absurd h hf
  · next h => exact absurd h hr

/-- A load that gives a next state was of an image of even length. -/
theorem load_next {base : Word} {bytes : List Byte} {s : State} {r : State × Bool} (h : load base bytes s = .next r) :
    bytes.length % 2 = 0 ∧ r = loaded base bytes s := by
  have hwords : loadWords base bytes s = .next r := by
    unfold load at h
    split at h
    · exact h
    · exact h
    · exact h
    · cases h
    · cases h
  rcases Nat.mod_two_eq_zero_or_one bytes.length with heven | hodd
  · rw [loadWords_of_even heven] at hwords
    cases hwords
    exact ⟨heven, rfl⟩
  · rw [loadWords_of_odd hodd] at hwords
    cases hwords

/-! ## The obligations -/

/-- Settles O55: the word of the two bytes is among those that fit, and is read where the segment put it. -/
theorem theLoaderPairsBytesLittleEndian : Obligations.TheLoaderPairsBytesLittleEndian := by
  unfold Obligations.TheLoaderPairsBytesLittleEndian
  intro base bytes s hw hf hr heven
  refine ⟨_, _, (load_of_not_terminal hf hr base bytes).trans (loadWords_of_even heven base s), ?_⟩
  intro k lo hi hlo hhi hk
  have hroom : (fittingWords base bytes).length ≤ 0xFE00 - base.toNat := by
    rw [length_fittingWords]; exact min_le_left _ _
  refine Memory.readWord_writeSegment hw hroom ?_
  rw [fittingWords, List.getElem?_take_of_lt (by rw [roomAbove]; omega)]
  exact getElem?_imageWords hlo hhi

/-- Settles O56, by the number of words that fit. -/
theorem theLoaderStopsAtTheDeviceWindow : Obligations.TheLoaderStopsAtTheDeviceWindow := by
  unfold Obligations.TheLoaderStopsAtTheDeviceWindow
  intro base bytes s t short hw h
  obtain ⟨heven, e⟩ := load_next h
  cases e
  have hlength := length_fittingWords base bytes
  refine ⟨decide_eq_true_iff, fun hbase => ?_, fun k hk => ?_, rfl⟩
  · subst hbase
    rw [decide_eq_true_iff, show (0 : Word).toNat = 0 from rfl]
    omega
  · exact Memory.readByte_writeSegment hw (by omega) (by omega)

/-- Settles O57: the parity check is the first branch of an enabled load. -/
theorem oddImagesAreRefused : Obligations.OddImagesAreRefused := by
  unfold Obligations.OddImagesAreRefused
  intro base bytes s hf hr hodd
  rw [load_of_not_terminal hf hr, loadWords_of_odd hodd]

end Sys2Proof.Machine
end

section
/-! PROOFS. The host's transactions keep the invariant: load, initialisation, run, the observed run and stop
(spec/20_memory.md R81, spec/50_execution_cycle.md R240 to R252, spec/70_reset_and_hazards.md R321). -/

namespace Sys2Proof.Machine

/-! ## The invariant under the host's updates of a state -/

theorem State.Inv.withMem {s : State} (h : s.Inv) {m : Memory} (hm : Memory.wf m = true) :
    State.Inv { s with mem := m } := ⟨hm, h.fault_iff, h.clocked⟩

/-- An engine outside Faulted may be halted. -/
theorem State.Inv.halt {s : State} (h : s.Inv) (hf : s.run ≠ .faulted) : State.Inv { s with run := .halted } :=
  ⟨h.mem_wf, iff_of_false (fun e => hf (h.fault_iff.mp e)) (by simp), by simp⟩

/-- An engine outside Faulted whose clock bit is set may run. -/
theorem State.Inv.resume {s : State} (h : s.Inv) (hf : s.run ≠ .faulted) (hc : s.clockOn = true) :
    State.Inv { s with run := .running } :=
  ⟨h.mem_wf, iff_of_false (fun e => hf (h.fault_iff.mp e)) (by simp), fun _ => hc⟩

theorem haltIfRunning_inv {s : State} (h : s.Inv) : (haltIfRunning s).Inv := by
  rw [haltIfRunning]
  split
  · next hrun => exact h.halt (by simp [hrun])
  · exact h

theorem resumeIfClocked_inv {s : State} (h : s.Inv) : (resumeIfClocked s).Inv := by
  rw [resumeIfClocked]
  split
  · next hrun => exact h.resume (by simp [hrun.1]) hrun.2
  · exact h

/-! ## Load and initialisation -/

theorem loaded_inv {s : State} (h : s.Inv) (base : Word) (bytes : List Byte) : (loaded base bytes s).1.Inv := by
  refine h.withMem (Memory.wf_writeSegment_of_room h.mem_wf ?_)
  rw [length_fittingWords]
  exact min_le_left _ _

/-- The firmware that initialisation installs is canonical memory, and initialisation sets the clock bit (R321). -/
theorem initialized_inv {s : State} (h : s.Inv) (hf : s.run ≠ .faulted) (hfits : firmwareFits s.cfg.trapFirmware = true) :
    (initialized s).Inv := by
  refine ⟨Memory.wf_writePairs h.mem_wf fun p hp => ?_, iff_of_false (fun e => hf (h.fault_iff.mp e)) (by simp [initialized]),
    fun _ => ?_⟩
  · exact (below_iff p.1).mp (of_decide_eq_true (List.all_eq_true.mp hfits p hp))
  · simp [State.clockOn, initialized]

theorem installAndStart_inv {s t : State} (h : s.Inv) (hf : s.run ≠ .faulted) (ht : installAndStart s = .next t) :
    t.Inv := by
  rw [installAndStart] at ht
  split at ht
  · next hfits => cases ht; exact initialized_inv h hf hfits
  · cases ht

/-- An initialisation that gives a next state was asked of an engine outside Faulted (R246). -/
theorem initializeEngine_next {s t : State} (h : initializeEngine s = .next t) :
    s.run ≠ .faulted ∧ installAndStart s = .next t := by
  unfold initializeEngine at h
  split at h
  · next hrun => exact ⟨by simp [hrun], h⟩
  · next hrun => exact ⟨by simp [hrun], h⟩
  · next hrun => exact ⟨by simp [hrun], h⟩
  · cases h
  · cases h

/-! ## The run loop and the observer -/

theorem stepWhileClocked_inv {n : Nat} {s t : State} (h : s.Inv) (ht : stepWhileClocked n s = .next t) : t.Inv := by
  induction n generalizing s with
  | zero => cases ht; exact h
  | succ n ih =>
    rw [stepWhileClocked] at ht
    split at ht
    · split at ht
      · next u hu => exact ih (everyStepKeepsTheInvariant s u h hu) ht
      · cases ht
      · cases ht
    · cases ht; exact h

theorem observeLoop_inv {cb : Nat → State → Bool} {n k : Nat} {s : State} {o : Observed} (h : s.Inv)
    (ho : observeLoop cb n k s = .next o) : o.state.Inv := by
  induction n generalizing k s with
  | zero => cases ho; exact h
  | succ n ih =>
    rw [observeLoop] at ho
    split at ho
    · cases ho; exact haltIfRunning_inv h
    · split at ho
      · split at ho
        · next u hu => exact ih (everyStepKeepsTheInvariant s u h hu) ho
        · cases ho
        · cases ho
      · cases ho; exact h

theorem runLoop_inv {n : Nat} {s t : State} (h : s.Inv) (ht : runLoop n s = .next t) : t.Inv := by
  rw [runLoop] at ht
  split at ht
  · next u hu => cases ht; exact haltIfRunning_inv (stepWhileClocked_inv (resumeIfClocked_inv h) hu)
  · cases ht
  · cases ht

/-- A run that gives a next state ran the loop. -/
theorem hostRun_next {n : Nat} {s t : State} (h : hostRun n s = .next t) : runLoop n s = .next t := by
  unfold hostRun at h
  split at h
  · cases h
  · exact h
  · exact h
  · cases h
  · cases h

/-- So did an observed run, from the engine as the run loop enters it. -/
theorem runWithObserver_next {cb : Nat → State → Bool} {n : Nat} {s : State} {o : Observed}
    (h : runWithObserver cb n s = .next o) : observeLoop cb n 0 (resumeIfClocked s) = .next o := by
  unfold runWithObserver at h
  split at h
  · cases h
  · exact h
  · exact h
  · cases h
  · cases h

/-- A stop that gives a next state halted a running engine (R250). -/
theorem hostStop_next {s t : State} (h : hostStop s = .next t) : s.run = .running ∧ t = { s with run := .halted } := by
  unfold hostStop at h
  split at h
  · next hrun => cases h; exact ⟨hrun, rfl⟩
  all_goals cases h

/-! ## The obligation -/

/-- Settles O44: each transaction's parts keep the invariant, and so does each step of the two loops. -/
theorem hostTransactionsKeepTheInvariant : Obligations.HostTransactionsKeepTheInvariant := by
  unfold Obligations.HostTransactionsKeepTheInvariant
  intro s t h
  refine ⟨fun base bytes short ht => ?_, fun ht => ?_, fun n ht => runLoop_inv h (hostRun_next ht),
    fun cb n o ho => observeLoop_inv (resumeIfClocked_inv h) (runWithObserver_next ho), fun ht => ?_⟩
  · obtain ⟨_, e⟩ := load_next ht
    cases e
    exact loaded_inv h base bytes
  · obtain ⟨hf, hstart⟩ := initializeEngine_next ht
    exact installAndStart_inv h hf hstart
  · obtain ⟨hrun, rfl⟩ := hostStop_next ht
    exact h.halt (by simp [hrun])

end Sys2Proof.Machine
end

section
/-! PROOFS. The codec's round trips: the dispatch on the family, decoding an encoding, encoding what was decoded, and the table
rows, with the obligations on them (spec/30_encoding.md R100 to R126). -/

namespace Sys2Proof

/-! ## The dispatch on the family (R101, R121) -/

theorem decode_of_family {w : Word} {f : BitVec 4} (h : w.extractLsb' 12 4 = f) : decode w = dispatchTable.get f.toFin w := by
  rw [decode, familyOf, h]

/-- The sixteen families, each with its decoder. -/
theorem decode_cases (w : Word) :
    (w.extractLsb' 12 4 = 0#4 ∧ decode w = decodeBr w) ∨ (w.extractLsb' 12 4 = 1#4 ∧ decode w = decodeAdd w) ∨
    (w.extractLsb' 12 4 = 2#4 ∧ decode w = decodeLd w) ∨ (w.extractLsb' 12 4 = 3#4 ∧ decode w = decodeSt w) ∨
    (w.extractLsb' 12 4 = 4#4 ∧ decode w = decodeJsr w) ∨ (w.extractLsb' 12 4 = 5#4 ∧ decode w = decodeAnd w) ∨
    (w.extractLsb' 12 4 = 6#4 ∧ decode w = decodeLdr w) ∨ (w.extractLsb' 12 4 = 7#4 ∧ decode w = decodeStr w) ∨
    (w.extractLsb' 12 4 = 8#4 ∧ decode w = decodeRti w) ∨ (w.extractLsb' 12 4 = 9#4 ∧ decode w = decodeNot w) ∨
    (w.extractLsb' 12 4 = 10#4 ∧ decode w = decodeLdi w) ∨ (w.extractLsb' 12 4 = 11#4 ∧ decode w = decodeSti w) ∨
    (w.extractLsb' 12 4 = 12#4 ∧ decode w = decodeJmp w) ∨ (w.extractLsb' 12 4 = 13#4 ∧ decode w = decodeReserved w) ∨
    (w.extractLsb' 12 4 = 14#4 ∧ decode w = decodeLea w) ∨ (w.extractLsb' 12 4 = 15#4 ∧ decode w = decodeTrap w) := by
  obtain ⟨⟨f⟩, h⟩ : ∃ f, w.extractLsb' 12 4 = f := ⟨_, rfl⟩
  rw [decode_of_family h, h]
  fin_cases f <;> simp [dispatchTable, Vector.get_eq_getElem]

/-! ## Single fields (R103 to R108) -/

@[simp] theorem toFin_regBits (r : RegIdx) : (regBits r).toFin = r := rfl

theorem ofInt_imm5Field (w : Word) : BitVec.ofInt 5 (imm5Field w) = w.extractLsb' 0 5 := BitVec.ofInt_toInt

theorem ofInt_off6Field (w : Word) : BitVec.ofInt 6 (off6Field w) = w.extractLsb' 0 6 := BitVec.ofInt_toInt

theorem ofInt_off9Field (w : Word) : BitVec.ofInt 9 (off9Field w) = w.extractLsb' 0 9 := BitVec.ofInt_toInt

theorem ofInt_off11Field (w : Word) : BitVec.ofInt 11 (off11Field w) = w.extractLsb' 0 11 := BitVec.ofInt_toInt

theorem ofNat_vectField (w : Word) : BitVec.ofNat 8 (vectField w) = w.extractLsb' 0 8 := by
  rw [vectField, BitVec.ofNat_toNat, BitVec.setWidth_eq]

theorem fits_vectField (w : Word) : fitsVector (vectField w) = true := decide_eq_true (w.extractLsb' 0 8).isLt

theorem toNat_ofNat_of_fits {v : Nat} (h : fitsVector v = true) : (BitVec.ofNat 8 v).toNat = v := by
  rw [BitVec.toNat_ofNat, Nat.mod_eq_of_lt (of_decide_eq_true h)]

theorem extractLsb'_one (w : Word) (k : Nat) : w.extractLsb' k 1 = BitVec.ofBool (w.getLsbD k) := by
  apply BitVec.eq_of_getLsbD_eq
  simp

theorem extractLsb'_one_eq_zero {w : Word} {k : Nat} (h : w.extractLsb' k 1 ≠ 1#1) : w.extractLsb' k 1 = 0#1 :=
  (BitVec.eq_zero_or_eq_one _).resolve_right h

/-! ## Decoding an encoding (R124) -/

/-- The top four bits of an encoding are those of the instruction's table row: the family lemmas, over all instructions. -/
theorem encode_family (i : Instr) : (encode i).extractLsb' 12 4 = i.tableRow.1.extractLsb' 12 4 := by
  cases i with
  | addReg d s t => exact Laws.Family.addReg d s t
  | addImm d s v => exact Laws.Family.addImm d s v
  | andReg d s t => exact Laws.Family.andReg d s t
  | andImm d s v => exact Laws.Family.andImm d s v
  | notReg d s => exact Laws.Family.notReg d s
  | br m off => exact Laws.Family.br m off
  | nop off => exact Laws.Family.nop off
  | jmp s => exact Laws.Family.jmp s
  | ret => exact Laws.Family.ret
  | jmpt s => exact Laws.Family.jmpt s
  | jsr off => exact Laws.Family.jsr off
  | jsrr s => exact Laws.Family.jsrr s
  | ld d off => exact Laws.Family.ld d off
  | ldi d off => exact Laws.Family.ldi d off
  | ldr d s off => exact Laws.Family.ldr d s off
  | lea d off => exact Laws.Family.lea d off
  | st r off => exact Laws.Family.st r off
  | sti r off => exact Laws.Family.sti r off
  | str r s off => exact Laws.Family.str r s off
  | trap v => exact Laws.Family.trap v
  | rti => exact Laws.Family.rti
  | reserved low => exact Laws.Family.reserved low

/-- The decoder of the instruction's family. -/
def decoderOf : Instr → Word → Except DecodeError Instr
  | .br _ _ | .nop _ => decodeBr
  | .addReg _ _ _ | .addImm _ _ _ => decodeAdd
  | .ld _ _ => decodeLd
  | .st _ _ => decodeSt
  | .jsr _ | .jsrr _ => decodeJsr
  | .andReg _ _ _ | .andImm _ _ _ => decodeAnd
  | .ldr _ _ _ => decodeLdr
  | .str _ _ _ => decodeStr
  | .rti => decodeRti
  | .notReg _ _ => decodeNot
  | .ldi _ _ => decodeLdi
  | .sti _ _ => decodeSti
  | .jmp _ | .ret | .jmpt _ => decodeJmp
  | .reserved _ => decodeReserved
  | .lea _ _ => decodeLea
  | .trap _ => decodeTrap

/-- The dispatch sends an encoding to the decoder of its instruction's family. -/
theorem decode_encode_eq (i : Instr) : decode (encode i) = decoderOf i (encode i) := by
  rw [decode_of_family (encode_family i)]
  cases i <;> simp [Instr.tableRow, decoderOf, dispatchTable, Vector.get_eq_getElem]

/-- The round trip up to spelling. In each group the fields of the layout are read back, and a number comes back because it
fits its field. -/
theorem decode_encode {i : Instr} (h : i.wellFormed = true) : decode (encode i) = .ok i.spelling := by
  rw [decode_encode_eq]
  cases i with
  | addReg | andReg | notReg | ret | jmpt | jsrr | rti | reserved =>
    simp (disch := decide) only [decoderOf, decodeAdd, decodeAnd, decodeNot, decodeJmp, decodeJsr, decodeRti, decodeReserved,
      encode, drField, baseField, sr2Field, BitVec.extractLsb'_append_eq_of_le, BitVec.extractLsb'_append_eq_of_add_le,
      BitVec.extractLsb'_eq_self]
    simp [Instr.spelling]
  | jmp s =>
    simp (disch := decide) only [decoderOf, decodeJmp, encode, baseField, BitVec.extractLsb'_append_eq_of_le,
      BitVec.extractLsb'_append_eq_of_add_le]
    by_cases hs : s = 7 <;> simp [Instr.spelling, hs]
  | addImm | andImm =>
    simp (disch := decide) only [decoderOf, decodeAdd, decodeAnd, encode, drField, baseField, imm5Field,
      BitVec.extractLsb'_append_eq_of_le, BitVec.extractLsb'_append_eq_of_add_le, BitVec.extractLsb'_eq_self,
      toInt_ofInt_of_fits _ h]
    simp [Instr.spelling]
  | ldr | str =>
    simp (disch := decide) only [decoderOf, decodeLdr, decodeStr, encode, drField, baseField, off6Field,
      BitVec.extractLsb'_append_eq_of_le, BitVec.extractLsb'_append_eq_of_add_le, BitVec.extractLsb'_eq_self,
      toInt_ofInt_of_fits _ h]
    simp [Instr.spelling]
  | ld | ldi | lea | st | sti | nop =>
    simp (disch := decide) only [decoderOf, decodeLd, decodeLdi, decodeLea, decodeSt, decodeSti, decodeBr, encode, drField,
      off9Field, BitVec.extractLsb'_append_eq_of_le, BitVec.extractLsb'_append_eq_of_add_le, BitVec.extractLsb'_eq_self,
      toInt_ofInt_of_fits _ h]
    simp [Instr.spelling]
  | br m off =>
    simp (disch := decide) only [decoderOf, decodeBr, encode, off9Field, BitVec.extractLsb'_append_eq_of_le,
      BitVec.extractLsb'_append_eq_of_add_le, BitVec.extractLsb'_eq_self, toInt_ofInt_of_fits _ h]
    by_cases hm : m = 0#3 <;> simp [Instr.spelling, hm]
  | jsr =>
    simp (disch := decide) only [decoderOf, decodeJsr, encode, off11Field, BitVec.extractLsb'_append_eq_of_le,
      BitVec.extractLsb'_append_eq_of_add_le, BitVec.extractLsb'_eq_self, toInt_ofInt_of_fits _ h]
    simp [Instr.spelling]
  | trap =>
    simp (disch := decide) only [decoderOf, decodeTrap, encode, vectField, BitVec.extractLsb'_append_eq_of_add_le,
      BitVec.extractLsb'_eq_self, toNat_ofNat_of_fits h]
    simp [Instr.spelling]

/-! ## Encoding what was decoded (R118) -/

section
variable {w : Word} {op : BitVec 4} {x y : BitVec 3}

/-! A word is its family and its fields, put together as the layouts of R102 do. -/

theorem layout_low12 {c : BitVec 12} (h : w.extractLsb' 12 4 = op) (hc : w.extractLsb' 0 12 = c) : op ++ c = w := by
  subst h hc
  simp only [BitVec.extractLsb'_append_extractLsb'_eq_extractLsb', BitVec.extractLsb'_eq_self]

theorem layout_low11 {b : BitVec 1} {c : BitVec 11} (h : w.extractLsb' 12 4 = op) (hb : w.extractLsb' 11 1 = b)
    (hc : w.extractLsb' 0 11 = c) : op ++ b ++ c = w := by
  subst h hb hc
  simp only [BitVec.extractLsb'_append_extractLsb'_eq_extractLsb', BitVec.extractLsb'_eq_self]

theorem layout_low9 {c : BitVec 9} (h : w.extractLsb' 12 4 = op) (hx : w.extractLsb' 9 3 = x)
    (hc : w.extractLsb' 0 9 = c) : op ++ x ++ c = w := by
  subst h hx hc
  simp only [BitVec.extractLsb'_append_extractLsb'_eq_extractLsb', BitVec.extractLsb'_eq_self]

theorem layout_low6 {c : BitVec 6} (h : w.extractLsb' 12 4 = op) (hx : w.extractLsb' 9 3 = x) (hy : w.extractLsb' 6 3 = y)
    (hc : w.extractLsb' 0 6 = c) : op ++ x ++ y ++ c = w := by
  subst h hx hy hc
  simp only [BitVec.extractLsb'_append_extractLsb'_eq_extractLsb', BitVec.extractLsb'_eq_self]

theorem layout_imm5 {b : BitVec 1} {c : BitVec 5} (h : w.extractLsb' 12 4 = op) (hx : w.extractLsb' 9 3 = x)
    (hy : w.extractLsb' 6 3 = y) (hb : w.extractLsb' 5 1 = b) (hc : w.extractLsb' 0 5 = c) : op ++ x ++ y ++ b ++ c = w := by
  subst h hx hy hb hc
  simp only [BitVec.extractLsb'_append_extractLsb'_eq_extractLsb', BitVec.extractLsb'_eq_self]

theorem layout_sr2 {z c : BitVec 3} (h : w.extractLsb' 12 4 = op) (hx : w.extractLsb' 9 3 = x) (hy : w.extractLsb' 6 3 = y)
    (hz : w.extractLsb' 3 3 = z) (hc : w.extractLsb' 0 3 = c) : op ++ x ++ y ++ z ++ c = w := by
  subst h hx hy hz hc
  simp only [BitVec.extractLsb'_append_extractLsb'_eq_extractLsb', BitVec.extractLsb'_eq_self]

/-- In the register form of ADD and AND, w[5:3] is zero (R113). -/
theorem operateBits_eq_zero (h5 : w.extractLsb' 5 1 ≠ 1#1) (h3 : w.extractLsb' 3 2 = 0#2) : w.extractLsb' 3 3 = 0#3 :=
  calc w.extractLsb' 3 3
    _ = w.extractLsb' 5 1 ++ w.extractLsb' 3 2 :=
      (BitVec.extractLsb'_append_extractLsb'_eq_extractLsb' (len₁ := 2) (len₂ := 1) rfl).symm
    _ = 0#3 := by rw [extractLsb'_one_eq_zero h5, h3]; rfl

/-- In the JMP family, w[5:0] is its table bit alone (R115). -/
theorem jumpBits_eq {b : BitVec 1} (h1 : w.extractLsb' 1 5 = 0#5) (h0 : w.extractLsb' 0 1 = b) :
    w.extractLsb' 0 6 = 0#5 ++ b :=
  calc w.extractLsb' 0 6
    _ = w.extractLsb' 1 5 ++ w.extractLsb' 0 1 :=
      (BitVec.extractLsb'_append_extractLsb'_eq_extractLsb' (len₁ := 1) (len₂ := 5) rfl).symm
    _ = 0#5 ++ b := by rw [h1, h0]

end

/-- The mask of JSRR clears w[10:9] and w[5:0]. -/
theorem and_jsrrMask (w : Word) :
    w &&& 0xF9C0 = w.extractLsb' 12 4 ++ w.extractLsb' 11 1 ++ 0#2 ++ w.extractLsb' 6 3 ++ 0#6 := by
  have hw : w.extractLsb' 12 4 ++ w.extractLsb' 11 1 ++ w.extractLsb' 9 2 ++ w.extractLsb' 6 3 ++ w.extractLsb' 0 6 = w := by
    simp only [BitVec.extractLsb'_append_extractLsb'_eq_extractLsb', BitVec.extractLsb'_eq_self]
  have hand := congrArg (· &&& BitVec.allOnes 4 ++ BitVec.allOnes 1 ++ 0#2 ++ BitVec.allOnes 3 ++ 0#6) hw
  simp only [BitVec.and_append, BitVec.and_zero, BitVec.and_allOnes] at hand
  exact hand.symm

/-- The mask of TRAP clears w[11:8]. -/
theorem and_trapMask (w : Word) : w &&& 0xF0FF = w.extractLsb' 12 4 ++ 0#4 ++ w.extractLsb' 0 8 := by
  have hw : w.extractLsb' 12 4 ++ w.extractLsb' 8 4 ++ w.extractLsb' 0 8 = w := by
    simp only [BitVec.extractLsb'_append_extractLsb'_eq_extractLsb', BitVec.extractLsb'_eq_self]
  have hand := congrArg (· &&& BitVec.allOnes 4 ++ 0#4 ++ BitVec.allOnes 8) hw
  simp only [BitVec.and_append, BitVec.and_zero, BitVec.and_allOnes] at hand
  exact hand.symm

/-- The bits of its word that an instruction was decoded from: all but those the decoder ignores (R118). -/
def readBits : Instr → Word
  | .jsrr _ => 0xF9C0
  | .trap _ => 0xF0FF
  | _ => BitVec.allOnes 16

/-- An encoding that gives the whole word back, where no bit is ignored. -/
theorem eq_and_readBits {w : Word} {i : Instr} (hi : readBits i = BitVec.allOnes 16) (h : encode i = w) :
    encode i = w &&& readBits i := by
  rw [hi, BitVec.and_allOnes, h]

/-- Decoding gives operands within their fields, and loses no bit but the ignored ones. -/
theorem encode_of_decode {w : Word} {i : Instr} (hd : decode w = .ok i) :
    i.wellFormed = true ∧ encode i = w &&& readBits i := by
  have h5 := (ofInt_imm5Field w).symm
  have h6 := (ofInt_off6Field w).symm
  have h9 := (ofInt_off9Field w).symm
  rcases decode_cases w with ⟨h, e⟩ | ⟨h, e⟩ | ⟨h, e⟩ | ⟨h, e⟩ | ⟨h, e⟩ | ⟨h, e⟩ | ⟨h, e⟩ | ⟨h, e⟩ | ⟨h, e⟩ | ⟨h, e⟩ |
    ⟨h, e⟩ | ⟨h, e⟩ | ⟨h, e⟩ | ⟨h, e⟩ | ⟨h, e⟩ | ⟨h, e⟩ <;> rw [e] at hd
  · rw [decodeBr] at hd
    split_ifs at hd with hx <;> cases hd
    · exact ⟨fits_toInt _, eq_and_readBits rfl (layout_low9 h hx h9)⟩
    · exact ⟨fits_toInt _, eq_and_readBits rfl (layout_low9 h rfl h9)⟩
  · rw [decodeAdd] at hd
    split_ifs at hd with hb hz <;> cases hd
    · exact ⟨fits_toInt _, eq_and_readBits rfl (layout_imm5 h rfl rfl hb h5)⟩
    · exact ⟨rfl, eq_and_readBits rfl (layout_sr2 h rfl rfl (operateBits_eq_zero hb hz) rfl)⟩
  · cases hd; exact ⟨fits_toInt _, eq_and_readBits rfl (layout_low9 h rfl h9)⟩
  · cases hd; exact ⟨fits_toInt _, eq_and_readBits rfl (layout_low9 h rfl h9)⟩
  · rw [decodeJsr] at hd
    split_ifs at hd with hb <;> cases hd
    · exact ⟨fits_toInt _, eq_and_readBits rfl (layout_low11 h hb (ofInt_off11Field w).symm)⟩
    · refine ⟨rfl, ?_⟩
      rw [readBits, and_jsrrMask, h, extractLsb'_one_eq_zero hb]
      rfl
  · rw [decodeAnd] at hd
    split_ifs at hd with hb hz <;> cases hd
    · exact ⟨fits_toInt _, eq_and_readBits rfl (layout_imm5 h rfl rfl hb h5)⟩
    · exact ⟨rfl, eq_and_readBits rfl (layout_sr2 h rfl rfl (operateBits_eq_zero hb hz) rfl)⟩
  · cases hd; exact ⟨fits_toInt _, eq_and_readBits rfl (layout_low6 h rfl rfl h6)⟩
  · cases hd; exact ⟨fits_toInt _, eq_and_readBits rfl (layout_low6 h rfl rfl h6)⟩
  · rw [decodeRti] at hd
    split_ifs at hd with h0
    cases hd; exact ⟨rfl, eq_and_readBits rfl (layout_low12 h h0)⟩
  · rw [decodeNot] at hd
    split_ifs at hd with h0
    cases hd; exact ⟨rfl, eq_and_readBits rfl (layout_low6 h rfl rfl h0)⟩
  · cases hd; exact ⟨fits_toInt _, eq_and_readBits rfl (layout_low9 h rfl h9)⟩
  · cases hd; exact ⟨fits_toInt _, eq_and_readBits rfl (layout_low9 h rfl h9)⟩
  · rw [decodeJmp] at hd
    split_ifs at hd with hz h0 hs <;> cases hd
    · exact ⟨rfl, eq_and_readBits rfl (layout_low6 h hz.1 rfl (jumpBits_eq hz.2 h0))⟩
    · have hy : w.extractLsb' 6 3 = 7#3 := congrArg regBits hs
      exact ⟨rfl, eq_and_readBits rfl (layout_low6 h hz.1 hy (jumpBits_eq hz.2 (extractLsb'_one_eq_zero h0)))⟩
    · exact ⟨rfl, eq_and_readBits rfl (layout_low6 h hz.1 rfl (jumpBits_eq hz.2 (extractLsb'_one_eq_zero h0)))⟩
  · cases hd; exact ⟨rfl, eq_and_readBits rfl (layout_low12 h rfl)⟩
  · cases hd; exact ⟨fits_toInt _, eq_and_readBits rfl (layout_low9 h rfl h9)⟩
  · cases hd
    refine ⟨fits_vectField w, ?_⟩
    rw [readBits, and_trapMask, encode, ofNat_vectField, h]

/-! ## The table rows (R102) -/

/-- Every encoding matches its row: the mask keeps constant bits of the layout only. -/
theorem encode_matches (i : Instr) : encode i &&& i.tableRow.2 = i.tableRow.1 := by
  cases i with
  | addReg | andReg =>
    change (_ ++ _ ++ _ ++ _ ++ _ : BitVec (4 + 3 + 3 + 3 + 3)) &&& (15#4 ++ 0#3 ++ 0#3 ++ 7#3 ++ 0#3) = _
    simp only [BitVec.and_append, BitVec.and_zero]
    rfl
  | addImm | andImm =>
    change (_ ++ _ ++ _ ++ _ ++ _ : BitVec (4 + 3 + 3 + 1 + 5)) &&& (15#4 ++ 0#3 ++ 0#3 ++ 1#1 ++ 0#5) = _
    simp only [BitVec.and_append, BitVec.and_zero]
    rfl
  | notReg =>
    change (_ ++ _ ++ _ ++ _ : BitVec (4 + 3 + 3 + 6)) &&& (15#4 ++ 0#3 ++ 0#3 ++ 63#6) = _
    simp only [BitVec.and_append, BitVec.and_zero]
    rfl
  | jmp | jmpt =>
    change (_ ++ _ ++ _ ++ _ : BitVec (4 + 3 + 3 + 6)) &&& (15#4 ++ 7#3 ++ 0#3 ++ 63#6) = _
    simp only [BitVec.and_append, BitVec.and_zero]
    rfl
  | jsrr =>
    change (_ ++ _ ++ _ ++ _ : BitVec (4 + 3 + 3 + 6)) &&& (15#4 ++ 4#3 ++ 0#3 ++ 0#6) = _
    simp only [BitVec.and_append, BitVec.and_zero]
    rfl
  | ldr | str =>
    change (_ ++ _ ++ _ ++ _ : BitVec (4 + 3 + 3 + 6)) &&& (15#4 ++ 0#3 ++ 0#3 ++ 0#6) = _
    simp only [BitVec.and_append, BitVec.and_zero]
    rfl
  | br | ld | ldi | lea | st | sti =>
    change (_ ++ _ ++ _ : BitVec (4 + 3 + 9)) &&& (15#4 ++ 0#3 ++ 0#9) = _
    simp only [BitVec.and_append, BitVec.and_zero]
    rfl
  | nop =>
    change (_ ++ _ ++ _ : BitVec (4 + 3 + 9)) &&& (15#4 ++ 7#3 ++ 0#9) = _
    simp only [BitVec.and_append, BitVec.and_zero]
    rfl
  | jsr =>
    change (_ ++ _ ++ _ : BitVec (4 + 1 + 11)) &&& (15#4 ++ 1#1 ++ 0#11) = _
    simp only [BitVec.and_append, BitVec.and_zero]
    rfl
  | trap =>
    change (_ ++ _ ++ _ : BitVec (4 + 4 + 8)) &&& (15#4 ++ 0#4 ++ 0#8) = _
    simp only [BitVec.and_append, BitVec.and_zero]
    rfl
  | reserved =>
    change (_ ++ _ : BitVec (4 + 12)) &&& (15#4 ++ 0#12) = _
    simp only [BitVec.and_append, BitVec.and_zero]
    rfl
  | ret | rti => rfl

/-- The bits a row constrains are among those its instruction is decoded from. -/
theorem readBits_and_mask (i : Instr) : readBits i &&& i.tableRow.2 = i.tableRow.2 := by
  cases i with
  | jsrr | trap => rw [readBits, Instr.tableRow]; rfl
  | _ => exact BitVec.allOnes_and

/-! ## The obligations -/

/-- The spelling changes BR with an empty mask and JMP R7 only. -/
theorem spelling_eq {i : Instr} (hbr : ∀ off, i ≠ .br 0 off) (hjmp : i ≠ .jmp 7) : i.spelling = i := by
  cases i with
  | br m off => exact if_neg fun hm => hbr off (by rw [hm]; rfl)
  | jmp s => exact if_neg fun hs => hjmp (by rw [hs])
  | _ => rfl

/-- Settles O2: the round trip gives the decoder's spelling, which is the instruction but for the two identified ones. -/
theorem decodeOfEncodeGivesTheInstruction : Obligations.DecodeOfEncodeGivesTheInstruction := by
  unfold Obligations.DecodeOfEncodeGivesTheInstruction
  intro i hi
  have h := decode_encode hi
  refine ⟨fun hbr hjmp => ?_, ?_, ?_⟩
  · rw [h, spelling_eq hbr hjmp]
  · rintro off rfl
    exact h
  · rintro rfl
    exact h

/-- Settles O3, from what the encoding keeps of a decoded word. -/
theorem encodeOfDecodeClearsTheIgnoredBits : Obligations.EncodeOfDecodeClearsTheIgnoredBits := by
  unfold Obligations.EncodeOfDecodeClearsTheIgnoredBits
  intro w i hd
  obtain ⟨hi, he⟩ := encode_of_decode hd
  refine ⟨hi, he.trans ?_⟩
  cases i with
  | jsrr | trap => rfl
  | _ => exact BitVec.and_allOnes

/-- Settles O6: encodings match their rows, and the bits a row constrains survive decoding. -/
theorem wordsMatchTheirTableRows : Obligations.WordsMatchTheirTableRows := by
  unfold Obligations.WordsMatchTheirTableRows
  refine ⟨fun w i hd => ?_, encode_matches⟩
  calc w &&& i.tableRow.2
    _ = (w &&& readBits i) &&& i.tableRow.2 := by rw [BitVec.and_assoc, readBits_and_mask]
    _ = i.tableRow.1 := by rw [← (encode_of_decode hd).2, encode_matches]

/-- Settles O1: fourteen closed words, decoded. -/
theorem wordsFromTheLayoutsDecode : Obligations.WordsFromTheLayoutsDecode := by
  unfold Obligations.WordsFromTheLayoutsDecode
  decide

end Sys2Proof
end

section
/-! PROOFS. Signed fields and the encodings as bit formulas, with the obligations on them (spec/00_scope.md R9,
spec/30_encoding.md R104 to R108, R122 to R125). -/

namespace Sys2Proof

open Sys2Proof.Machine

/-! ## Signed fields (R9, R125) -/

theorem ofInt_eq_setWidth {n m : Nat} (h : n ≤ m) (v : Int) : BitVec.ofInt n v = (BitVec.ofInt m v).setWidth n := by
  apply BitVec.eq_of_toNat_eq
  have hdvd : (2 ^ n : Int) ∣ 2 ^ m := pow_dvd_pow 2 h
  have hpos (k : Nat) : (0 : Int) ≤ v % 2 ^ k := Int.emod_nonneg _ (by positivity)
  rw [BitVec.toNat_setWidth, BitVec.toNat_ofInt, BitVec.toNat_ofInt]
  zify
  simp [hpos, Int.emod_emod_of_dvd v hdvd]

theorem getLsbD_ofInt_of_lt {n m i : Nat} (h : n ≤ m) (hi : i < n) (v : Int) :
    (BitVec.ofInt n v).getLsbD i = (BitVec.ofInt m v).getLsbD i := by
  rw [ofInt_eq_setWidth h, BitVec.getLsbD_setWidth, decide_eq_true hi, Bool.true_and]

theorem getLsbD_lowMask {n i : Nat} (hi : i < 16) : (BitVec.ofNat 16 (2 ^ n - 1)).getLsbD i = decide (i < n) := by
  rw [BitVec.getLsbD_ofNat, decide_eq_true hi, Bool.true_and, Nat.testBit_two_pow_sub_one]

/-- A field's bits in place are the operand's, masked to the field (R122). -/
theorem setWidth_ofInt {n : Nat} (h : n ≤ 16) (v : Int) :
    (BitVec.ofInt n v).setWidth 16 = BitVec.ofInt 16 v &&& BitVec.ofNat 16 (2 ^ n - 1) := by
  apply BitVec.eq_of_getLsbD_eq
  intro i hi
  rw [ofInt_eq_setWidth h, BitVec.getLsbD_setWidth, BitVec.getLsbD_setWidth, BitVec.getLsbD_and, getLsbD_lowMask hi,
    decide_eq_true hi, Bool.true_and, Bool.and_comm]

theorem sext_toInt {n : Nat} (h : n ≤ 16) (v : Int) : (sext n v).toInt = (BitVec.ofInt n v).toInt :=
  BitVec.toInt_signExtend_of_le h

/-- R9 in terms of masks: the low bits, under copies of the sign bit. -/
theorem sext_eq_masked {n : Nat} (hn : 0 < n) (h : n ≤ 16) (v : Int) :
    sext n v = (BitVec.ofInt 16 v &&& BitVec.ofNat 16 (2 ^ n - 1)) |||
      (if (BitVec.ofInt 16 v).getLsbD (n - 1) then ~~~ BitVec.ofNat 16 (2 ^ n - 1) else 0) := by
  apply BitVec.eq_of_getLsbD_eq
  intro i hi
  have hsign : (BitVec.ofInt n v).msb = (BitVec.ofInt 16 v).getLsbD (n - 1) := by
    rw [BitVec.msb_eq_getLsbD_last, getLsbD_ofInt_of_lt h (by omega)]
  rw [sext, BitVec.getLsbD_signExtend, decide_eq_true hi, Bool.true_and, hsign, BitVec.getLsbD_or, BitVec.getLsbD_and,
    getLsbD_lowMask hi]
  by_cases hin : i < n
  · rw [if_pos hin, getLsbD_ofInt_of_lt h hin]
    split
    · simp [hin, hi, BitVec.getLsbD_not, getLsbD_lowMask hi, -BitVec.getLsbD_eq_getElem]
    · simp [hin]
  · rw [if_neg hin]
    split
    · next hs => simp [hs, hin, hi, BitVec.getLsbD_not, getLsbD_lowMask hi, -BitVec.getLsbD_eq_getElem]
    · next hs => simp [hs, hin]

/-! ## The encodings as bit formulas (R122, R123): each field in place is its bits, shifted -/

theorem setWidth_regBits (r : RegIdx) : (regBits r).setWidth 16 = BitVec.ofNat 16 r.val := by
  apply BitVec.eq_of_toNat_eq
  rw [BitVec.toNat_setWidth, BitVec.toNat_ofNat, regBits, BitVec.toNat_ofFin]

theorem setWidth_vector (v : Nat) : (BitVec.ofNat 8 v).setWidth 16 = BitVec.ofNat 16 v &&& 0xFF := by
  rw [← BitVec.ofInt_natCast, setWidth_ofInt (by decide), BitVec.ofInt_natCast]
  rfl

section
variable (op : BitVec 4) (x y : BitVec 3) (d s t : RegIdx) (v : Int)

theorem formula_sr2 : (op ++ regBits d ++ regBits s ++ 0b000#3 ++ regBits t : Word) =
    op.setWidth 16 <<< 12 ||| BitVec.ofNat 16 d.val <<< 9 ||| BitVec.ofNat 16 s.val <<< 6 ||| BitVec.ofNat 16 t.val := by
  refine (BitVec.setWidth_eq (_ : Word)).symm.trans ?_
  simp only [BitVec.setWidth_append_eq_shiftLeft_setWidth_or, BitVec.shiftLeft_or_distrib, ← BitVec.shiftLeft_add,
    setWidth_regBits]
  simp

theorem formula_imm5 : (op ++ regBits d ++ regBits s ++ 1#1 ++ BitVec.ofInt 5 v : Word) =
    (op.setWidth 16 <<< 12 ||| 0x20) ||| BitVec.ofNat 16 d.val <<< 9 ||| BitVec.ofNat 16 s.val <<< 6 |||
      (BitVec.ofInt 16 v &&& 0x1F) := by
  refine (BitVec.setWidth_eq (_ : Word)).symm.trans ?_
  simp only [BitVec.setWidth_append_eq_shiftLeft_setWidth_or, BitVec.shiftLeft_or_distrib, ← BitVec.shiftLeft_add,
    setWidth_regBits, setWidth_ofInt (n := 5) (by decide)]
  rw [show (BitVec.setWidth 16 1#1 <<< 5 : Word) = 0x20 from rfl]
  ac_rfl

theorem formula_low6 (c : BitVec 6) : (op ++ x ++ y ++ c : Word) =
    op.setWidth 16 <<< 12 ||| x.setWidth 16 <<< 9 ||| y.setWidth 16 <<< 6 ||| c.setWidth 16 := by
  refine (BitVec.setWidth_eq (_ : Word)).symm.trans ?_
  simp only [BitVec.setWidth_append_eq_shiftLeft_setWidth_or, BitVec.shiftLeft_or_distrib, ← BitVec.shiftLeft_add]

theorem formula_off6 : (op ++ regBits d ++ regBits s ++ BitVec.ofInt 6 v : Word) =
    op.setWidth 16 <<< 12 ||| BitVec.ofNat 16 d.val <<< 9 ||| BitVec.ofNat 16 s.val <<< 6 |||
      (BitVec.ofInt 16 v &&& 0x3F) := by
  rw [formula_low6, setWidth_regBits, setWidth_regBits, setWidth_ofInt (by decide)]
  rfl

theorem formula_twoRegs (c : BitVec 6) : (op ++ regBits d ++ regBits s ++ c : Word) =
    (op.setWidth 16 <<< 12 ||| c.setWidth 16) ||| BitVec.ofNat 16 d.val <<< 9 ||| BitVec.ofNat 16 s.val <<< 6 := by
  rw [formula_low6, setWidth_regBits, setWidth_regBits]
  ac_rfl

theorem formula_base (c : BitVec 6) : (op ++ 0b000#3 ++ regBits s ++ c : Word) =
    (op.setWidth 16 <<< 12 ||| c.setWidth 16) ||| BitVec.ofNat 16 s.val <<< 6 := by
  rw [formula_low6, setWidth_regBits, BitVec.setWidth_zero, BitVec.zero_shiftLeft, BitVec.or_zero]
  ac_rfl

theorem formula_off9 : (op ++ x ++ BitVec.ofInt 9 v : Word) =
    op.setWidth 16 <<< 12 ||| x.setWidth 16 <<< 9 ||| (BitVec.ofInt 16 v &&& 0x1FF) := by
  refine (BitVec.setWidth_eq (_ : Word)).symm.trans ?_
  simp only [BitVec.setWidth_append_eq_shiftLeft_setWidth_or, BitVec.shiftLeft_or_distrib, ← BitVec.shiftLeft_add,
    setWidth_ofInt (n := 9) (by decide)]
  rfl

theorem formula_drOff9 : (op ++ regBits d ++ BitVec.ofInt 9 v : Word) =
    op.setWidth 16 <<< 12 ||| BitVec.ofNat 16 d.val <<< 9 ||| (BitVec.ofInt 16 v &&& 0x1FF) := by
  rw [formula_off9, setWidth_regBits]

theorem formula_off11 : (op ++ 1#1 ++ BitVec.ofInt 11 v : Word) =
    (op.setWidth 16 <<< 12 ||| 0x800) ||| (BitVec.ofInt 16 v &&& 0x7FF) := by
  refine (BitVec.setWidth_eq (_ : Word)).symm.trans ?_
  simp only [BitVec.setWidth_append_eq_shiftLeft_setWidth_or, BitVec.shiftLeft_or_distrib, ← BitVec.shiftLeft_add,
    setWidth_ofInt (n := 11) (by decide)]
  rfl

theorem formula_vect (u : Nat) : (op ++ 0b0000#4 ++ BitVec.ofNat 8 u : Word) =
    op.setWidth 16 <<< 12 ||| (BitVec.ofNat 16 u &&& 0xFF) := by
  refine (BitVec.setWidth_eq (_ : Word)).symm.trans ?_
  simp only [BitVec.setWidth_append_eq_shiftLeft_setWidth_or, ← BitVec.shiftLeft_add, setWidth_vector, BitVec.setWidth_zero,
    BitVec.or_zero]

theorem formula_low12 (c : BitVec 12) : (op ++ c : Word) = op.setWidth 16 <<< 12 ||| c.setWidth 16 := by
  refine (BitVec.setWidth_eq (_ : Word)).symm.trans ?_
  simp only [BitVec.setWidth_append_eq_shiftLeft_setWidth_or]

end

/-! ## The obligations -/

/-- Settles O4: the field holds the numbers of its range, and what it gives back always lies in that range. -/
theorem signedFieldsGiveBackExactlyTheirRange : Obligations.SignedFieldsGiveBackExactlyTheirRange := by
  unfold Obligations.SignedFieldsGiveBackExactlyTheirRange
  intro n hn v
  have hpos : 0 < n ∧ n ≤ 16 := by
    simp only [List.mem_cons, List.not_mem_nil, or_false] at hn
    omega
  have hfits : fitsSigned n v = true ↔ -(2 ^ (n - 1) : Int) ≤ v ∧ v < 2 ^ (n - 1) := by
    simp [fitsSigned]
  rw [← hfits, sext_toInt hpos.2]
  exact ⟨toInt_ofInt_of_fits hpos.1, fun h => ⟨fun e => h (e ▸ fits_toInt _), sext_eq_masked hpos.1 hpos.2 v⟩⟩

/-- Settles O5: each encoder's layout has its bit formula; the three encoders without operands are closed words. -/
theorem encodersAreTheBitFormulas : Obligations.EncodersAreTheBitFormulas := by
  unfold Obligations.EncodersAreTheBitFormulas
  have hbr (m : BitVec 3) (v : Int) : encode (.br m v) = m.setWidth 16 <<< 9 ||| (BitVec.ofInt 16 v &&& 0x1FF) :=
    (formula_off9 0b0000#4 m v).trans (by simp)
  exact ⟨formula_sr2 0b0001#4, formula_imm5 0b0001#4, formula_sr2 0b0101#4, formula_imm5 0b0101#4, hbr, rfl,
    fun s => formula_base 0b1100#4 s 0b000000#6, fun s => formula_base 0b1100#4 s 0b000001#6, rfl,
    formula_off11 0b0100#4, fun s => formula_base 0b0100#4 s 0b000000#6, formula_drOff9 0b0010#4, formula_drOff9 0b1010#4,
    formula_off6 0b0110#4, formula_drOff9 0b1110#4, fun d s => formula_twoRegs 0b1001#4 d s 0b111111#6, rfl,
    formula_drOff9 0b0011#4, formula_drOff9 0b1011#4, formula_off6 0b0111#4, formula_vect 0b1111#4⟩

end Sys2Proof
end

section
/-! PROOFS. Which words fault, and that an enabled step always answers: the obligations on the step
(spec/43_system.md R224, spec/50_execution_cycle.md R241, spec/60_exceptions.md R280, R281). -/

namespace Sys2Proof.Machine

/-! ## The words that fault (R280) -/

theorem decodeFaults_of_error {w : Word} {e : DecodeError} (h : decode w = .error e) : decodeFaults w = true := by
  rw [decodeFaults, h]

theorem decodeFaults_of_ok {w : Word} {i : Instr} (h : decode w = .ok i) : decodeFaults w = i.isReserved := by
  rw [decodeFaults, h]

/-- R280: the words that raise a decode fault. -/
theorem decodeFaults_iff (w : Word) : decodeFaults w = true ↔
      ((w.extractLsb' 12 4 = 0b0001 ∨ w.extractLsb' 12 4 = 0b0101) ∧ w.getLsbD 5 = false ∧ w.extractLsb' 3 2 ≠ 0) ∨
      (w.extractLsb' 12 4 = 0b1001 ∧ w.extractLsb' 0 6 ≠ 0b111111) ∨
      (w.extractLsb' 12 4 = 0b1100 ∧ (w.extractLsb' 9 3 ≠ 0 ∨ w.extractLsb' 1 5 ≠ 0)) ∨
      (w.extractLsb' 12 4 = 0b1000 ∧ w.extractLsb' 0 12 ≠ 0) ∨
      w.extractLsb' 12 4 = 0b1101 := by
  rcases decode_cases w with ⟨h, e⟩ | ⟨h, e⟩ | ⟨h, e⟩ | ⟨h, e⟩ | ⟨h, e⟩ | ⟨h, e⟩ | ⟨h, e⟩ | ⟨h, e⟩ | ⟨h, e⟩ | ⟨h, e⟩ |
    ⟨h, e⟩ | ⟨h, e⟩ | ⟨h, e⟩ | ⟨h, e⟩ | ⟨h, e⟩ | ⟨h, e⟩ <;> rw [decodeFaults, e, h]
  · rw [decodeBr]
    split_ifs <;> simp [Instr.isReserved]
  · rw [decodeAdd, extractLsb'_one]
    cases w.getLsbD 5 <;> by_cases h3 : w.extractLsb' 3 2 = 0#2 <;> simp [h3, Instr.isReserved]
  · simp [decodeLd, Instr.isReserved]
  · simp [decodeSt, Instr.isReserved]
  · rw [decodeJsr]
    split_ifs <;> simp [Instr.isReserved]
  · rw [decodeAnd, extractLsb'_one]
    cases w.getLsbD 5 <;> by_cases h3 : w.extractLsb' 3 2 = 0#2 <;> simp [h3, Instr.isReserved]
  · simp [decodeLdr, Instr.isReserved]
  · simp [decodeStr, Instr.isReserved]
  · rw [decodeRti]
    split_ifs with h0 <;> simp [h0, Instr.isReserved]
  · rw [decodeNot]
    split_ifs with h0 <;> simp [h0, Instr.isReserved]
  · simp [decodeLdi, Instr.isReserved]
  · simp [decodeSti, Instr.isReserved]
  · rw [decodeJmp, ← not_and_or]
    split_ifs with hz <;> simp [hz, Instr.isReserved]
  · simp [decodeReserved, Instr.isReserved]
  · simp [decodeLea, Instr.isReserved]
  · simp [decodeTrap, Instr.isReserved]

/-! ## How a step ends in Faulted -/

theorem retire_run_faulted_iff (u : State) : (retire u).run = .faulted ↔ u.run = .faulted := by
  by_cases h : u.run = .faulted ∨ u.run = .refused
  · rw [retire_of_stopped h]
  · obtain ⟨hf, hr⟩ := not_or.mp h
    rw [retire_of_going hf hr]
    dsimp only
    split_ifs <;> simp [hf]

/-- A step ends in Faulted exactly when it fetched a word that raises a decode fault. -/
theorem step_run_faulted_iff {s t : State} (h : step s = .next t) :
    t.run = .faulted ↔ decodeFaults (fetch s).1 = true := by
  obtain ⟨hs, hc⟩ := step_cases h
  rcases cycle_cases hc with ⟨⟨e, hd⟩, rfl⟩ | ⟨i, u, hd, hu, rfl⟩
  · exact iff_of_true rfl (decodeFaults_of_error hd)
  · have hg : (emitTrace i (fetch s).2).enabled = true := by simpa [State.enabled] using hs
    rw [retire_run_faulted_iff, exec_run_faulted_iff hg hu, decodeFaults_of_ok hd]

/-! ## The obligations -/

/-- Settles O7: a step ends in Faulted exactly when the fetched word raises a decode fault. -/
theorem stepFaultsExactlyOnIllFormedWords : Obligations.StepFaultsExactlyOnIllFormedWords := by
  unfold Obligations.StepFaultsExactlyOnIllFormedWords
  intro s t _ h
  exact (step_run_faulted_iff h).trans (decodeFaults_iff (fetch s).1)

/-- Settles O39: a decode fault is a next state, and so is the end of any operation. -/
theorem everyEnabledStepGivesANextState : Obligations.EveryEnabledStepGivesANextState := by
  unfold Obligations.EveryEnabledStepGivesANextState
  intro s hs
  cases hd : decode (fetch s).1 with
  | error e => exact ⟨_, step_of_decode_error hs hd⟩
  | ok i =>
    obtain ⟨u, hu⟩ := exec_next i (emitTrace i (fetch s).2)
    exact ⟨_, step_of_decode_ok hs hd hu⟩

/-- Settles O36: the operation is `takeDecodeFault`, and the word is the family and the low bits put together. -/
theorem reservedWordsTakeTheDecodeFault : Obligations.ReservedWordsTakeTheDecodeFault := by
  unfold Obligations.ReservedWordsTakeTheDecodeFault
  intro low s
  have hw : encode (.reserved low) = 0xD000 ||| low.setWidth 16 := formula_low12 13#4 low
  refine ⟨takeDecodeFault (s.pc - 1) (encode (.reserved low)) s, rfl, ?_, rfl, rfl, rfl, fun _ => rfl, fun _ => rfl,
    ⟨rfl, rfl, rfl, rfl, rfl, rfl⟩, rfl, rfl, rfl⟩
  rw [← hw]
  rfl

end Sys2Proof.Machine
end

section
/-! PROOFS. The operate instructions: what writing a result leaves behind, said once for every result, then the three
obligations on ADD, AND and NOT (spec/40_operate.md R140 to R144). -/

namespace Sys2Proof.Machine

/-! ## Writing a result (R29, R30) -/

@[simp] theorem State.reg_writeResult_self (s : State) (dr : RegIdx) (v : Word) : (s.writeResult dr v).reg dr = v := by
  rw [State.reg_writeResult, if_pos rfl]

/-- Writing a result puts it in DR, sets the flags of it, and changes nothing else. -/
theorem resultWritten_writeResult (dr : RegIdx) (v : Word) (s : State) : resultWritten dr v s (s.writeResult dr v) := by
  have hregs : sameRegsExcept [dr] s (s.writeResult dr v) := fun r hr => by
    rw [State.reg_writeResult, if_neg (List.ne_of_not_mem_cons hr)]
  have habove : samePsrAboveFlags s (s.writeResult dr v) := fun n hn => by
    rw [State.writeResult_psr, getLsbD_withNzp, if_neg (by omega)]
  have houtside : sameOutside s (s.writeResult dr v) :=
    ⟨fun _ => rfl, ⟨rfl, rfl, rfl, rfl, rfl⟩, ⟨rfl, rfl, rfl, rfl, rfl, rfl⟩⟩
  exact ⟨s.reg_writeResult_self dr v, psrNzp_withNzp s.psr (flagsOf v), hregs, habove, rfl, houtside⟩

/-- The N flag of a word is its bit 15 (R29, D31). -/
theorem flagsOf_getLsbD_two (v : Word) : (flagsOf v).getLsbD 2 = v.getLsbD 15 := by
  rw [flagsOf]
  split_ifs with hn hz
  · rw [hn]; rfl
  · rw [Bool.eq_false_of_not_eq_true hn]; rfl
  · rw [Bool.eq_false_of_not_eq_true hn]; rfl

theorem psrN_writeResult (s : State) (dr : RegIdx) (v : Word) : psrN (s.writeResult dr v).psr = v.getLsbD 15 := by
  rw [State.writeResult_psr, psrN, getLsbD_withNzp, if_pos (by omega), flagsOf_getLsbD_two]

/-- N after a conjunction is written: bit 15 of both operands (R142). -/
theorem psrN_writeResult_and (s : State) (dr : RegIdx) (a b : Word) :
    psrN (s.writeResult dr (a &&& b)).psr = (a.getLsbD 15 && b.getLsbD 15) := by
  rw [psrN_writeResult, BitVec.getLsbD_and]

/-! ## The obligations -/

/-- Settles O18: both forms write one result, and a 16-bit sum wraps modulo 2^16. -/
theorem addWritesTheWrappedSum : Obligations.AddWritesTheWrappedSum := by
  unfold Obligations.AddWritesTheWrappedSum
  intro dr sr1 s
  refine ⟨fun sr2 => ⟨_, rfl, resultWritten_writeResult dr _ s, ?_⟩, fun imm => ⟨_, rfl, resultWritten_writeResult dr _ s⟩⟩
  rw [State.reg_writeResult_self, BitVec.toNat_add]

/-- Settles O19: both forms write one result, whose bit 15 is the conjunction of the operands' bits 15. -/
theorem andWritesTheConjunction : Obligations.AndWritesTheConjunction := by
  unfold Obligations.AndWritesTheConjunction
  intro dr sr1 s
  exact ⟨fun sr2 => ⟨_, rfl, resultWritten_writeResult dr _ s, psrN_writeResult_and s dr _ _⟩,
    fun imm => ⟨_, rfl, resultWritten_writeResult dr _ s, psrN_writeResult_and s dr _ _⟩⟩

/-- Settles O20: the complement is the result written, and two's complement negation is the complement plus 1. -/
theorem notWritesTheComplement : Obligations.NotWritesTheComplement := by
  unfold Obligations.NotWritesTheComplement
  intro dr sr s
  refine ⟨_, rfl, resultWritten_writeResult dr _ s, ?_⟩
  rw [State.reg_writeResult_self, BitVec.neg_eq_not_add]
  rfl

end Sys2Proof.Machine
end

section
/-! PROOFS. Control transfer: what a jump and a linked jump leave unchanged, one equation per instruction and setting, and the
obligations on BR, NOP, JMP, RET, JMPT, JSR and JSRR (spec/41_control.md R160 to R170). -/

namespace Sys2Proof.Machine

/-! ## Jumps and linked jumps, each said once (R10, R170) -/

/-- Jumping to where pc already is changes nothing, so a branch not taken is a jump too. -/
theorem State.jumpTo_self (s : State) : s.jumpTo s.pc = s := rfl

theorem sameOutside_jumpTo (s : State) (a : Word) : sameOutside s (s.jumpTo a) :=
  ⟨fun _ => rfl, ⟨rfl, rfl, rfl, rfl, rfl⟩, ⟨rfl, rfl, rfl, rfl, rfl, rfl⟩⟩

theorem sameOutside_link_jumpTo (s : State) (a : Word) : sameOutside s (s.link.jumpTo a) :=
  sameOutside_jumpTo s.link a

theorem onlyPcMoves_jumpTo (s : State) (a : Word) : onlyPcMoves s (s.jumpTo a) :=
  ⟨s.reg_jumpTo a, rfl, sameOutside_jumpTo s a⟩

@[simp] theorem State.reg_link_seven (s : State) : s.link.reg 7 = s.pc := by rw [State.reg_link, if_pos rfl]

/-- The link writes no general register but R7, and the jump after it none. -/
theorem sameRegsExcept_link_jumpTo (s : State) (a : Word) : sameRegsExcept [7] s (s.link.jumpTo a) := fun r hr => by
  rw [State.reg_jumpTo, State.reg_link, if_neg (List.ne_of_not_mem_cons hr)]

/-! ## The instructions, as jumps -/

theorem exec_nop (off : Int) (s : State) : exec (.nop off) s = .next s := rfl

/-- BR jumps in either case: by its offset, or to where pc already is (R160, R161). -/
theorem exec_br (nzp : BitVec 3) (off : Int) (s : State) :
    exec (.br nzp off) s = .next (s.jumpTo (if nzp &&& psrNzp s.psr ≠ 0 then s.pc + pcOffset9 off else s.pc)) := by
  simp only [exec, execBr, branchTaken_iff]
  split_ifs
  · rfl
  · rw [s.jumpTo_self]

theorem exec_jmp (base : RegIdx) (s : State) : exec (.jmp base) s = .next (s.jumpTo (s.reg base)) := rfl

theorem exec_ret (s : State) : exec .ret s = exec (.jmp 7) s := rfl

theorem exec_jmpt_of_jump (base : RegIdx) {s : State} (h : s.cfg.jmptSemantics = .jump) :
    exec (.jmpt base) s = .next (s.jumpTo (s.reg base)) := by
  simp only [exec, execJmpt, h]

/-- From supervisor mode, JMPT under `jumpToUser` is the jump seen in user mode. -/
theorem exec_jmpt_of_supervisor (base : RegIdx) {s : State} (h : s.cfg.jmptSemantics = .jumpToUser)
    (hu : s.userMode = false) : exec (.jmpt base) s = .next (inMode true (s.jumpTo (s.reg base))) := by
  simp only [exec, execJmpt, h, hu]
  rfl

theorem exec_jmpt_of_user (base : RegIdx) {s : State} (h : s.cfg.jmptSemantics = .jumpToUser)
    (hu : s.userMode = true) : exec (.jmpt base) s = .next s := by
  simp only [exec, execJmpt, h, hu, if_true]

theorem exec_jsr (off : Int) (s : State) : exec (.jsr off) s = .next (s.link.jumpTo (s.pc + pcOffset11 off)) := rfl

/-- JSRR under either link order: the order matters for BaseR = 7 only, where the link written first is what is read (R168). -/
theorem exec_jsrr (base : RegIdx) (s : State) :
    exec (.jsrr base) s =
      .next (s.link.jumpTo (if s.cfg.jsrrLinkFirst = true ∧ base = 7 then s.pc else s.reg base)) := by
  simp only [exec, execJsrr]
  cases s.cfg.jsrrLinkFirst with
  | true => simp only [if_true, true_and, State.reg_link]
  | false => simp

/-! ## The obligations -/

/-- Settles O21: BR is a jump, by `exec_br`. -/
theorem brAddsItsOffsetWhenTaken : Obligations.BrAddsItsOffsetWhenTaken := by
  unfold Obligations.BrAddsItsOffsetWhenTaken
  intro nzp off s
  exact ⟨_, exec_br nzp off s, onlyPcMoves_jumpTo s _, s.jumpTo_pc _⟩

/-- Settles O22: an empty mask has no bit in common with the flags, so BR jumps to where pc already is. -/
theorem nopChangesNothing : Obligations.NopChangesNothing := by
  unfold Obligations.NopChangesNothing
  intro off s
  have hempty : ¬ (0 &&& psrNzp s.psr ≠ 0) := not_not.mpr BitVec.zero_and
  refine ⟨exec_nop off s, ?_⟩
  rw [exec_br, if_neg hempty, s.jumpTo_self]

/-- Settles O23: both are jumps to a register's word, and neither looks at the mode. -/
theorem jmpAndRetGoToTheirRegister : Obligations.JmpAndRetGoToTheirRegister := by
  unfold Obligations.JmpAndRetGoToTheirRegister
  intro s
  have hjmp (base : RegIdx) : ∃ t, exec (.jmp base) s = .next t ∧ t.pc = s.reg base ∧ onlyPcMoves s t :=
    ⟨_, exec_jmp base s, s.jumpTo_pc _, onlyPcMoves_jumpTo s _⟩
  refine ⟨hjmp, ?_, exec_ret s⟩
  rw [exec_ret]
  exact hjmp 7

/-- Settles O24: a jump under `jump`; under `jumpToUser` a jump whose PSR[15] is set, or nothing. -/
theorem jmptJumpsUnderItsJumpingSettings : Obligations.JmptJumpsUnderItsJumpingSettings := by
  unfold Obligations.JmptJumpsUnderItsJumpingSettings
  intro base s
  refine ⟨fun h => ⟨_, exec_jmpt_of_jump base h, s.jumpTo_pc _, onlyPcMoves_jumpTo s _⟩,
    fun h hu => ⟨_, exec_jmpt_of_supervisor base h hu, ?_⟩, fun h hu => exec_jmpt_of_user base h hu⟩
  have hbits (n : Nat) (hn : n < 15) : (withPriv s.psr true).getLsbD n = s.psr.getLsbD n := by
    rw [getLsbD_withPriv, if_pos hn]
  exact ⟨inMode_pc true _, psrPriv_withPriv s.psr true, hbits, s.reg_jumpTo (s.reg base),
    sameOutside_jumpTo s (s.reg base)⟩

/-- Settles O26: JSR is one linked jump, from the pc before the link. -/
theorem jsrLinksAndJumps : Obligations.JsrLinksAndJumps := by
  unfold Obligations.JsrLinksAndJumps
  intro off s
  exact ⟨_, exec_jsr off s, s.reg_link_seven, State.jumpTo_pc _ _, sameRegsExcept_link_jumpTo s _, rfl,
    sameOutside_link_jumpTo s _⟩

/-- Settles O27: JSRR is one linked jump, whose target `exec_jsrr` gives under either link order. -/
theorem jsrrLinksAndJumps : Obligations.JsrrLinksAndJumps := by
  unfold Obligations.JsrrLinksAndJumps
  intro base s
  exact ⟨_, exec_jsrr base s, s.reg_link_seven, State.jumpTo_pc _ _, sameRegsExcept_link_jumpTo s _, rfl,
    sameOutside_link_jumpTo s _⟩

end Sys2Proof.Machine
end

section
/-! PROOFS. Loads, LEA and the trap vectors: what a load leaves behind, said once for every address, the trap entry as a
linked jump to the vector's word, and the obligations on LD, LDI, LDR, LEA and a store to a vector
(spec/42_load_store.md R190 to R200, spec/43_system.md R220, R221). -/

namespace Sys2Proof.Machine

/-! ## Loading a word (R192 to R194) -/

theorem resultLoaded_of_resultWritten {dr : RegIdx} {v : Word} {s t : State} (h : resultWritten dr v s t) :
    resultLoaded dr v s s t := by
  obtain ⟨hdr, hflags, hregs, habove, hpc, hmem, hcontrol, hout, htrace, hdevice⟩ := h
  exact ⟨hdr, hflags, hregs, habove, hpc, hmem, hcontrol, hout, htrace, hdevice⟩

/-- What a load keeps is kept from before an earlier read too: a read moves nothing but the device ports. -/
theorem resultLoaded_of_after_memRead {dr : RegIdx} {v a : Word} {u s t : State}
    (h : resultLoaded dr v u (memRead a s).2 t) : resultLoaded dr v u s t := by
  rcases memRead_spec a s with hsame | ⟨_, _, hanswered⟩
  · rwa [hsame] at h
  · rw [hanswered] at h
    exact h

/-- A load is one read and then one result written. -/
theorem resultLoaded_loadInto (dr : RegIdx) (a : Word) (s : State) :
    resultLoaded dr (memRead a s).1 (memRead a s).2 s (loadInto dr a s) :=
  resultLoaded_of_after_memRead (resultLoaded_of_resultWritten (resultWritten_writeResult dr _ _))

/-! ## The loads and LEA, each at the address it computes (R190) -/

theorem exec_ld (dr : RegIdx) (off : Int) (s : State) :
    exec (.ld dr off) s = .next (loadInto dr (s.pc + pcOffset9 off) s) := rfl

theorem exec_ldi (dr : RegIdx) (off : Int) (s : State) :
    exec (.ldi dr off) s = .next (loadInto dr (memRead (s.pc + pcOffset9 off) s).1
      (memRead (s.pc + pcOffset9 off) s).2) := rfl

theorem exec_ldr (dr base : RegIdx) (off : Int) (s : State) :
    exec (.ldr dr base off) s = .next (loadInto dr (s.reg base + offset6 off) s) := rfl

theorem exec_lea (dr : RegIdx) (off : Int) (s : State) :
    exec (.lea dr off) s = .next (s.writeResult dr (s.pc + pcOffset9 off)) := rfl

/-! ## The trap vectors (R108, R220) -/

theorem toNat_trapVector (v : Nat) : (trapVector v).toNat = v % 256 := by
  have hlt : v % 256 < 65536 := by omega
  rw [trapVector, BitVec.toNat_setWidth, BitVec.toNat_ofNat, Nat.mod_eq_of_lt hlt]

theorem trapVector_eq_ofNat {v : Nat} (h : v < 256) : trapVector v = BitVec.ofNat 16 v := by
  apply BitVec.eq_of_toNat_eq
  rw [toNat_trapVector, BitVec.toNat_ofNat]
  omega

theorem trapVector_below (v : Nat) : trapVector v < windowBase := by
  rw [below_iff, toNat_trapVector]
  omega

/-- A vector is read from the array, with no effect (R221). -/
theorem memRead_trapVector (v : Nat) (s : State) : memRead (trapVector v) s = (Memory.readWord s.mem (v % 256), s) := by
  rw [memRead_below (trapVector_below v), toNat_trapVector]

/-- TRAP is a linked jump to the word of its vector (R220). -/
theorem exec_trap (vect : Nat) (s : State) :
    exec (.trap vect) s = .next (s.link.jumpTo (Memory.readWord s.mem (vect % 256))) := by
  simp only [exec, execTrap, enterTrap, memRead_trapVector, State.link_mem]

/-! ## The obligations -/

/-- Settles O28: LD is one load. -/
theorem ldLoadsThePcRelativeWord : Obligations.LdLoadsThePcRelativeWord := by
  unfold Obligations.LdLoadsThePcRelativeWord
  intro dr off s
  exact ⟨_, exec_ld dr off s, resultLoaded_loadInto dr _ s⟩

/-- Settles O29: LDI is one load from the state its pointer read left, and that read moved only the device ports. -/
theorem ldiLoadsThroughThePointer : Obligations.LdiLoadsThroughThePointer := by
  unfold Obligations.LdiLoadsThroughThePointer
  intro dr off s
  exact ⟨_, exec_ldi dr off s, resultLoaded_of_after_memRead (resultLoaded_loadInto dr _ _)⟩

/-- Settles O30: LDR is one load, at an address computed before DR is written. -/
theorem ldrLoadsTheBaseOffsetWord : Obligations.LdrLoadsTheBaseOffsetWord := by
  unfold Obligations.LdrLoadsTheBaseOffsetWord
  intro dr base off s
  exact ⟨_, exec_ldr dr base off s, resultLoaded_loadInto dr _ s⟩

/-- Settles O31: LEA writes one result and reads nothing. -/
theorem leaWritesTheAddress : Obligations.LeaWritesTheAddress := by
  unfold Obligations.LeaWritesTheAddress
  intro dr off s
  exact ⟨_, exec_lea dr off s, resultWritten_writeResult dr _ s⟩

/-- Settles O34: a vector is a word of the array, so TRAP jumps to what was last stored there. -/
theorem aStoreToAVectorMovesItsTrap : Obligations.AStoreToAVectorMovesItsTrap := by
  unfold Obligations.AStoreToAVectorMovesItsTrap
  intro vect s hw hv
  refine ⟨?_, fun target => ⟨_, exec_trap vect _, ?_⟩⟩
  · rw [memRead_trapVector, Nat.mod_eq_of_lt hv]
  · rw [State.jumpTo_pc, ← trapVector_eq_ofNat hv, readWord_memWrite (trapVector_below vect) target hw,
      toNat_trapVector, if_pos rfl]

end Sys2Proof.Machine
end

section
/-! PROOFS. TRAP and RTI: TRAP as a linked jump to its vector's word, what one pop and the two pops of a return from
interrupt leave, and that a read does not see the registers a pop moves (spec/43_system.md R220, R222, R223). -/

namespace Sys2Proof.Machine

/-! ## A read sees memory, MCR and the device ports only (R64) -/

/-- States alike in memory, MCR and the device ports read the same word, and stay alike in the device ports. -/
theorem memRead_of_alike {s t : State} (a : Word) (hm : t.mem = s.mem) (hc : t.mcr = s.mcr) (hp : devicePortsOf s t) :
    (memRead a t).1 = (memRead a s).1 ∧ devicePortsOf (memRead a s).2 (memRead a t).2 := by
  obtain ⟨hlog, hkbd, hdev, hdraws⟩ := hp
  have hports : portsOf t = portsOf s := by rw [portsOf, portsOf, hkbd, hdev, hdraws]
  obtain ⟨hword, hleft⟩ := Reads.of_memRead a s t hm hc hports
  obtain ⟨hkbd', hdev', hdraws'⟩ := Ports.mk.inj hleft
  have hlog' : (memRead a t).2.portLog = (memRead a s).2.portLog := by
    rw [memRead_portLog, memRead_portLog, hword, hlog]
  exact ⟨hword, hlog', hkbd', hdev', hdraws'⟩

/-! ## The pops of a return from interrupt (R222, D21) -/

@[simp] theorem popWord_reg_six (s : State) : (popWord s).2.reg 6 = s.reg 6 + 1 := by
  rw [popWord_snd, State.reg_setReg_self]

theorem returnFromInterrupt_pc (s : State) : (returnFromInterrupt s).pc = (memRead (s.reg 6) s).1 := by
  simp only [returnFromInterrupt, popWord_snd, State.setReg_pc, memRead_pc, State.jumpTo_pc, popWord_fst]

theorem returnFromInterrupt_reg_six (s : State) : (returnFromInterrupt s).reg 6 = s.reg 6 + 2 := by
  simp only [returnFromInterrupt, State.reg_withPsr, popWord_reg_six, State.reg_jumpTo, BitVec.add_assoc]
  rfl

/-- The second pop reads one word above the first, and sees what the first left at the device ports. -/
theorem returnFromInterrupt_second_pop (s : State) :
    (returnFromInterrupt s).psr = (memRead (s.reg 6 + 1) (memRead (s.reg 6) s).2).1 ∧
      devicePortsOf (memRead (s.reg 6 + 1) (memRead (s.reg 6) s).2).2 (returnFromInterrupt s) := by
  have hsp : ((popWord s).2.jumpTo (popWord s).1).reg 6 = s.reg 6 + 1 := popWord_reg_six s
  have halike := memRead_of_alike (s := (memRead (s.reg 6) s).2) (t := (popWord s).2.jumpTo (popWord s).1)
    (s.reg 6 + 1) rfl rfl ⟨rfl, rfl, rfl, rfl⟩
  rw [← hsp] at halike ⊢
  exact halike

/-- The two pops read memory and store nothing: what is outside the registers, pc, PSR and the device ports stands. -/
theorem returnFromInterrupt_frame (s : State) :
    sameMemory s (returnFromInterrupt s) ∧ sameControl s (returnFromInterrupt s) ∧
      (returnFromInterrupt s).out = s.out ∧ (returnFromInterrupt s).trace = s.trace := by
  simp [sameMemory, sameControl, returnFromInterrupt, popWord_snd]

/-! ## RTI in supervisor mode (R222) -/

theorem exec_rti_of_supervisor {s : State} (hu : s.userMode = false) : exec .rti s = .next (returnFromInterrupt s) := by
  simp only [exec, execRti, hu, Bool.false_eq_true, if_false]

/-! ## The obligations -/

/-- Settles O33: TRAP is one linked jump, to the word of its vector. -/
theorem trapLinksAndEntersTheVector : Obligations.TrapLinksAndEntersTheVector := by
  unfold Obligations.TrapLinksAndEntersTheVector
  intro vect s
  exact ⟨_, exec_trap vect s, s.reg_link_seven, State.jumpTo_pc _ _, sameRegsExcept_link_jumpTo s _, rfl,
    sameOutside_link_jumpTo s _⟩

/-- Settles O35: in supervisor mode RTI is the two pops of `returnFromInterrupt`, in user mode the identity. -/
theorem rtiPopsPcThenPsrInSupervisorModeOnly : Obligations.RtiPopsPcThenPsrInSupervisorModeOnly := by
  unfold Obligations.RtiPopsPcThenPsrInSupervisorModeOnly
  intro s
  refine ⟨fun hu => ?_, exec_rti_of_user⟩
  obtain ⟨hpsr, hports⟩ := returnFromInterrupt_second_pop s
  obtain ⟨hmem, hcontrol, hout, htrace⟩ := returnFromInterrupt_frame s
  have hregs : sameRegsExcept [6] s (returnFromInterrupt s) := fun _ hr =>
    returnFromInterrupt_reg s (List.ne_of_not_mem_cons hr)
  exact ⟨_, exec_rti_of_supervisor hu, returnFromInterrupt_pc s, hpsr, returnFromInterrupt_reg_six s, hregs,
    hmem, hcontrol, hout, htrace, hports⟩

end Sys2Proof.Machine
end

section
/-! PROOFS. The trace port and the choice of executor are seen by no operation: every part of a step gives the same with and
without them, and the obligation on tracing (spec/50_execution_cycle.md R251, R254). -/

namespace Sys2Proof.Machine

/-! ## The shared operations without the trace -/

section
variable (s : State)

@[simp] theorem withoutTrace_reg (r : RegIdx) : (withoutTrace s).reg r = s.reg r := rfl

@[simp] theorem withoutTrace_pc : (withoutTrace s).pc = s.pc := rfl

@[simp] theorem withoutTrace_run : (withoutTrace s).run = s.run := rfl

theorem jumpTo_withoutTrace (a : Word) : (withoutTrace s).jumpTo a = withoutTrace (s.jumpTo a) := rfl

theorem setReg_withoutTrace (r : RegIdx) (v : Word) : (withoutTrace s).setReg r v = withoutTrace (s.setReg r v) := rfl

theorem writeResult_withoutTrace (dr : RegIdx) (v : Word) :
    (withoutTrace s).writeResult dr v = withoutTrace (s.writeResult dr v) := rfl

theorem link_withoutTrace : (withoutTrace s).link = withoutTrace s.link := rfl

theorem readKeyboard_withoutTrace (a : Word) :
    readKeyboard a (withoutTrace s) = ((readKeyboard a s).1, withoutTrace (readKeyboard a s).2) := by
  cases h : s.kbdIn <;> simp [readKeyboard, withoutTrace, State.answered, h]

theorem readOtherDevice_withoutTrace (a : Word) :
    readOtherDevice a (withoutTrace s) = ((readOtherDevice a s).1, withoutTrace (readOtherDevice a s).2) := by
  cases h : s.devIn <;> simp [readOtherDevice, withoutTrace, State.answered, h]

theorem memRead_withoutTrace (a : Word) :
    memRead a (withoutTrace s) = ((memRead a s).1, withoutTrace (memRead a s).2) := by
  simp only [memRead, devRead, readKeyboard_withoutTrace, readOtherDevice_withoutTrace]
  split_ifs <;> rfl

theorem memWrite_withoutTrace (a v : Word) : memWrite a v (withoutTrace s) = withoutTrace (memWrite a v s) := by
  simp only [memWrite, devWrite]
  split_ifs <;> rfl

theorem loadInto_withoutTrace (dr : RegIdx) (a : Word) :
    loadInto dr a (withoutTrace s) = withoutTrace (loadInto dr a s) := by
  simp only [loadInto, memRead_withoutTrace, writeResult_withoutTrace]

theorem enterTrap_withoutTrace (vect : Word) : enterTrap vect (withoutTrace s) = withoutTrace (enterTrap vect s) := by
  simp only [enterTrap, link_withoutTrace, memRead_withoutTrace, jumpTo_withoutTrace]

theorem popWord_withoutTrace : popWord (withoutTrace s) = ((popWord s).1, withoutTrace (popWord s).2) := by
  simp only [popWord, withoutTrace_reg, memRead_withoutTrace, setReg_withoutTrace]

theorem returnFromInterrupt_withoutTrace :
    returnFromInterrupt (withoutTrace s) = withoutTrace (returnFromInterrupt s) := by
  simp only [returnFromInterrupt, popWord_withoutTrace, jumpTo_withoutTrace]
  rfl

/-! ## The parts of a step without the trace -/

theorem fetch_withoutTrace : fetch (withoutTrace s) = ((fetch s).1, withoutTrace (fetch s).2) := by
  simp only [fetch, withoutTrace_pc, memRead_withoutTrace, jumpTo_withoutTrace]

/-- The plain executor emits nothing, and what the traced one emits is taken away again (R251). -/
theorem emitTrace_withoutTrace (i : Instr) : emitTrace i (withoutTrace s) = withoutTrace (emitTrace i s) := by
  have hplain : emitTrace i (withoutTrace s) = withoutTrace s := rfl
  rcases emitTrace_spec i s with h | ⟨_, _, h⟩ <;> rw [hplain, h]
  rfl

theorem retire_withoutTrace : retire (withoutTrace s) = withoutTrace (retire s) := by
  by_cases hstop : s.run = .faulted ∨ s.run = .refused
  · rw [retire_of_stopped hstop, retire_of_stopped (u := withoutTrace s) hstop]
  · obtain ⟨hf, hr⟩ := not_or.mp hstop
    rw [retire_of_going hf hr, retire_of_going (u := withoutTrace s) hf hr]
    rfl

end

/-- No operation looks at the trace port or at the choice of executor. -/
theorem exec_withoutTrace {i : Instr} {s t : State} (h : exec i s = .next t) :
    exec i (withoutTrace s) = .next (withoutTrace t) := by
  cases i with
  | addReg | addImm | andReg | andImm | notReg | lea | nop | jmp | ret | jsr | reserved => cases h; rfl
  | ld dr off => cases h; exact congrArg _ (loadInto_withoutTrace s dr _)
  | ldr dr base off => cases h; exact congrArg _ (loadInto_withoutTrace s dr _)
  | ldi dr off => rw [exec_ldi] at h ⊢; cases h; simp only [withoutTrace_pc, memRead_withoutTrace, loadInto_withoutTrace]
  | st sr off => cases h; exact congrArg _ (memWrite_withoutTrace s _ _)
  | str sr base off => cases h; exact congrArg _ (memWrite_withoutTrace s _ _)
  | sti sr off =>
    rw [exec_sti] at h ⊢
    cases h
    simp only [withoutTrace_pc, withoutTrace_reg, memRead_withoutTrace, memWrite_withoutTrace]
  | trap vect => cases h; exact congrArg _ (enterTrap_withoutTrace s _)
  | br nzp off => rw [exec_br] at h ⊢; cases h; rfl
  | jsrr base => rw [exec_jsrr] at h ⊢; cases h; rfl
  | rti =>
    cases hu : s.userMode with
    | true => rw [exec_rti_of_user hu] at h; cases h; exact exec_rti_of_user hu
    | false =>
      rw [exec_rti_of_supervisor hu] at h
      cases h
      rw [exec_rti_of_supervisor (s := withoutTrace s) hu, returnFromInterrupt_withoutTrace]
  | jmpt base =>
    cases hj : s.cfg.jmptSemantics with
    | refuse => rw [exec_jmpt_of_refuse base hj] at h; cases h; exact exec_jmpt_of_refuse base hj
    | jump => rw [exec_jmpt_of_jump base hj] at h; cases h; exact exec_jmpt_of_jump base hj
    | jumpToUser =>
      cases hu : s.userMode with
      | true => rw [exec_jmpt_of_user base hj hu] at h; cases h; exact exec_jmpt_of_user base hj hu
      | false => rw [exec_jmpt_of_supervisor base hj hu] at h; cases h; exact exec_jmpt_of_supervisor base hj hu

/-! ## The step without the trace -/

theorem step_withoutTrace {s t : State} (h : step s = .next t) : step (withoutTrace s) = .next (withoutTrace t) := by
  obtain ⟨hs, hcycle⟩ := step_cases h
  have hfetch := fetch_withoutTrace s
  rcases cycle_cases hcycle with ⟨⟨e, hd⟩, rfl⟩ | ⟨i, u, hd, hu, rfl⟩
  · rw [step_of_decode_error (s := withoutTrace s) hs (by rw [hfetch]; exact hd), hfetch]
    rfl
  · have hu' : exec i (emitTrace i (fetch (withoutTrace s)).2) = .next (withoutTrace u) := by
      rw [hfetch, emitTrace_withoutTrace]
      exact exec_withoutTrace hu
    rw [step_of_decode_ok (s := withoutTrace s) hs (by rw [hfetch]; exact hd) hu', retire_withoutTrace]

/-- Where no step is enabled, what a step answers depends on the run state alone (R246). -/
theorem step_congr_of_not_enabled {s s' : State} (hs : ¬ s.enabled = true) (hrun : s'.run = s.run) : step s' = step s := by
  rw [State.enabled_iff, not_or] at hs
  obtain ⟨hnotRunning, hnotHalted⟩ := hs
  cases h : s.run with
  | running => exact absurd h hnotRunning
  | halted => exact absurd h hnotHalted
  | uninitialized | faulted | refused => simp only [step, hrun, h]

/-! ## The obligation -/

/-- Settles O47: the two steps are one and the same step without the trace, and a stop depends on the run state alone. -/
theorem tracingDoesNotAlterResults : Obligations.TracingDoesNotAlterResults := by
  unfold Obligations.TracingDoesNotAlterResults
  intro s s' h
  have hrun : s'.run = s.run := by simpa using congrArg State.run h.symm
  by_cases hs : s.enabled = true
  · have hs' : s'.enabled = true := by rwa [State.enabled_iff, hrun, ← State.enabled_iff]
    obtain ⟨t, ht⟩ := everyEnabledStepGivesANextState s hs
    obtain ⟨t', ht'⟩ := everyEnabledStepGivesANextState s' hs'
    have hsame : withoutTrace t = withoutTrace t' := by
      have hstep := step_withoutTrace ht
      rw [h, step_withoutTrace ht'] at hstep
      exact (Host.Outcome.next.inj hstep).symm
    rw [ht, ht']
    refine ⟨fun _ e => ?_, fun _ e => ?_, fun _ e => ?_⟩ <;> cases e
    exact ⟨t', rfl, hsame⟩
  · rw [step_congr_of_not_enabled hs hrun]
    exact ⟨fun t ht => absurd (step_cases ht).1 hs, fun _ e => e, fun _ e => e⟩

end Sys2Proof.Machine
end

section
/-! PROOFS. What a step records: the decode fault as one equation for both kinds of undecodable word, the count and the trace
event of an operation, and the two obligations on them (spec/50_execution_cycle.md R243, R251, R253, spec/60_exceptions.md R281). -/

namespace Sys2Proof.Machine

/-! ## The decode fault (R243, R281) -/

/-- A reserved word's own operation takes the fault that the step takes for any other undecodable word (R224). -/
theorem exec_of_decode_reserved {s : State} {i : Instr} (hd : decode (fetch s).1 = .ok i) (hi : i.isReserved = true) :
    exec i (emitTrace i (fetch s).2) = .next (takeDecodeFault s.pc (fetch s).1 (fetch s).2) := by
  cases i with
  | reserved low =>
    have hword : encode (.reserved low) = (fetch s).1 := (encodeOfDecodeClearsTheIgnoredBits _ _ hd).2
    have hquiet : emitTrace (.reserved low) (fetch s).2 = (fetch s).2 := by
      rw [emitTrace_eq, if_neg (by simp [Instr.isReserved])]
    have haddr : (fetch s).2.pc - 1 = s.pc := BitVec.add_sub_cancel s.pc 1
    rw [hquiet, exec, execReserved, hword, haddr]
  | _ => cases hi

theorem step_of_decodeFaults {s : State} (hs : s.enabled = true) (hf : decodeFaults (fetch s).1 = true) :
    step s = .next (takeDecodeFault s.pc (fetch s).1 (fetch s).2) := by
  cases hd : decode (fetch s).1 with
  | error e => exact step_of_decode_error hs hd
  | ok i =>
    rw [decodeFaults_of_ok hd] at hf
    rw [step_of_decode_ok hs hd (exec_of_decode_reserved hd hf), retire_of_stopped (Or.inl rfl)]

/-! ## The count and the trace event (R251, R253) -/

@[simp] theorem fetch_tc (s : State) : (fetch s).2.tc = s.tc := by simp [fetch_snd]

@[simp] theorem fetch_trace (s : State) : (fetch s).2.trace = s.trace := by simp [fetch_snd]

@[simp] theorem emitTrace_tc (i : Instr) (s : State) : (emitTrace i s).tc = s.tc := by
  rcases emitTrace_spec i s with h | ⟨_, _, h⟩ <;> rw [h]

theorem emitTrace_trace (i : Instr) (s : State) :
    (emitTrace i s).trace = if i.isReserved = false ∧ s.cfg.traced = true then s.trace ++ [⟨s.tc, i⟩] else s.trace := by
  rw [emitTrace_eq]
  split_ifs <;> rfl

@[simp] theorem retire_trace (u : State) : (retire u).trace = u.trace := by
  obtain ⟨n, r, _, h⟩ := retire_update u
  rw [h]

/-- The end of a step halts the engine or leaves its run state. -/
theorem retire_run_cases (u : State) : (retire u).run = .halted ∨ (retire u).run = u.run := by
  by_cases hstop : u.run = .faulted ∨ u.run = .refused
  · rw [retire_of_stopped hstop]
    exact Or.inr rfl
  · obtain ⟨hf, hr⟩ := not_or.mp hstop
    rw [retire_of_going hf hr]
    exact ite_eq_or_eq _ _ _

/-- The end of a step counts it, unless the engine has stopped for good. -/
theorem retire_tc (u : State) :
    (retire u).tc = if (retire u).run = .faulted ∨ (retire u).run = .refused then u.tc else u.tc + 1 := by
  by_cases hstop : u.run = .faulted ∨ u.run = .refused
  · rw [retire_of_stopped hstop, if_pos hstop]
  · obtain ⟨hf, hr⟩ := not_or.mp hstop
    rw [if_neg, retire_of_going hf hr]
    rcases retire_run_cases u with h | h <;> rw [h]
    · simp
    · exact hstop

/-! ## The obligations -/

/-- Settles O38: the step is `takeDecodeFault` after the fetch, and the fetch is one read and the increment of pc. -/
theorem theDecodeFaultChangesNothingElse : Obligations.TheDecodeFaultChangesNothingElse := by
  unfold Obligations.TheDecodeFaultChangesNothingElse
  intro s hs hf
  refine ⟨_, step_of_decodeFaults hs hf, rfl, rfl, rfl, fetch_psr s, memRead_reg s.pc s, fun k => ?_, memRead_mcr s.pc s,
    fetch_tc s, fetch_cfg s, memRead_out s.pc s, fetch_trace s, rfl, rfl, rfl, rfl⟩
  exact congrArg (Memory.readByte · k) (fetch_mem s)

/-- Settles O41: after a decode fault by what the fetch left, else by the trace event before the operation and the count after
it. -/
theorem everyOperationIsCountedAndTraced : Obligations.EveryOperationIsCountedAndTraced := by
  unfold Obligations.EveryOperationIsCountedAndTraced
  intro s t h
  rcases cycle_cases (step_cases h).2 with ⟨⟨e, hd⟩, rfl⟩ | ⟨i, u, hd, hu, rfl⟩
  · refine ⟨?_, fun i hi => ?_, fun _ => fetch_trace s⟩
    · exact (fetch_tc s).trans (if_pos (Or.inl rfl)).symm
    · rw [hd] at hi; cases hi
  · have htc : u.tc = s.tc := by simp [exec_tc hu]
    have htrace : (retire u).trace =
        if i.isReserved = false ∧ s.cfg.traced = true then s.trace ++ [⟨s.tc, i⟩] else s.trace := by
      simp [exec_trace hu, emitTrace_trace]
    rw [htrace, retire_tc, htc]
    refine ⟨rfl, fun j hj hreserved htraced => ?_, fun hquiet => if_neg ?_⟩
    · rw [hd] at hj
      cases hj
      exact if_pos ⟨hreserved, htraced⟩
    · rw [decodeFaults_of_ok hd] at hquiet
      rintro ⟨hreserved, htraced⟩
      rw [hreserved, htraced] at hquiet
      rcases hquiet with hquiet | hquiet <;> cases hquiet

end Sys2Proof.Machine
end

section
/-! PROOFS. The host's run loop and its observer: where they are enabled, what their entry and exit do to the run state, and the
three obligations on them (spec/50_execution_cycle.md R246 to R252). -/

namespace Sys2Proof.Machine

/-! ## Entry and exit of the loop (R249) -/

/-- From an enabled engine whose clock bit is set the loop starts running, resuming a halted engine (D17). -/
theorem resumeIfClocked_of_clockOn {s : State} (hs : s.enabled = true) (hc : s.clockOn = true) :
    resumeIfClocked s = { s with run := .running } := by
  rcases (State.enabled_iff s).mp hs with hrun | hrun
  · rw [resumeIfClocked, if_neg (by simp [hrun]), ← hrun]
  · rw [resumeIfClocked, if_pos ⟨hrun, hc⟩]

theorem resumeIfClocked_of_clockOff {s : State} (hc : s.clockOn = false) : resumeIfClocked s = s :=
  if_neg (by simp [hc])

theorem haltIfRunning_of_not_running {s : State} (h : s.run ≠ .running) : haltIfRunning s = s := if_neg h

/-- An enabled engine leaves the loop in Halted. -/
theorem haltIfRunning_of_enabled {s : State} (hs : s.enabled = true) : haltIfRunning s = { s with run := .halted } := by
  rcases (State.enabled_iff s).mp hs with hrun | hrun
  · exact if_pos hrun
  · rw [haltIfRunning_of_not_running (by simp [hrun]), ← hrun]

/-- The entry and the exit of the loop, with no step between them. -/
theorem haltIfRunning_resumeIfClocked {s : State} (hs : s.enabled = true) :
    haltIfRunning (resumeIfClocked s) = { s with run := .halted } := by
  cases hc : s.clockOn with
  | true => rw [resumeIfClocked_of_clockOn hs hc]; rfl
  | false => rw [resumeIfClocked_of_clockOff hc, haltIfRunning_of_enabled hs]

theorem resumeIfClocked_run_ne_uninitialized {s : State} (hs : s.enabled = true) :
    (resumeIfClocked s).run ≠ .uninitialized := by
  rw [resumeIfClocked]
  split
  · simp
  · rcases (State.enabled_iff s).mp hs with hrun | hrun <;> simp [hrun]

/-- What the loop leaves has ended, unless the engine was never initialised. -/
theorem haltIfRunning_run {s : State} (h : s.run ≠ .uninitialized) :
    (haltIfRunning s).run = .halted ∨ (haltIfRunning s).run = .faulted ∨ (haltIfRunning s).run = .refused := by
  cases hrun : s.run with
  | uninitialized => exact absurd hrun h
  | running | halted | faulted | refused => simp [haltIfRunning, hrun]

/-! ## The loop -/

theorem stepWhileClocked_of_not_looping {s : State} (h : ¬ looping s) (n : Nat) : stepWhileClocked n s = .next s := by
  cases n with
  | zero => rfl
  | succ n => exact if_neg h

theorem stepWhileClocked_of_step {s t : State} (hl : looping s) (h : step s = .next t) (n : Nat) :
    stepWhileClocked (n + 1) s = stepWhileClocked n t := by
  rw [stepWhileClocked, if_pos ⟨hl.1, hl.2⟩, h]

/-- No step leads back to Uninitialized (R246). -/
theorem step_run_ne_uninitialized {s t : State} (h : step s = .next t) : t.run ≠ .uninitialized := by
  obtain ⟨hs, hcycle⟩ := step_cases h
  rw [State.enabled_iff] at hs
  rcases cycle_cases hcycle with ⟨_, rfl⟩ | ⟨i, u, _, hu, rfl⟩
  · simp [takeDecodeFault]
  · rcases retire_run_cases u with hend | hend <;> rw [hend]
    · simp
    · rw [exec_run hu]
      split_ifs
      · simp
      · simp
      · rcases hs with hs | hs <;> simp [hs]

theorem stepWhileClocked_next (n : Nat) {s : State} (hs : s.run ≠ .uninitialized) :
    ∃ t, stepWhileClocked n s = .next t ∧ t.run ≠ .uninitialized := by
  induction n generalizing s with
  | zero => exact ⟨s, rfl, hs⟩
  | succ n ih =>
    by_cases hl : looping s
    · obtain ⟨u, hu⟩ := everyEnabledStepGivesANextState s ((State.enabled_iff s).mpr (Or.inl hl.1))
      rw [stepWhileClocked_of_step hl hu]
      exact ih (step_run_ne_uninitialized hu)
    · exact ⟨s, stepWhileClocked_of_not_looping hl _, hs⟩

theorem runLoop_of_next {n : Nat} {s t : State} (h : stepWhileClocked n (resumeIfClocked s) = .next t) :
    runLoop n s = .next (haltIfRunning t) := by
  rw [runLoop, h]

theorem hostRun_of_enabled {s : State} (hs : s.enabled = true) (n : Nat) : hostRun n s = runLoop n s := by
  rcases (State.enabled_iff s).mp hs with hrun | hrun <;> simp only [hostRun, hrun]

theorem runWithObserver_of_enabled {s : State} (hs : s.enabled = true) (cb : Nat → State → Bool) (n : Nat) :
    runWithObserver cb n s = observeLoop cb n 0 (resumeIfClocked s) := by
  rcases (State.enabled_iff s).mp hs with hrun | hrun <;> simp only [runWithObserver, hrun]

/-! ## The obligations -/

/-- Settles O58: the loop always ends in a next state, with a clear clock it makes no step, and with a set one its first step is
the step from Running. -/
theorem runStepsWhileTheClockIsOn : Obligations.RunStepsWhileTheClockIsOn := by
  unfold Obligations.RunStepsWhileTheClockIsOn
  intro s hs
  simp only [hostRun_of_enabled hs]
  refine ⟨fun n => ?_, fun n hc => ?_, ?_, fun n u hc hu => ?_⟩
  · obtain ⟨t, ht, hrun⟩ := stepWhileClocked_next n (resumeIfClocked_run_ne_uninitialized hs)
    exact ⟨haltIfRunning t, runLoop_of_next ht, haltIfRunning_run hrun⟩
  · have hl : ¬ looping (resumeIfClocked s) := by simp [resumeIfClocked_of_clockOff hc, looping, hc]
    rw [runLoop_of_next (stepWhileClocked_of_not_looping hl n), haltIfRunning_resumeIfClocked hs]
  · rw [runLoop_of_next rfl, haltIfRunning_resumeIfClocked hs]
  · have hfirst : stepWhileClocked (n + 1) (resumeIfClocked s) = stepWhileClocked n u := by
      rw [resumeIfClocked_of_clockOn hs hc]
      exact stepWhileClocked_of_step (s := { s with run := .running }) ⟨rfl, hc⟩ hu n
    rw [runLoop, hfirst]
    split_ifs with hrun
    · have hentry : resumeIfClocked u = u := if_neg (by simp [hrun])
      rw [hostRun_of_enabled ((State.enabled_iff u).mpr (Or.inl hrun)), runLoop, hentry]
    · have hl : ¬ looping u := fun h => hrun h.1
      rw [stepWhileClocked_of_not_looping hl]
      exact congrArg _ (haltIfRunning_of_not_running hrun)

/-- Settles O40: each of these transactions answers by the run state before it does anything else. -/
theorem nothingRunsBeforeInitialisationOrAfterTheEnd : Obligations.NothingRunsBeforeInitialisationOrAfterTheEnd := by
  unfold Obligations.NothingRunsBeforeInitialisationOrAfterTheEnd
  intro s
  refine ⟨fun h => ?_, fun h => ?_, fun h => ?_⟩ <;>
    simp only [step, hostRun, runWithObserver, initializeEngine, h, implies_true, and_self]

/-- Settles O59: the branches of the observer's loop in their order. -/
theorem theObserverIsCalledBeforeEachStep : Obligations.TheObserverIsCalledBeforeEachStep := by
  unfold Obligations.TheObserverIsCalledBeforeEachStep
  intro cb n k s
  refine ⟨fun hs => runWithObserver_of_enabled hs cb n, fun hstop hrun => ?_, fun hgo hend => ?_, fun hgo hrun hc => ?_⟩
  · rw [observeLoop, if_pos hstop, haltIfRunning, if_pos hrun]
  · rw [observeLoop, if_neg (by simp [hgo]), if_neg hend]
  · obtain ⟨t, ht⟩ := everyEnabledStepGivesANextState s ((State.enabled_iff s).mpr (Or.inl hrun))
    refine ⟨t, ht, ?_⟩
    rw [observeLoop, if_neg (by simp [hgo]), if_pos ⟨hrun, hc⟩, ht]

end Sys2Proof.Machine
end

section
/-! PROOFS. Initialisation and the conditions of R298 that need no run: what installing a firmware leaves at each address, the
register file and MCR after initialisation, and the two obligations on them (spec/70_reset_and_hazards.md R321, R322,
spec/60_exceptions.md R298). -/

namespace Sys2Proof.Machine

/-! ## Installing a firmware (R321) -/

/-- A word that no pair names is as it was before the pairs were written. -/
theorem readWord_writePairs_of_ne {m : Memory} (hw : Memory.wf m = true) {ps : List (Word × Word)}
    (hp : ∀ p ∈ ps, p.1.toNat < 0xFE00) {a : Nat} (ha : ∀ p ∈ ps, p.1.toNat ≠ a) :
    Memory.readWord (Memory.writePairs m ps) a = Memory.readWord m a := by
  induction ps generalizing m with
  | nil => rfl
  | cons p ps ih =>
    obtain ⟨hb, hp⟩ := List.forall_mem_cons.mp hp
    obtain ⟨hne, ha⟩ := List.forall_mem_cons.mp ha
    exact (ih (Memory.wf_writeWord hw hb p.2) hp ha).trans (readWord_write_ne hw hb hne.symm p.2)

/-- A list that names no address twice installs each of its pairs. -/
theorem installedWord_of_nodup {ps : List (Word × Word)} (hn : (ps.map Prod.fst).Nodup) {p : Word × Word} (hp : p ∈ ps) :
    installedWord ps p.1 = some p.2 := by
  induction ps with
  | nil => cases hp
  | cons q ps ih =>
    rw [List.map_cons, List.nodup_cons] at hn
    rw [installedWord]
    rcases List.mem_cons.mp hp with rfl | hp
    · cases h : installedWord ps p.1 with
      | none => simp
      | some w => exact absurd (List.mem_map_of_mem (mem_of_installedWord h)) hn.1
    · rw [ih hn.2 hp]

theorem firmwareFits_iff (fw : List (Word × Word)) : firmwareFits fw = true ↔ ∀ p ∈ fw, p.1.toNat < 0xFE00 := by
  simp only [firmwareFits, List.all_eq_true, decide_eq_true_eq, below_iff]

/-! ## What initialisation leaves (R321, R322) -/

/-- Where initialisation is enabled and the firmware fits, it gives `initialized`. -/
theorem initializeEngine_of_fits {s : State} (hs : s.run = .uninitialized ∨ s.run = .running ∨ s.run = .halted)
    (hf : firmwareFits s.cfg.trapFirmware = true) : initializeEngine s = .next (initialized s) := by
  have h : initializeEngine s = installAndStart s := by
    rcases hs with hrun | hrun | hrun <;> simp only [initializeEngine, hrun]
  rw [h, installAndStart, if_pos hf]

theorem registerFileReset_reg (s : State) (r : RegIdx) : (registerFileReset s).reg r = 0 := by
  simp [State.reg, registerFileReset]

theorem initialized_reg (s : State) (r : RegIdx) :
    (initialized s).reg r = if r = 6 then s.cfg.userStackTop.toWord else 0 := by
  rw [← registerFileReset_reg s r]
  exact (registerFileReset s).reg_setReg 6 r s.cfg.userStackTop.toWord

/-- The clock bit is set and the bits below it are kept (R321, D11). -/
theorem initialized_mcr_bit (s : State) (n : Nat) :
    (initialized s).mcr.getLsbD n = (s.mcr.getLsbD n || decide (n = 15)) := by
  have hclock : (0x8000 : Word) = BitVec.twoPow 16 15 := rfl
  rw [show (initialized s).mcr = s.mcr ||| 0x8000 from rfl, hclock, BitVec.getLsbD_or, BitVec.getLsbD_twoPow]
  simp [eq_comm]

theorem stackTop_toWord (top : StackTop) : top.toWord = 0xFDFF ∨ top.toWord = 0xFE00 := by
  cases top with
  | lastUserWord => exact Or.inl rfl
  | onePast => exact Or.inr rfl

/-! ## The obligations -/

/-- Settles O53: the engine is left in `initialized`, whose registers, MCR and memory the lemmas above give; its other fields are
the old state's or constants. -/
theorem initialisationStartsTheEngine : Obligations.InitialisationStartsTheEngine := by
  unfold Obligations.InitialisationStartsTheEngine
  intro s hw hs hp
  have h6 : (initialized s).reg 6 = s.cfg.userStackTop.toWord := by rw [initialized_reg, if_pos rfl]
  refine ⟨initialized s, initializeEngine_of_fits hs ((firmwareFits_iff _).mpr hp),
    fun r hr => by rw [initialized_reg, if_neg hr], by rw [h6]; exact stackTop_toWord _, h6, rfl, rfl,
    by simp [initialized_mcr_bit], fun n hn => ?_, rfl, fun a ha => readWord_writePairs_of_ne hw hp ha,
    fun hn p hpm => ?_, rfl, rfl, rfl, rfl, rfl, rfl, rfl, rfl, rfl⟩
  · rw [initialized_mcr_bit s n, decide_eq_false hn.ne, Bool.or_false]
  · have h := readWord_writePairs hw hp p.1
    rw [installedWord_of_nodup hn hpm] at h
    exact h

/-- Settles O54: the vectors are the image's first words, and the rest is the check of its 110 pairs. -/
theorem theReferenceFirmwareConforms : Obligations.TheReferenceFirmwareConforms := by
  unfold Obligations.TheReferenceFirmwareConforms
  refine ⟨by decide +kernel, rfl, by decide +kernel, fun p (hp : p ∈ vectorWords) => ?_⟩
  simp only [referenceFirmware, List.append_assoc]
  exact List.mem_append_left _ hp

end Sys2Proof.Machine
end

section
/-! PROOFS. The reference routines meet their contracts: a call with known effects returns as R298 (c) asks, and PUTS and PUTSP as
one loop over the words of a string, with the obligation on the six routines (spec/60_exceptions.md R298 to R307). -/

namespace Sys2Proof.Machine

/-! ## Calls whose whole effect is known -/

/-- A reference call returns to the caller, the clock bit being where it was (R288). -/
theorem referenceCall.returns {n v : Nat} {r0 cc : Word} {saves : List (Word × Word)} {es : List PortEvent}
    {emitted : List Word} {u s t : State} (h : referenceCall n r0 cc saves es emitted u s t)
    (hs : atService referenceFirmware saveWords v s) : returnsTo saveWords s t := by
  obtain ⟨hn, hpc, ⟨_, _, _, _, _, hmem⟩, _, _, hmcr, hrun, _⟩ := h
  obtain ⟨_, _, hclock, _⟩ := hs
  rw [State.clockOn, ← hmcr] at hclock
  exact ⟨⟨⟨n, hn⟩, hrun, hclock, hmem⟩, hpc⟩

theorem getcContract_reference : getcContract referenceFirmware saveWords := by
  intro s u polls ready key h hk
  obtain ⟨t, ht⟩ := getc_call h hk
  have hr := ht.returns h
  obtain ⟨_, _, ⟨h0, _⟩, hd, ha, _⟩ := ht
  exact ⟨t, hr, h0, ha, hd⟩

theorem outContract_reference : outContract referenceFirmware saveWords := by
  intro s h
  obtain ⟨t, ht⟩ := out_call h
  have hr := ht.returns h
  obtain ⟨_, _, _, hd, ha, _⟩ := ht
  exact ⟨t, hr, ha, hd⟩

theorem inContract_reference : inContract referenceFirmware saveWords := by
  intro s u polls ready key h hk
  obtain ⟨t, ht⟩ := in_call h hk
  have hr := ht.returns h
  obtain ⟨_, _, ⟨h0, _⟩, hd, ha, _⟩ := ht
  exact ⟨t, hr, h0, ha, hd⟩

/-- HALT's run makes no device transaction at all: its one device write is to MCR (R305). -/
theorem haltContract_reference : haltContract referenceFirmware saveWords := by
  intro s h
  obtain ⟨t, ht, _, ⟨_, _, _, _, _, hmem⟩, ⟨_, hlog⟩, _, hmcr, hrun, _⟩ := halt_call h
  exact ⟨2, t, [], ht, by rw [State.clockOn, hmcr]; rfl, hrun, hmem, hlog, by simp⟩

/-! ## A string routine, word by word (R302, R304) -/

/-- The routine called from `s` stands at the head of its loop, at `head`, having shown `ws`: R0 is at the next word, R3 holds the
byte mask and R7 the return address. -/
structure AtLoopHead (head : Word) (bytes : Word → List Word) (s : State) (ws : List Word) (b : View) : Prop where
  pc : b.pc = head
  code : codeIn b.mem
  kept : sameButSaves s.mem b.mem
  pointer : b.reg 0 = s.reg 0 + BitVec.ofNat 16 ws.length
  mask : b.reg 3 = 0x00FF
  link : b.reg 7 = s.reg 7
  out : b.out = s.out ++ ws.flatMap bytes
  log : b.log = s.portLog ++ stringEvents bytes (s.reg 0) ws

/-- Between `b` and `c` the word `w` was read at the address in R0 and shown, and the ports were left at `io'`. -/
structure ShowsWord (bytes : Word → List Word) (w : Word) (io' : Ports) (b c : View) : Prop where
  mem : c.mem = b.mem
  out : c.out = b.out ++ bytes w
  log : c.log = b.log ++ (readEvents (b.reg 0) w ++ (bytes w).map (PortEvent.write ddrAddr))
  io : c.io = io'

section
variable {head : Word} {bytes : Word → List Word} {s : State} {ws : List Word} {w : Word} {io' : Ports} {b c : View}

/-- With one more word shown, the display and the device record are those of the longer string. -/
theorem AtLoopHead.shows (h : AtLoopHead head bytes s ws b) (hc : ShowsWord bytes w io' b c) :
    c.out = s.out ++ (ws ++ [w]).flatMap bytes ∧ c.log = s.portLog ++ stringEvents bytes (s.reg 0) (ws ++ [w]) := by
  refine ⟨?_, ?_⟩
  · rw [hc.out, h.out, List.flatMap_append, List.flatMap_singleton, List.append_assoc]
  · rw [hc.log, h.log, h.pointer, stringEvents_append, List.append_assoc]

/-- The loop of a string routine, from any view at its head with the mask in R3: a word that does not end the string is shown and
followed by the head, with R0 one further on, and a word that ends it is shown and followed by the return. -/
structure StringLoop (ends : Word → Prop) (bytes : Word → List Word) (head : Word) : Prop where
  goesOn : ∀ b w io', b.pc = head → codeIn b.mem → b.reg 3 = 0x00FF → Reads b.mem b.mcr (b.reg 0) b.io w io' → ¬ ends w →
    ∃ k c, Steps k b c ∧ ShowsWord bytes w io' b c ∧ c.pc = head ∧ c.reg 0 = b.reg 0 + 1 ∧ c.reg 3 = b.reg 3 ∧
      c.reg 7 = b.reg 7
  returns : ∀ b w io', b.pc = head → codeIn b.mem → b.reg 3 = 0x00FF → Reads b.mem b.mcr (b.reg 0) b.io w io' → ends w →
    ∃ k c, Steps k b c ∧ ShowsWord bytes w io' b c ∧ c.pc = b.reg 7

/-- The view at the head of the loop when the routine has just saved its registers. -/
theorem AtLoopHead.entered {v : Nat} (hs : atService referenceFirmware saveWords v s) {saves : List (Word × Word)}
    (hsaves : ∀ p ∈ saves, p.1 ∈ saveWords) (head : Word) (bytes : Word → List Word) (psr : Word) (tc : Nat) :
    AtLoopHead head bytes s [] ⟨Function.update s.reg 3 0x00FF, head, psr, Memory.writePairs s.mem saves, s.out, s.portLog,
      portsOf s, s.mcr, tc, s.cfg⟩ := by
  obtain ⟨hcode, hkept, _⟩ := saves_spec hs.1 hs.code (sameButSaves.refl s.mem) hsaves
  have hreg : ∀ r : RegIdx, r ≠ 3 → Function.update s.reg 3 0x00FF r = s.reg r := fun r hr => Function.update_of_ne hr ..
  exact {
    pc := rfl, code := hcode, kept := hkept
    pointer := (hreg 0 (by decide)).trans (BitVec.add_zero _).symm
    mask := Function.update_self 3 0x00FF s.reg
    link := hreg 7 (by decide)
    out := (List.append_nil _).symm
    log := (List.append_nil _).symm }

/-- A string routine of the reference firmware meets its contract when its entry saves registers and comes to the head of such a
loop. -/
theorem StringLoop.contract {ends : Word → Prop} (hl : StringLoop ends bytes head) {vect : Nat}
    (saves : State → List (Word × Word)) (hsaves : ∀ s, ∀ p ∈ saves s, p.1 ∈ saveWords)
    (entry : ∀ s, atService referenceFirmware saveWords vect s → ∃ k psr tc, Steps k (viewOf s)
      ⟨Function.update s.reg 3 0x00FF, head, psr, Memory.writePairs s.mem (saves s), s.out, s.portLog, portsOf s, s.mcr, tc,
        s.cfg⟩) :
    stringContract ends bytes vect referenceFirmware saveWords := by
  refine stringContract_of_loop (AtLoopHead head bytes) (fun s hs => ?_) (fun s ws b h => ⟨h.kept, h.out, h.log⟩)
    (fun s ws b w io' h hr he => ?_) (fun s ws b w io' h hr hn => ?_)
  · obtain ⟨k, psr, tc, hst⟩ := entry s hs
    exact ⟨k, _, hst, AtLoopHead.entered hs (hsaves s) head bytes psr tc, rfl⟩
  · rw [← h.pointer] at hr
    obtain ⟨k, c, hst, hc, hpc⟩ := hl.returns b w io' h.pc h.code h.mask hr he
    obtain ⟨hout, hlog⟩ := h.shows hc
    exact ⟨k, c, hst, hpc.trans h.link, hc.mem ▸ h.kept, hout, hlog, hc.io⟩
  · rw [← h.pointer] at hr
    obtain ⟨k, c, hst, hc, hpc, h0, h3, h7⟩ := hl.goesOn b w io' h.pc h.code h.mask hr hn
    obtain ⟨hout, hlog⟩ := h.shows hc
    have hp : c.reg 0 = s.reg 0 + BitVec.ofNat 16 (ws ++ [w]).length := by
      rw [h0, h.pointer, List.length_append, BitVec.ofNat_add, BitVec.add_assoc]
      rfl
    exact ⟨k, c, hst, ⟨hpc, hc.mem ▸ h.code, hc.mem ▸ h.kept, hp, h3.trans h.mask, h7.trans h.link, hout, hlog⟩, hc.io⟩

end

/-! ## PUTS and PUTSP -/

theorem charBytes_of_ne_zero {w : Word} (hw : w ≠ 0) : charBytes w = [w &&& 0x00FF] := if_neg hw

/-- PUTS: a word that is not zero is one character, and a zero word is followed by the restored registers (R302). -/
theorem puts_stringLoop : StringLoop endsChars charBytes 0x0214 where
  goesOn := by
    rintro ⟨reg, _, psr, mem, out, log, io, mcr, tc, cfg⟩ w io' rfl hcode h3 hr hn
    dsimp only at hcode h3 hr
    have hst := puts_char (psr := psr) (out := out) (log := log) (tc := tc) (cfg := cfg) hcode hn
      ((add_offset6_zero (reg 0)).symm ▸ hr)
    rw [add_offset6_zero, add_imm5_one, h3] at hst
    refine ⟨8, _, hst, ⟨rfl, ?_, ?_, rfl⟩, rfl, by simp, by simp, by simp⟩
    · rw [charBytes_of_ne_zero hn]
    · rw [charBytes_of_ne_zero hn, List.append_assoc, List.map_singleton]
  returns := by
    rintro ⟨reg, _, psr, mem, out, log, io, mcr, tc, cfg⟩ w io' rfl hcode _ hr rfl
    dsimp only at hcode hr
    have hst := puts_end (psr := psr) (out := out) (log := log) (tc := tc) (cfg := cfg) hcode
      ((add_offset6_zero (reg 0)).symm ▸ hr)
    rw [add_offset6_zero] at hst
    have hd := hst.trans (puts_done hcode rfl rfl rfl rfl)
    exact ⟨_, _, hd, ⟨rfl, (List.append_nil _).symm, by simp [charBytes], rfl⟩, by simp⟩

theorem putsContract_reference : putsContract referenceFirmware saveWords := by
  refine puts_stringLoop.contract putsSaves (by simp [putsSaves, saveWords]) fun s h => ?_
  have hpc : s.pc = 0x020F := h.pc_eq (by decide +kernel) (by decide) (by decide)
  rw [viewOf, hpc]
  exact ⟨5, _, _, puts_save h.1 h.code⟩

/-- PUTSP: a word of two bytes that are not zero is two characters; one with a zero byte is shown as far as that byte and followed
by the restored registers (R304). -/
theorem putsp_stringLoop : StringLoop endsPacked packedBytes 0x023D where
  goesOn := by
    rintro ⟨reg, _, psr, mem, out, log, io, mcr, tc, cfg⟩ w io' rfl hcode h3 hr hn
    dsimp only at hcode h3 hr
    obtain ⟨k, R, f, hst, h0, hR⟩ := putsp_word (psr := psr) (out := out) (log := log) (tc := tc) (cfg := cfg) hcode h3 hr hn
    exact ⟨k, _, hst, ⟨rfl, rfl, rfl, rfl⟩, rfl, h0, hR 3 (Or.inl rfl), hR 7 (Or.inr (by decide))⟩
  returns := by
    rintro ⟨reg, _, psr, mem, out, log, io, mcr, tc, cfg⟩ w io' rfl hcode h3 hr he
    dsimp only at hcode h3 hr
    obtain ⟨k, R, f, hst, hR⟩ := putsp_last (psr := psr) (out := out) (log := log) (tc := tc) (cfg := cfg) hcode h3 hr he
    have hd := hst.trans (putsp_done hcode rfl rfl rfl rfl rfl rfl)
    exact ⟨_, _, hd, ⟨rfl, rfl, rfl, rfl⟩, hR 7 (by decide)⟩

theorem putspContract_reference : putspContract referenceFirmware saveWords := by
  refine putsp_stringLoop.contract putspSaves (by simp [putspSaves, saveWords]) fun s h => ?_
  have hpc : s.pc = 0x0236 := h.pc_eq (by decide +kernel) (by decide) (by decide)
  rw [viewOf, hpc]
  exact ⟨7, _, _, putsp_save h.1 h.code⟩

/-! ## The obligation -/

/-- The save words are words of the image, above the vectors (R306). -/
theorem saveWords_installed :
    ∀ a ∈ saveWords, 0x0200 ≤ a ∧ a ≤ 0x2FFF ∧ (installedWord referenceFirmware a).isSome = true := by
  have h : saveWords.all (fun a => decide (0x0200 ≤ a) && decide (a ≤ 0x2FFF) &&
      (installedWord referenceFirmware a).isSome) = true := by decide +kernel
  simpa only [List.all_eq_true, Bool.and_eq_true, decide_eq_true_eq, and_assoc] using h

theorem meetsContracts_reference : meetsContracts referenceFirmware :=
  ⟨saveWords, saveWords_installed, getcContract_reference, outContract_reference, putsContract_reference,
    inContract_reference, putspContract_reference, haltContract_reference⟩

/-- Settles O60: conditions (a) and (b) are O54's, condition (c) is the six contracts with the save words as scratch words, and
each routine's call is one of the call lemmas. -/
theorem theReferenceRoutinesMeetTheirContracts : Obligations.TheReferenceRoutinesMeetTheirContracts := by
  unfold Obligations.TheReferenceRoutinesMeetTheirContracts
  exact ⟨⟨theReferenceFirmwareConforms.1, meetsContracts_reference⟩, fun _ _ _ _ _ => getc_call, fun _ => out_call,
    fun _ _ _ => puts_call, fun _ _ _ _ _ => in_call, fun _ _ _ _ => putsp_call, fun _ => halt_call⟩

end Sys2Proof.Machine
end
